-- ==== Sys2Proof/Word.lean ====
section
/-! DEFINITION. The item types of the block's ports: pixel, byte and word (spec/30_encoding.md R90, R92, R96). -/

namespace Sys2Proof

/-- A 4-bit stream item (R66, R90). A valid pixel is a Color code 0 to 6 (R91). -/
abbrev Pixel := BitVec 4

/-- An 8-bit stream item, two pixels when it is a packed byte (R92). -/
abbrev Byte := BitVec 8

/-- A 32-bit operation word or result value (R96, R98). -/
abbrev Word := BitVec 32

end Sys2Proof
end

