-- ==== Sys2Proof/Syntax.lean ====
section
/-! DEFINITION. The twelve operations (R99), one constructor per row of spec/opcode_table.json. Every operation has one
operand, the `count` field of its word (R96, R97), a number whose bound WellFormed.lean checks (log 12). -/

namespace Sys2Proof

/-- An operation with its `count` field (R97, R99). -/
inductive Instr where
  /-- `NOP`, count must be 0 (R210). -/
  | nop        (count : Nat)
  /-- `RD_REG r` (R211). -/
  | rdReg      (r : Nat)
  /-- `PACK n`, n pixels (R121). -/
  | pack       (n : Nat)
  /-- `UNPACK m`, m bytes (R123). -/
  | unpack     (m : Nat)
  /-- `INIT`, count must be 0 (R144). -/
  | init       (count : Nat)
  /-- `BEGIN_FRAME`, count must be 0 (R147). -/
  | beginFrame (count : Nat)
  /-- `SEND_CHUNK L`, L bytes (R148). -/
  | sendChunk  (len : Nat)
  /-- `END_FRAME`, count must be 0 (R150). -/
  | endFrame   (count : Nat)
  /-- `TURN_OFF`, count must be 0 (R152). -/
  | turnOff    (count : Nat)
  /-- `GEN_SCATTER`, count must be 0 (R182). -/
  | genScatter (count : Nat)
  /-- `GEN_CHUNK n`, n pixels (R192). -/
  | genChunk   (n : Nat)
  /-- `GEN_SEND L`, L bytes (R193). -/
  | genSend    (len : Nat)
  deriving DecidableEq, Repr

/-- The `count` field (R97). -/
def Instr.count : Instr → Nat
  | .nop c => c
  | .rdReg r => r
  | .pack n => n
  | .unpack m => m
  | .init c => c
  | .beginFrame c => c
  | .sendChunk l => l
  | .endFrame c => c
  | .turnOff c => c
  | .genScatter c => c
  | .genChunk n => n
  | .genSend l => l

end Sys2Proof
end

