-- ==== Sys2Proof/WellFormed.lean ====
section
/-! DEFINITION. When an operation fits its word: the `count` field is 20 bits wide (R96, R97). A count that an operation
does not allow is well formed: the word decodes and the operation ends `BadCount` (R101). -/

namespace Sys2Proof

/-- One past the largest `count`: the field holds 0 to 1048575 (R97). -/
def countBound : Nat := 1048576

/-- The operation's count fits the 20-bit field (R97). -/
def Instr.wellFormed (i : Instr) : Bool := decide (i.count < countBound)

end Sys2Proof
end

