-- ==== Sys2Proof/Decode.lean ====
section
/-! DEFINITION. Decoding an operation word (R100), total on all 2^32 words, and the encoder (R96, R99, R103). -/

namespace Sys2Proof

/-- Why a word is no operation (R100, R101). Both end `IllegalOp`: no operation runs, so both are safe. -/
inductive DecodeError where
  /-- Bits 23:20 are not 0 (R96, X2). Raised by `decode`. -/
  | reservedNotZero
  /-- One of the 244 opcodes that rule R99 does not assign (R101, X1). Raised by `decode`. -/
  | unassignedOpcode
  deriving DecidableEq, Repr

/-- `w[31:24]` (R96). -/
def opcodeField (w : Word) : BitVec 8 := w.extractLsb' 24 8
/-- `w[23:20]` (R96). -/
def rsvField (w : Word) : BitVec 4 := w.extractLsb' 20 4
/-- `w[19:0]` as an unsigned number (R96, R97). -/
def countField (w : Word) : Nat := (w.extractLsb' 0 20).toNat

/-- The operation that an opcode and a count name, if the opcode is assigned (R99). -/
def ofOpcode (opcode : Nat) (count : Nat) : Option Instr :=
  match opcode with
  | 0x00 => some (.nop count)
  | 0x01 => some (.rdReg count)
  | 0x10 => some (.pack count)
  | 0x11 => some (.unpack count)
  | 0x20 => some (.init count)
  | 0x21 => some (.beginFrame count)
  | 0x22 => some (.sendChunk count)
  | 0x23 => some (.endFrame count)
  | 0x24 => some (.turnOff count)
  | 0x30 => some (.genScatter count)
  | 0x31 => some (.genChunk count)
  | 0x32 => some (.genSend count)
  | _ => none

/-- Decoding (R100): the reserved field is checked first. -/
def decode (w : Word) : Except DecodeError Instr :=
  if rsvField w ≠ 0#4 then .error .reservedNotZero
  else
    match ofOpcode (opcodeField w).toNat (countField w) with
    | some i => .ok i
    | none => .error .unassignedOpcode

/-- The opcode (R99). -/
def opcodeOf : Instr → BitVec 8
  | .nop _ => 0x00#8
  | .rdReg _ => 0x01#8
  | .pack _ => 0x10#8
  | .unpack _ => 0x11#8
  | .init _ => 0x20#8
  | .beginFrame _ => 0x21#8
  | .sendChunk _ => 0x22#8
  | .endFrame _ => 0x23#8
  | .turnOff _ => 0x24#8
  | .genScatter _ => 0x30#8
  | .genChunk _ => 0x31#8
  | .genSend _ => 0x32#8

/-- The operation word: opcode, reserved zeros, count (R96, R103). -/
def encode (i : Instr) : Word :=
  opcodeOf i ++ (0#4 ++ BitVec.ofNat 20 i.count)

/-- The operation word of an opcode-table row's bits `w`. An operation word crosses its port whole, as one
number with bit 0 least significant, so there is no byte order to lay out (R63). -/
def tableWord (nbits w : Nat) : Word := BitVec.ofNat 32 (w % 2 ^ nbits)

/-- The instruction the decoder reads from an opcode-table row's bits `w`. -/
def decodeTableWord (nbits w : Nat) : Option Instr :=
  match decode (tableWord nbits w) with
  | .ok i => some i
  | .error _ => none

end Sys2Proof
end

