-- ==== Sys2Proof/Config.lean ====
section
/-! DEFINITION. What is fixed for the hardware (R6, R7) and the OPEN implementation parameters (R8 to R12). -/

namespace Sys2Proof

/-- A panel command `(c, d)`: one command byte and a list of data bytes that may be empty (R94). -/
structure PanelCommand where
  cmd  : Byte
  data : List Byte
  deriving DecidableEq, Repr, Inhabited

/-- The OPEN implementation parameters (R8 to R12). The constraints the spec states are built in:
`1 <= CHUNK_MAX <= 524287` (R8) because `CHUNK_MAX` is `chunkMaxPred + 1`, and
`RST_LEVELS[0] = RST_LEVELS[2] != RST_LEVELS[1]` (R145) because one level gives all three.
DEDUCED: an entry of `initTable` has the length it declares (R10) because its data list is its only
length (log 14). -/
structure Params where
  /-- `CHUNK_MAX - 1` (R8). -/
  chunkMaxPred    : Fin 524287
  /-- `CMD_DATA_START` (R9). -/
  cmdDataStart    : PanelCommand
  /-- `CMD_POWER_ON` (R9). -/
  cmdPowerOn      : PanelCommand
  /-- `CMD_REFRESH` (R9). -/
  cmdRefresh      : PanelCommand
  /-- `CMD_POWER_OFF` (R9). -/
  cmdPowerOff     : PanelCommand
  /-- `INIT_TABLE` (R10). -/
  initTable       : List PanelCommand
  /-- `T_RST[0]`, in milliseconds (R11). -/
  tRst0           : Nat
  /-- `T_RST[1]`, in milliseconds (R11). -/
  tRst1           : Nat
  /-- `T_RST[2]`, in milliseconds (R11). -/
  tRst2           : Nat
  /-- `POLL_INTERVAL`, in milliseconds (R11). -/
  pollInterval    : Nat
  /-- `RST_LEVELS[0]` and `RST_LEVELS[2]` (R12, R145). -/
  rstOuter        : Bool
  /-- `BUSY_ACTIVE_LEVEL`: the level of the busy pin that means busy (R12). -/
  busyActiveLevel : Bool
  deriving DecidableEq, Repr, Inhabited

/-- `CHUNK_MAX` (R8). -/
def Params.chunkMax (p : Params) : Nat := p.chunkMaxPred.val + 1

/-- `RST_LEVELS[1]`, the opposite of the other two (R145). -/
def Params.rstInner (p : Params) : Bool := !p.rstOuter

/-- The parameters of the machine that `State.reset` describes: the spec gives no value, so the model
gives none (log 1). -/
opaque Config.params : Params

/-- `WIDTH` (R6). -/
abbrev Config.width : Nat := 800
/-- `HEIGHT` (R6). -/
abbrev Config.height : Nat := 480
/-- `NPIX` (R6). -/
abbrev Config.npix : Nat := 384000
/-- `NBYTES` (R6). -/
abbrev Config.nbytes : Nat := 192000
/-- `N_NODES` (R7, D37). -/
abbrev Config.nNodes : Nat := 40

end Sys2Proof
end

