-- ==== Sys2Proof/Machine/State.lean ====
section
/-! DEFINITION. The state of the block (R20, R37), what stands at its ports (R41, R42), the reasons a step can stop,
and the state right after reset (R46). All of it is plain data. -/

namespace Sys2Proof.Machine

/-- The panel driver's state (R24). Codes 5 to 7 are never held, so a five-value type is used (X7). -/
inductive SeqState where
  | uninitialized
  | configured
  | frameOpen
  | frameClosed
  | poweredOff
  deriving DecidableEq, Repr

/-- The nine causes an operation can fail with (R220, codes 1 to 9). -/
inductive ErrCode where
  | illegalOp
  | badCount
  | oddLength
  | invalidColor
  | illegalState
  | panelUnpowered
  | frameOverrun
  | genNotSeeded
  | genOverrun
  deriving DecidableEq, Repr

/-- The status an operation ends with (R220): `OK` or a failure. -/
inductive Status where
  | ok
  | err (code : ErrCode)
  deriving DecidableEq, Repr

/-- One item of the `res` port: a status and a 32-bit value (R98). -/
structure Result where
  status : Status
  value  : Word
  deriving DecidableEq, Repr

/-- One event of the panel-side trace (R74). -/
inductive Event where
  /-- `PWR(b)`: the power-enable line is driven to `b` (R73). -/
  | pwr (b : Bool)
  /-- `RST(b)`: the reset line is driven to `b` (R73). -/
  | rst (b : Bool)
  /-- `DELAY(ms)` (R73). -/
  | delay (ms : Nat)
  /-- `CMD(c)`: a command byte (R70). -/
  | cmd (c : Byte)
  /-- `DATA(d)`: a run of data bytes (R70, R71). -/
  | data (d : List Byte)
  /-- `POLL(b)`: the busy line was sampled and read `b` (R72). -/
  | poll (b : Bool)
  /-- `LOG_LONGWAIT` (R143). -/
  | logLongwait
  deriving DecidableEq, Repr

/-- An entry of the node table: the four fields of rule R33, which are 27 bits together. DESIGN CHOICE: R20 and R60
give an entry 26 bits; the model follows the fields, R33 being the rule R20's row names for the entry (log 19). The ranges
R33 gives the fields fit 26 bits, so a written table is 40 entries of 26 bits too (`node_table_is_40_entries_of_26_bits`). -/
structure Node where
  x       : BitVec 10
  y       : BitVec 9
  primary : BitVec 4
  alt     : BitVec 4
  deriving DecidableEq, Repr

/-- The five draws for one node, in the order they are taken (R95). Their types hold the bounds (R68). -/
structure DrawTuple where
  dx : Fin 800
  dy : Fin 480
  dp : Fin 6
  dc : Fin 2
  da : Fin 6
  deriving DecidableEq, Repr

/-- The steps of a running `INIT` (R144). -/
inductive InitStep where
  | i0 | i1 | i2 | i3 | i4 | i5 | i6
  deriving DecidableEq, Repr

/-- The steps of a running `END_FRAME` (R150). -/
inductive EndStep where
  | e0 | e1 | e2 | e3 | e4 | e5 | e6 | e7
  deriving DecidableEq, Repr

/-- The transient state of an operation in flight (R37): which operation, the input items it has taken so
far, and for `INIT` and `END_FRAME` the step pointer `useq` (R22) and the count `k` of busy readings in
the present wait (R143). -/
inductive Running where
  /-- The word `w` has been taken and its operation is being carried out: it has not ended, has not waited, and has no
  step pointer. Between two steps this is seen only where reset falls inside the operation (R251, log 10). -/
  | begun      (w : Word)
  | pack       (n : Nat) (taken : List Pixel)
  | unpack     (m : Nat) (taken : List Byte)
  | sendChunk  (len : Nat) (taken : List Byte)
  | genScatter (taken : List Nat)
  | init       (useq : InitStep) (k : Nat)
  | endFrame   (useq : EndStep) (k : Nat)
  deriving DecidableEq, Repr

/-- The contents of `buf` (R30): the bytes that have a value, as address and byte pairs with strictly
rising addresses. An address that is not listed has no value (R46, R47, log 6). -/
abbrev Memory := List Host.Cell

/-- The whole state of the block and of its ports. -/
structure State where
  /-- The implementation parameters (R8 to R12, R40): written by nothing (log 1). -/
  params     : Params
  /-- `seq_state` (R24). -/
  seqState   : SeqState
  /-- `pwr_en`, the level on `panel_pwr` (R26, R42). -/
  pwrEn      : Bool
  /-- `rst`, the level on `panel_rst` (R27, R42). -/
  rst        : Bool
  /-- `bytes_sent`, 18 bits (R28). -/
  bytesSent  : BitVec 18
  /-- `buf_live` (R29). -/
  bufLive    : Bool
  /-- `buf` (R30). -/
  buf        : Memory
  /-- `LONGWAIT`, sticky (R31). -/
  longwait   : Bool
  /-- `SHORTFRAME`, sticky (R32). -/
  shortframe : Bool
  /-- The node table, entry 0 first; empty while no entry has a value (R33, R34, log 7). -/
  nodes      : List Node
  /-- `nodes_valid` (R34). -/
  nodesValid : Bool
  /-- `gen_cursor`, 19 bits (R35). -/
  genCursor  : BitVec 19
  /-- `ERR[1..9]`, sticky: bit `k - 1` is `ERR[k]` (R36). -/
  err        : BitVec 9
  /-- The operation in flight, if one is (R37). -/
  running    : Option Running
  /-- Port `op`: the words the host issues next, in order (R41, R75, log 9). -/
  opIn       : List Word
  /-- Port `pix_in`: the items the block has not taken yet (R41, R66). -/
  pixIn      : List Pixel
  /-- Port `byte_in`: the items the block has not taken yet (R41, R66). -/
  byteIn     : List Byte
  /-- Port `rng`: the draws the block has not taken yet, one item per draw (R41, R60, R68). An item answers whichever
  request takes it, with its remainder by the request's bound (log 5). -/
  rngIn      : List Nat
  /-- Port `panel_busy`: the logical answers to the coming polls, true for busy (R42, R72, log 4). -/
  busyIn     : List Bool
  /-- The reset input (R14, R250): none while no reset is on its way; some `n` when reset falls after `n` more actions
  of the block, wherever in an operation that is (R251, log 10). -/
  resetIn    : Option Nat
  /-- Port `res`: the results put since reset, oldest first (R41, R98). -/
  res        : List Result
  /-- Port `pix_out`: the pixels put since reset (R41, R67). -/
  pixOut     : List Pixel
  /-- Port `byte_out`: the bytes put since reset (R41, R67). -/
  byteOut    : List Byte
  /-- The panel-side trace since reset (R74). -/
  trace      : List Event
  deriving DecidableEq, Repr

/-- The reasons the model stops. Each is safe: it can only make a claim unprovable. No state that meets
`State.Inv` (Safety.lean) reaches one. -/
inductive Fault where
  /-- An access to a byte of `buf` at or above `CHUNK_MAX`, which does not exist (R61). Raised by
  `memWrite` and `memRead` with the first address that does not exist. Safe. -/
  | bufNoSuchByte (addr : Nat)
  /-- A read of a byte of `buf` that has no value (R30, R47). Raised by `memRead`. Safe. -/
  | bufNoValue (addr : Nat)
  /-- A pixel is asked of a node table in which fewer than two entries have a value (R34, R47, R184).
  Raised by `GEN_CHUNK` and `GEN_SEND`. Safe. -/
  | nodeNoValue
  deriving DecidableEq, Repr

/-- The reasons the model has no meaning for an instruction. -/
inductive Refusal where
  /-- The arm of `exec` has no meaning yet. Raised by `exec`'s refused arms only. Safe. -/
  | notModelled (mnemonic : String)
  deriving DecidableEq, Repr

/-- The machine right after reset (R46, R250 to R252): every stream, result and the trace empty, no
operation running, no reset on its way. The parameters are the opaque `Config.params` (log 1). -/
def State.reset : State where
  params     := Config.params
  seqState   := .uninitialized
  pwrEn      := false
  rst        := false
  bytesSent  := 0#18
  bufLive    := false
  buf        := []
  longwait   := false
  shortframe := false
  nodes      := []
  nodesValid := false
  genCursor  := 0#19
  err        := 0#9
  running    := none
  opIn       := []
  pixIn      := []
  byteIn     := []
  rngIn      := []
  busyIn     := []
  resetIn    := none
  res        := []
  pixOut     := []
  byteOut    := []
  trace      := []

end Sys2Proof.Machine
end

