-- ==== Sys2Proof/Machine/Flags.lean ====
section
/-! DEFINITION. The codes of states and statuses (R24, R220), the sticky error flags (R36) and the layout of the
`STATUS` register (R39). -/

namespace Sys2Proof.Machine

/-- The code of `seq_state` (R24). -/
def seqCode : SeqState → BitVec 3
  | .uninitialized => 0#3
  | .configured => 1#3
  | .frameOpen => 2#3
  | .frameClosed => 3#3
  | .poweredOff => 4#3

/-- The number `k` of a failure (R220). -/
def errNumber : ErrCode → Nat
  | .illegalOp => 1
  | .badCount => 2
  | .oddLength => 3
  | .invalidColor => 4
  | .illegalState => 5
  | .panelUnpowered => 6
  | .frameOverrun => 7
  | .genNotSeeded => 8
  | .genOverrun => 9

/-- The 4-bit status code on `res` (R220). -/
def statusCode : Status → BitVec 4
  | .ok => 0#4
  | .err c => BitVec.ofNat 4 (errNumber c)

/-- `ERR` with only the flag of `c` set: bit `k - 1` (R36). -/
def errBit (c : ErrCode) : BitVec 9 := BitVec.ofNat 9 (2 ^ (errNumber c - 1))

/-- `ERR[k] <- 1`, all other flags kept (R36, R224). -/
def setErr (c : ErrCode) (e : BitVec 9) : BitVec 9 := e ||| errBit c

/-- One bit of a register. -/
def bit (b : Bool) : BitVec 1 := BitVec.ofBool b

/-- `STATUS` (R39): from bit 31 down, reserved 31:26, `ERR` 25:17, reserved 16 and 15:9, `RST` 8,
`SHORTFRAME` 7, `LONGWAIT` 6, `NODES_VALID` 5, `BUF_LIVE` 4, `PWR_EN` 3, `SEQ_STATE` 2:0. -/
def statusReg (s : State) : Word :=
  0#6 ++ (s.err ++ (0#8 ++ (bit s.rst ++ (bit s.shortframe ++ (bit s.longwait ++
    (bit s.nodesValid ++ (bit s.bufLive ++ (bit s.pwrEn ++ seqCode s.seqState))))))))

end Sys2Proof.Machine
end

