-- ==== Sys2Proof/Machine/Operands.lean ====
section
/-! DEFINITION. The operands of operations (R21): the count's limits, the items taken from an input stream (R66) and the
control registers (R38). -/

namespace Sys2Proof.Machine

/-- The largest byte count of one chunk (R8, R97, D11). -/
abbrev byteLimit (s : State) : Nat := s.params.chunkMax

/-- The largest pixel count of one operation (R8, R97, D11). -/
abbrev pixelLimit (s : State) : Nat := 2 * s.params.chunkMax

/-- How many items an operation that needs `need` and has taken `taken` still takes (R66). -/
def missing {α : Type} (need : Nat) (taken : List α) : Nat := need - taken.length

/-- The items such an operation holds once it has taken what it still needs, in order, as far as the stream goes; the
items beyond its count stay (R66). -/
def payload {α : Type} (need : Nat) (taken stream : List α) : List α :=
  taken ++ stream.take (missing need taken)

/-- The value of control register `r`; register numbers above 2 are reserved (R38, R39, R211). -/
def controlReg (r : Nat) (s : State) : Option Word :=
  match r with
  | 0 => some (statusReg s)
  | 1 => some (s.bytesSent.setWidth 32)
  | 2 => some (s.genCursor.setWidth 32)
  | _ => none

end Sys2Proof.Machine
end

