-- ==== Sys2Proof/Machine/Ops.lean ====
section
/-! DEFINITION. The named operations every meaning is made of (R18): actions and plans, ending an operation, failing
(`raise`, R224), the transaction buffer (R61), the streams (R66, R67), the panel port (R70 to R73), the busy wait (R143),
taking an operation word (R75) and reset (R250). -/

namespace Sys2Proof.Machine

/-! ## Actions and plans -/

/-- One action of an operation: an assignment of its pseudocode, or one item, event or level at a port (R18). -/
abbrev Action := State → State

/-- The actions carried out one after the other (R76). -/
def perform (actions : List Action) (s : State) : State := actions.foldl (fun t a => a t) s

/-- What an operation does, up to its end or to the point where it waits: its actions in the order of its pseudocode.
Reset may fall before any of them (R80, R251). -/
abbrev Plan := Except Fault (List Action)

/-- A plan carried out whole. -/
def carryOut (p : Plan) (s : State) : Host.Outcome State Fault Refusal :=
  match p with
  | .ok actions => .next (perform actions s)
  | .error f => .fault f

/-- A plan carried out up to the reset that falls after its first `n` actions, or whole with that many fewer actions
to go before the reset (R80, R251, log 10). -/
def carryOutUntilReset (n : Nat) (p : Plan) (s : State) : Host.Outcome State Fault Refusal :=
  match p with
  | .ok actions => .next { perform (actions.take n) s with resetIn := some (n - actions.length) }
  | .error f => .fault f

/-- `complete(OK, v)`: the operation ends and its result appears on `res` (R18, R98). -/
def complete (v : Word) (s : State) : State :=
  { s with running := none, res := s.res ++ [⟨.ok, v⟩] }

/-- `raise S` (R224): the flag of the failure is set, the result `(k, 0)` is put, the operation ends.
Nothing else changes; there is no vector, no handler and nothing to return from (R226). -/
def raise (c : ErrCode) (s : State) : State :=
  { s with running := none, err := setErr c s.err, res := s.res ++ [⟨.err c, 0#32⟩] }

/-- The operation stands in flight as `r`: its step pointer moves, its count of busy readings grows, or it waits for
items (R22, R37, R66, R143). -/
def stand (r : Running) (s : State) : State := { s with running := some r }

/-! ## The transaction buffer (R30, R61) -/

/-- The byte at `a`, if it has a value (R47). -/
def Memory.read (a : Nat) : Memory → Option Byte
  | [] => none
  | (b, v) :: rest => if b = a then some v else Memory.read a rest

/-- `buf[a] <- v`, in the canonical form: addresses strictly rising. -/
def Memory.write (a : Nat) (v : Byte) : Memory → Memory
  | [] => [(a, v)]
  | (b, w) :: rest =>
    if a < b then (a, v) :: (b, w) :: rest
    else if a = b then (a, v) :: rest
    else (b, w) :: Memory.write a v rest

/-- `buf[a + i] <- v[i]` for every `i`, in order (R61). -/
def Memory.writeAll : Nat → List Byte → Memory → Memory
  | _, [], m => m
  | a, v :: vs, m => Memory.writeAll (a + 1) vs (Memory.write a v m)

/-- `buf[a], ..., buf[a + n - 1]` (R61). -/
def Memory.readAll : Nat → Nat → Memory → Except Fault (List Byte)
  | _, 0, _ => .ok []
  | a, n + 1, m =>
    match Memory.read a m with
    | none => .error (.bufNoValue a)
    | some v =>
      match Memory.readAll (a + 1) n m with
      | .error f => .error f
      | .ok vs => .ok (v :: vs)

/-- Whether every address of the list is at least `lo` and they rise strictly. -/
def Memory.risingFrom : Nat → Memory → Bool
  | _, [] => true
  | lo, (a, _) :: rest => decide (lo ≤ a) && Memory.risingFrom (a + 1) rest

/-- The canonical form: addresses strictly rising. What an unlisted address reads as is no value, so no
listed entry equals it. -/
def Memory.wf (m : Memory) : Bool := Memory.risingFrom 0 m

/-- Every listed address is below `n`. -/
def Memory.within (n : Nat) (m : Memory) : Bool := m.all (fun c => decide (c.1 < n))

/-- The writing of `MemWrite(a, n, v)`, for bytes that exist (R61). -/
def storeBuf (a : Nat) (v : List Byte) (s : State) : State := { s with buf := Memory.writeAll a v s.buf }

/-- `MemWrite(a, n, v)` with `n = len(v)` (R61): needs `a + n <= CHUNK_MAX`. That an access outside the buffer stops is
the model's choice (log 6). -/
def memWrite (a : Nat) (v : List Byte) (s : State) : Except Fault State :=
  if a + v.length ≤ s.params.chunkMax then .ok (storeBuf a v s)
  else .error (.bufNoSuchByte (max a s.params.chunkMax))

/-- `MemRead(a, n)` (R61): needs `a + n <= CHUNK_MAX`. -/
def memRead (a n : Nat) (s : State) : Except Fault (List Byte) :=
  if a + n ≤ s.params.chunkMax then Memory.readAll a n s.buf
  else .error (.bufNoSuchByte (max a s.params.chunkMax))

/-- `MemWrite(0, n, v)` and then `MemRead(0, n)`: the bytes that go on to the panel (R148, R193). -/
def throughBuf (v : List Byte) (s : State) : Except Fault (List Byte) :=
  match memWrite 0 v s with
  | .error f => .error f
  | .ok s' => memRead 0 v.length s'

/-! ## The streams (R66, R67) -/

/-- `n` times `PixIn()`, as far as the stream goes (R66). -/
def takePixels (n : Nat) (s : State) : State := { s with pixIn := s.pixIn.drop n }

/-- `n` times `ByteIn()`, as far as the stream goes (R66). -/
def takeBytes (n : Nat) (s : State) : State := { s with byteIn := s.byteIn.drop n }

/-- `n` times `RngDraw(bound)`, as far as the stream goes (R66, R68). -/
def takeDraws (n : Nat) (s : State) : State := { s with rngIn := s.rngIn.drop n }

/-- `PixOut(p)` (R67). -/
def givePixel (p : Pixel) (s : State) : State := { s with pixOut := s.pixOut ++ [p] }

/-- `ByteOut(b)` (R67). -/
def giveByte (b : Byte) (s : State) : State := { s with byteOut := s.byteOut ++ [b] }

/-! ## The panel port (R70 to R74) -/

/-- An event is added to the trace (R74). -/
def emit (e : Event) (s : State) : State := { s with trace := s.trace ++ [e] }

/-- The events of `PanelCmd(c, d)`: `CMD(c)`, then `DATA(d)` if `d` is not empty (R70). -/
def cmdEvents (c : PanelCommand) : List Event :=
  if c.data = [] then [.cmd c.cmd] else [.cmd c.cmd, .data c.data]

/-- `PanelCmd(c, d)` (R70, R141). -/
def panelCmd (c : PanelCommand) : List Action := (cmdEvents c).map emit

/-- `PanelData(d)`, for a chunk `d`: no event when the chunk is empty (R71, R148, R193). -/
def panelData (d : List Byte) : List Action := if d = [] then [] else [emit (.data d)]

/-- `Delay(ms)` (R73). -/
def delay (ms : Nat) : Action := emit (.delay ms)

/-- `pwr_en <- b; SetPwr(b)` (R26, R73): the event is recorded also when the level does not change. -/
def drivePwr (b : Bool) (s : State) : State := { s with pwrEn := b, trace := s.trace ++ [.pwr b] }

/-- `rst <- b; SetRst(b)` (R27, R73). -/
def driveRst (b : Bool) (s : State) : State := { s with rst := b, trace := s.trace ++ [.rst b] }

/-! ## The busy wait (R143) -/

/-- `PanelBusy()` with answer `b` (R72): one answer is taken, `POLL(b)` is recorded. -/
def poll (b : Bool) (s : State) : State :=
  { s with busyIn := s.busyIn.drop 1, trace := s.trace ++ [.poll b] }

/-- `LONGWAIT <- 1`, with its event (R31, R143). -/
def logLongwait (s : State) : State := { s with longwait := true, trace := s.trace ++ [.logLongwait] }

/-- `BusyWait()` over the panel's answers, after `k` busy readings: the loop of rule R143. `standing k` is the operation in
flight with the count `k`, and `after` is what the operation does once a reading is clear, given the answers that are
left. With the answers used up the operation waits. -/
def busyWait (standing : Nat → Running) (interval : Nat) (after : List Bool → List Action) :
    Nat → List Bool → List Action
  | k, [] => [stand (standing k)]
  | _, false :: rest => poll false :: after rest
  | k, true :: rest =>
    poll true :: stand (standing (k + 1)) ::
      ((if k + 1 = 2 then [logLongwait] else []) ++
        (delay interval :: busyWait standing interval after (k + 1) rest))

/-! ## Taking an operation word (R75) and reset (R250) -/

/-- The next word of the `op` port and the state with the word taken. -/
def fetch (s : State) : Option (Word × State) :=
  match s.opIn with
  | [] => none
  | w :: rest => some (w, { s with opIn := rest })

/-- The word `w` is taken and its operation is under way (R37, R75). -/
def takeWord (w : Word) (s : State) : State := { s with opIn := s.opIn.drop 1, running := some (.begun w) }

/-- Reset (R250 to R252): every field at its reset value, whatever runs; nothing is sent to the panel. The
parameters belong to the hardware and stay (R40). -/
def hardReset (s : State) : State := { State.reset with params := s.params }

end Sys2Proof.Machine
end

