-- ==== Sys2Proof/Machine/Codec.lean ====
section
/-! DEFINITION. PIXCODEC: the packing functions (R91, R92, R120) and `PACK` and `UNPACK` (spec/40_codec.md). -/

namespace Sys2Proof.Machine

/-- `ValidColor(v)` (R91). -/
def validColor (p : Pixel) : Bool := decide (p.toNat ≤ 6)

/-- `PackPair(a, b)`: the first pixel is the high nibble (R62, R92). -/
def packPair (a b : Pixel) : Byte := a ++ b

/-- `v[7:4]`, the first pixel of a packed byte (R92). -/
def highNibble (v : Byte) : Pixel := v.extractLsb' 4 4

/-- `v[3:0]`, the second pixel of a packed byte (R92). -/
def lowNibble (v : Byte) : Pixel := v.extractLsb' 0 4

/-- Both nibbles are Colors (R91, R92). -/
def validPacked (v : Byte) : Bool := validColor (highNibble v) && validColor (lowNibble v)

/-- `PackSeq` (R120). It is used on sequences of even length only. -/
def packSeq : List Pixel → List Byte
  | a :: b :: rest => packPair a b :: packSeq rest
  | _ => []

/-- `UnpackSeq` (R120). -/
def unpackSeq : List Byte → List Pixel
  | [] => []
  | v :: rest => highNibble v :: lowNibble v :: unpackSeq rest

/-- `PACK n` from the point where it has taken `taken` (R66, R121): it takes what the stream holds and
ends, or waits for the rest. -/
def packFrom (n : Nat) (taken : List Pixel) (s : State) : List Action :=
  let p := payload n taken s.pixIn
  takePixels (missing n taken) ::
    (if p.length < n then [stand (.pack n p)]
    else if p.all validColor then (packSeq p).map giveByte ++ [complete 0#32]
    else [raise .invalidColor])

/-- `PACK n` (R121). -/
def planPack (n : Nat) (s : State) : Plan :=
  .ok (if n > pixelLimit s then [raise .badCount]
    else if n % 2 = 1 then [raise .oddLength]
    else packFrom n [] s)

/-- `PACK n` (R121), carried out. -/
def execPack (n : Nat) (s : State) : Host.Outcome State Fault Refusal := carryOut (planPack n s) s

/-- `UNPACK m` from the point where it has taken `taken` (R66, R123). -/
def unpackFrom (m : Nat) (taken : List Byte) (s : State) : List Action :=
  let b := payload m taken s.byteIn
  takeBytes (missing m taken) ::
    (if b.length < m then [stand (.unpack m b)]
    else if b.all validPacked then (unpackSeq b).map givePixel ++ [complete 0#32]
    else [raise .invalidColor])

/-- `UNPACK m` (R123). -/
def planUnpack (m : Nat) (s : State) : Plan :=
  .ok (if m > byteLimit s then [raise .badCount] else unpackFrom m [] s)

/-- `UNPACK m` (R123), carried out. -/
def execUnpack (m : Nat) (s : State) : Host.Outcome State Fault Refusal := carryOut (planUnpack m s) s

end Sys2Proof.Machine
end

