-- ==== Sys2Proof/Machine/Sequencer.lean ====
section
/-! DEFINITION. EPDSEQ: the panel command sequencer, `INIT`, `BEGIN_FRAME`, `SEND_CHUNK`, `END_FRAME` and `TURN_OFF`
(spec/41_sequencer.md). The steps of `INIT` and `END_FRAME` are one definition each, so that an operation in flight
goes on from any of them (R22, R37). -/

namespace Sys2Proof.Machine

/-- `seq_state <- q` (R24). -/
def enter (q : SeqState) (s : State) : State := { s with seqState := q }

/-- `buf_live <- b` (R29). -/
def setBufLive (b : Bool) (s : State) : State := { s with bufLive := b }

/-! ## INIT (R144): `p` are the parameters, `answers` the panel's answers to the coming polls -/

/-- I6: `seq_state <- Configured`, and the operation ends. -/
def initI6 : List Action := [stand (.init .i6 0), enter .configured, complete 0#32]

/-- I5: the register writes of `INIT_TABLE`, in order, with no wait between them. -/
def initI5 (p : Params) : List Action := stand (.init .i5 0) :: (p.initTable.flatMap panelCmd ++ initI6)

/-- I4: the one busy wait, after `k` busy readings. -/
def initI4 (p : Params) (k : Nat) (answers : List Bool) : List Action :=
  stand (.init .i4 k) :: busyWait (.init .i4) p.pollInterval (fun _ => initI5 p) k answers

/-- I3: the third reset level and its delay. -/
def initI3 (p : Params) (answers : List Bool) : List Action :=
  stand (.init .i3 0) :: driveRst p.rstOuter :: delay p.tRst2 :: initI4 p 0 answers

/-- I2: the second reset level and its delay. -/
def initI2 (p : Params) (answers : List Bool) : List Action :=
  stand (.init .i2 0) :: driveRst p.rstInner :: delay p.tRst1 :: initI3 p answers

/-- I1: the first reset level and its delay. -/
def initI1 (p : Params) (answers : List Bool) : List Action :=
  stand (.init .i1 0) :: driveRst p.rstOuter :: delay p.tRst0 :: initI2 p answers

/-- I0: the panel is powered. -/
def initI0 (p : Params) (answers : List Bool) : List Action :=
  stand (.init .i0 0) :: drivePwr true :: initI1 p answers

/-- `INIT` from the step `useq`, with `k` busy readings in the present wait (R37, R144). -/
def initFrom (useq : InitStep) (k : Nat) (s : State) : List Action :=
  match useq with
  | .i0 => initI0 s.params s.busyIn
  | .i1 => initI1 s.params s.busyIn
  | .i2 => initI2 s.params s.busyIn
  | .i3 => initI3 s.params s.busyIn
  | .i4 => initI4 s.params k s.busyIn
  | .i5 => initI5 s.params
  | .i6 => initI6

/-- `INIT` (R144). -/
def planInit (count : Nat) (s : State) : Plan :=
  .ok (if count ≠ 0 then [raise .badCount]
    else if s.seqState = .frameOpen then [raise .illegalState]
    else initFrom .i0 0 s)

/-- `INIT` (R144), carried out. -/
def execInit (count : Nat) (s : State) : Host.Outcome State Fault Refusal := carryOut (planInit count s) s

/-! ## BEGIN_FRAME (R147) -/

/-- `bytes_sent <- 0` (R28). -/
def clearBytesSent (s : State) : State := { s with bytesSent := 0#18 }

/-- `BEGIN_FRAME` (R147). -/
def planBeginFrame (count : Nat) (s : State) : Plan :=
  .ok (if count ≠ 0 then [raise .badCount]
    else if s.seqState ≠ .configured ∧ s.seqState ≠ .poweredOff then [raise .illegalState]
    else if s.pwrEn = false then [raise .panelUnpowered]
    else panelCmd s.params.cmdDataStart ++
      [setBufLive true, clearBytesSent, enter .frameOpen, complete 0#32])

/-- `BEGIN_FRAME` (R147), carried out. -/
def execBeginFrame (count : Nat) (s : State) : Host.Outcome State Fault Refusal :=
  carryOut (planBeginFrame count s) s

/-! ## SEND_CHUNK (R148) -/

/-- `bytes_sent <- bytes_sent + n` (R28). -/
def addBytesSent (n : Nat) (s : State) : State :=
  { s with bytesSent := BitVec.ofNat 18 (s.bytesSent.toNat + n) }

/-- The end of `SEND_CHUNK` once its bytes `v` are taken (R148): they are loaded into `buf`, checked whole,
and only then sent (R77). -/
def sendChunk (v : List Byte) (s : State) : Plan :=
  match throughBuf v s with
  | .error f => .error f
  | .ok d =>
    .ok (storeBuf 0 v ::
      (if d.all validPacked then panelData d ++ [addBytesSent v.length, complete 0#32]
      else [raise .invalidColor]))

/-- `SEND_CHUNK L` from the point where it has taken `taken` (R66, R148). -/
def sendChunkFrom (len : Nat) (taken : List Byte) (s : State) : Plan :=
  let v := payload len taken s.byteIn
  if v.length < len then .ok [takeBytes (missing len taken), stand (.sendChunk len v)]
  else (sendChunk v s).map (fun actions => takeBytes (missing len taken) :: actions)

/-- `SEND_CHUNK L` (R148). -/
def planSendChunk (len : Nat) (s : State) : Plan :=
  if len > byteLimit s then .ok [raise .badCount]
  else if s.seqState ≠ .frameOpen then .ok [raise .illegalState]
  else if s.bytesSent.toNat + len > Config.nbytes then .ok [raise .frameOverrun]
  else sendChunkFrom len [] s

/-- `SEND_CHUNK L` (R148), carried out. -/
def execSendChunk (len : Nat) (s : State) : Host.Outcome State Fault Refusal :=
  carryOut (planSendChunk len s) s

/-! ## END_FRAME (R150): `p` are the parameters, `answers` the panel's answers to the coming polls -/

/-- E7: the buffer is freed, `seq_state <- PoweredOff`, and the operation ends. -/
def endE7 : List Action :=
  [stand (.endFrame .e7 0), setBufLive false, enter .poweredOff, complete 0#32]

/-- E6: the wait after the power-off command. -/
def endE6 (p : Params) (k : Nat) (answers : List Bool) : List Action :=
  stand (.endFrame .e6 k) :: busyWait (.endFrame .e6) p.pollInterval (fun _ => endE7) k answers

/-- E5: the power-off command. -/
def endE5 (p : Params) (answers : List Bool) : List Action :=
  stand (.endFrame .e5 0) :: (panelCmd p.cmdPowerOff ++ endE6 p 0 answers)

/-- E4: the wait after the refresh command. -/
def endE4 (p : Params) (k : Nat) (answers : List Bool) : List Action :=
  stand (.endFrame .e4 k) :: busyWait (.endFrame .e4) p.pollInterval (endE5 p) k answers

/-- E3: the refresh command. -/
def endE3 (p : Params) (answers : List Bool) : List Action :=
  stand (.endFrame .e3 0) :: (panelCmd p.cmdRefresh ++ endE4 p 0 answers)

/-- E2: the wait after the power-on command. -/
def endE2 (p : Params) (k : Nat) (answers : List Bool) : List Action :=
  stand (.endFrame .e2 k) :: busyWait (.endFrame .e2) p.pollInterval (endE3 p) k answers

/-- E1: the power-on command. -/
def endE1 (p : Params) (answers : List Bool) : List Action :=
  stand (.endFrame .e1 0) :: (panelCmd p.cmdPowerOn ++ endE2 p 0 answers)

/-- E0: `seq_state <- FrameClosed`. -/
def endE0 (p : Params) (answers : List Bool) : List Action :=
  stand (.endFrame .e0 0) :: enter .frameClosed :: endE1 p answers

/-- `END_FRAME` from the step `useq`, with `k` busy readings in the present wait (R37, R150). -/
def endFrameFrom (useq : EndStep) (k : Nat) (s : State) : List Action :=
  match useq with
  | .e0 => endE0 s.params s.busyIn
  | .e1 => endE1 s.params s.busyIn
  | .e2 => endE2 s.params k s.busyIn
  | .e3 => endE3 s.params s.busyIn
  | .e4 => endE4 s.params k s.busyIn
  | .e5 => endE5 s.params s.busyIn
  | .e6 => endE6 s.params k s.busyIn
  | .e7 => endE7

/-- `if bytes_sent != NBYTES: SHORTFRAME <- 1` (R32, R150). -/
def markShortFrame (s : State) : State :=
  { s with shortframe := s.shortframe || decide (s.bytesSent.toNat ≠ Config.nbytes) }

/-- `END_FRAME` (R150). -/
def planEndFrame (count : Nat) (s : State) : Plan :=
  .ok (if count ≠ 0 then [raise .badCount]
    else if s.seqState ≠ .frameOpen then [raise .illegalState]
    else markShortFrame :: endFrameFrom .e0 0 s)

/-- `END_FRAME` (R150), carried out. -/
def execEndFrame (count : Nat) (s : State) : Host.Outcome State Fault Refusal :=
  carryOut (planEndFrame count s) s

/-! ## TURN_OFF (R152) -/

/-- `TURN_OFF` (R152). -/
def planTurnOff (count : Nat) : Plan :=
  .ok (if count ≠ 0 then [raise .badCount]
    else [drivePwr false, setBufLive false, enter .poweredOff, complete 0#32])

/-- `TURN_OFF` (R152), carried out. -/
def execTurnOff (count : Nat) (s : State) : Host.Outcome State Fault Refusal := carryOut (planTurnOff count) s

end Sys2Proof.Machine
end

