-- ==== Sys2Proof/Machine/System.lean ====
section
/-! DEFINITION. The system operations `NOP` and `RD_REG` (spec/43_system.md). -/

namespace Sys2Proof.Machine

/-- `NOP` (R210). -/
def planNop (count : Nat) : Plan :=
  .ok (if count ≠ 0 then [raise .badCount] else [complete 0#32])

/-- `NOP` (R210), carried out. -/
def execNop (count : Nat) (s : State) : Host.Outcome State Fault Refusal := carryOut (planNop count) s

/-- `RD_REG r` (R211): the value is that of the state before the operation ends. -/
def planRdReg (r : Nat) (s : State) : Plan :=
  .ok (match controlReg r s with
    | none => [raise .badCount]
    | some v => [complete v])

/-- `RD_REG r` (R211), carried out. -/
def execRdReg (r : Nat) (s : State) : Host.Outcome State Fault Refusal := carryOut (planRdReg r s) s

end Sys2Proof.Machine
end

