-- ==== Sys2Proof/Machine/Vorgen.lean ====
section
/-! DEFINITION. VORGEN: the pattern function `VorPixel` (R181 to R191) and `GEN_SCATTER`, `GEN_CHUNK` and `GEN_SEND`
(spec/42_vorgen.md). Distances are mathematical integers (R190). -/

namespace Sys2Proof.Machine

/-- `PALETTE[i] = i + 1` (R181). -/
def palette (i : Fin 6) : BitVec 4 := BitVec.ofNat 4 (i.val + 1)

/-- The node that one draw tuple gives (R182). -/
def nodeOfDraws (d : DrawTuple) : Node where
  x       := BitVec.ofNat 10 d.dx.val
  y       := BitVec.ofNat 9 d.dy.val
  primary := palette d.dp
  alt     := if d.dc.val = 1 then palette d.da else palette d.dp

/-- The square of an integer. -/
def square (a : Int) : Int := a * a

/-- `Dist2(x, y, i)` for the node `nd = node[i]` (R183). -/
def dist2 (x y : Nat) (nd : Node) : Int :=
  square ((x : Int) - (nd.x.toNat : Int)) + square ((y : Int) - (nd.y.toNat : Int))

/-- `|D|^2` for the points of two nodes (R186). -/
def nodeDist2 (a b : Node) : Int :=
  square ((b.x.toNat : Int) - (a.x.toNat : Int)) + square ((b.y.toNat : Int) - (a.y.toNat : Int))

/-- A candidate of the scan: a node, its index and its squared distance (R184). -/
structure Near where
  idx  : Nat
  dist : Int
  node : Node
  deriving DecidableEq, Repr

/-- The scan's variables: `i1, d1` and `i2, d2`, each absent until it is set (R184). -/
structure Scan where
  first  : Option Near
  second : Option Near
  deriving DecidableEq, Repr

/-- One turn of the scan (R184). Both comparisons are strict: the earlier node wins a tie. -/
def scanOne (c : Near) (a : Scan) : Scan :=
  match a.first with
  | none => { first := some c, second := none }
  | some n1 =>
    if c.dist < n1.dist then { first := some c, second := some n1 }
    else
      match a.second with
      | none => { first := some n1, second := some c }
      | some n2 => if c.dist < n2.dist then { first := some n1, second := some c } else a

/-- The scan over the entries from index `i` on (R184). -/
def scanFrom (x y : Nat) : Nat → List Node → Scan → Scan
  | _, [], a => a
  | i, nd :: rest, a => scanFrom x y (i + 1) rest (scanOne ⟨i, dist2 x y nd, nd⟩ a)

/-- `TwoNearest(x, y)` (R184); none when fewer than two entries have a value. -/
def twoNearest (nodes : List Node) (x y : Nat) : Option (Near × Near) :=
  let a := scanFrom x y 0 nodes { first := none, second := none }
  match a.first, a.second with
  | some n1, some n2 => some (n1, n2)
  | _, _ => none

/-- The border test `t * t < 4 * dd` (R186, R191). -/
def isBorder (n1 n2 : Near) : Bool :=
  decide (square (n2.dist - n1.dist) < 4 * nodeDist2 n1.node n2.node)

/-- The fill: the nearest node's primary colour where `x + y` is even, its alternate where odd (R187). -/
def fillColor (x y : Nat) (nd : Node) : Pixel :=
  if (x + y) % 2 = 0 then nd.primary else nd.alt

/-- `VorPixel(x, y)` (R188). The border overrides the fill with black, code 0. -/
def vorPixel (nodes : List Node) (x y : Nat) : Option Pixel :=
  match twoNearest nodes x y with
  | none => none
  | some (n1, n2) => some (if isBorder n1 n2 then 0#4 else fillColor x y n1.node)

/-- The pixel of row-major index `k` (R64, R192). -/
def framePixel (nodes : List Node) (k : Nat) : Option Pixel :=
  vorPixel nodes (k % Config.width) (k / Config.width)

/-- The pixels of indices `k` to `k + n - 1` (R192, R193). -/
def genPixels (nodes : List Node) : Nat → Nat → Option (List Pixel)
  | _, 0 => some []
  | k, n + 1 =>
    match framePixel nodes k, genPixels nodes (k + 1) n with
    | some p, some ps => some (p :: ps)
    | _, _ => none

/-! ## GEN_SCATTER (R182) -/

/-- The draws, five for a node (R95). Each answers its request: it is taken as its remainder by the request's bound
(R68, log 5). -/
def drawTuples : List Nat → List DrawTuple
  | dx :: dy :: dp :: dc :: da :: rest =>
    { dx := Fin.ofNat 800 dx, dy := Fin.ofNat 480 dy, dp := Fin.ofNat 6 dp, dc := Fin.ofNat 2 dc,
      da := Fin.ofNat 6 da } :: drawTuples rest
  | _ => []

/-- The whole node table is written and the generator rewound (R182). -/
def seed (nodes : List Node) (s : State) : State :=
  { s with nodes := nodes, nodesValid := true, genCursor := 0#19 }

/-- `GEN_SCATTER` from the point where it has taken `taken` (R66, R182, R232): it takes its draws before it writes. -/
def scatterFrom (taken : List Nat) (s : State) : List Action :=
  let d := payload (5 * Config.nNodes) taken s.rngIn
  takeDraws (missing (5 * Config.nNodes) taken) ::
    (if d.length < 5 * Config.nNodes then [stand (.genScatter d)]
    else [seed ((drawTuples d).map nodeOfDraws), complete 0#32])

/-- `GEN_SCATTER` (R182). -/
def planGenScatter (count : Nat) (s : State) : Plan :=
  .ok (if count ≠ 0 then [raise .badCount] else scatterFrom [] s)

/-- `GEN_SCATTER` (R182), carried out. -/
def execGenScatter (count : Nat) (s : State) : Host.Outcome State Fault Refusal :=
  carryOut (planGenScatter count s) s

/-! ## GEN_CHUNK and GEN_SEND (R192, R193) -/

/-- `gen_cursor <- gen_cursor + n` (R35). -/
def advanceCursor (n : Nat) (s : State) : State :=
  { s with genCursor := BitVec.ofNat 19 (s.genCursor.toNat + n) }

/-- `GEN_CHUNK n` (R192). -/
def planGenChunk (n : Nat) (s : State) : Plan :=
  if n > pixelLimit s then .ok [raise .badCount]
  else if n % 2 = 1 then .ok [raise .oddLength]
  else if s.nodesValid = false then .ok [raise .genNotSeeded]
  else if s.genCursor.toNat + n > Config.npix then .ok [raise .genOverrun]
  else
    match genPixels s.nodes s.genCursor.toNat n with
    | none => .error .nodeNoValue
    | some p => .ok (p.map givePixel ++ [advanceCursor n, complete 0#32])

/-- `GEN_CHUNK n` (R192), carried out. -/
def execGenChunk (n : Nat) (s : State) : Host.Outcome State Fault Refusal := carryOut (planGenChunk n s) s

/-- The packed bytes `b` of a generated chunk go through `buf` to the panel (R193). -/
def sendGenerated (b : List Byte) (s : State) : Plan :=
  match throughBuf b s with
  | .error f => .error f
  | .ok d =>
    .ok (storeBuf 0 b ::
      (panelData d ++ [advanceCursor (2 * b.length), addBytesSent b.length, complete 0#32]))

/-- `GEN_SEND L` (R193). -/
def planGenSend (len : Nat) (s : State) : Plan :=
  if len > byteLimit s then .ok [raise .badCount]
  else if s.seqState ≠ .frameOpen then .ok [raise .illegalState]
  else if s.nodesValid = false then .ok [raise .genNotSeeded]
  else if s.genCursor.toNat + 2 * len > Config.npix then .ok [raise .genOverrun]
  else if s.bytesSent.toNat + len > Config.nbytes then .ok [raise .frameOverrun]
  else
    match genPixels s.nodes s.genCursor.toNat (2 * len) with
    | none => .error .nodeNoValue
    | some p => sendGenerated (packSeq p) s

/-- `GEN_SEND L` (R193), carried out. -/
def execGenSend (len : Nat) (s : State) : Host.Outcome State Fault Refusal := carryOut (planGenSend len s) s

end Sys2Proof.Machine
end

