-- ==== Sys2Proof/Machine/Dispatch.lean ====
section
/-! DEFINITION. The meaning of each operation, one arm per constructor. -/

namespace Sys2Proof.Machine

def exec (i : Instr) (s : State) : Host.Outcome State Fault Refusal :=
  match i with
  | .nop count => Sys2Proof.Machine.execNop count s
  | .rdReg r => Sys2Proof.Machine.execRdReg r s
  | .pack n => Sys2Proof.Machine.execPack n s
  | .unpack m => Sys2Proof.Machine.execUnpack m s
  | .init count => Sys2Proof.Machine.execInit count s
  | .beginFrame count => Sys2Proof.Machine.execBeginFrame count s
  | .sendChunk len => Sys2Proof.Machine.execSendChunk len s
  | .endFrame count => Sys2Proof.Machine.execEndFrame count s
  | .turnOff count => Sys2Proof.Machine.execTurnOff count s
  | .genScatter count => Sys2Proof.Machine.execGenScatter count s
  | .genChunk n => Sys2Proof.Machine.execGenChunk n s
  | .genSend len => Sys2Proof.Machine.execGenSend len s

end Sys2Proof.Machine
end

