-- ==== Sys2Proof/Machine/Resume.lean ====
section
/-! DEFINITION. Going on with the operation in flight (R37, R66, R143): with what has since arrived at its port, it ends,
gets further, or keeps waiting (R232, R233). The checks of rule R222 were made when it was accepted and are not made
again (log 11). -/

namespace Sys2Proof.Machine

/-- What the operation in flight `r` does next. An operation cut by reset does nothing more (R251). -/
def planResume (r : Running) (s : State) : Plan :=
  match r with
  | .begun w => .ok [stand (.begun w)]
  | .pack n taken => .ok (packFrom n taken s)
  | .unpack m taken => .ok (unpackFrom m taken s)
  | .sendChunk len taken => sendChunkFrom len taken s
  | .genScatter taken => .ok (scatterFrom taken s)
  | .init useq k => .ok (initFrom useq k s)
  | .endFrame useq k => .ok (endFrameFrom useq k s)

/-- One step of the operation in flight `r`. -/
def resume (r : Running) (s : State) : Host.Outcome State Fault Refusal := carryOut (planResume r s) s

end Sys2Proof.Machine
end

