-- ==== Sys2Proof/Machine/Issue.lean ====
section
/-! DEFINITION. Taking the next operation word and running it (R75, R100), whole or up to a reset (R251). -/

namespace Sys2Proof.Machine

/-- The operation that the word `w` decodes to runs; a word that is none ends `IllegalOp` (R100). -/
def runWord (w : Word) (s : State) : Host.Outcome State Fault Refusal :=
  match decode w with
  | .ok i => exec i s
  | .error _ => .next (raise .illegalOp s)

/-- With no operation in flight: the next word is taken and run; with no word at the port the block waits
and nothing changes (R251, log 3). -/
def issue (s : State) : Host.Outcome State Fault Refusal :=
  match fetch s with
  | none => .next s
  | some (w, s') => runWord w s'

/-- The actions of each operation, which `exec` carries out whole. -/
def planOf (i : Instr) (s : State) : Plan :=
  match i with
  | .nop count => planNop count
  | .rdReg r => planRdReg r s
  | .pack n => planPack n s
  | .unpack m => planUnpack m s
  | .init count => planInit count s
  | .beginFrame count => planBeginFrame count s
  | .sendChunk len => planSendChunk len s
  | .endFrame count => planEndFrame count s
  | .turnOff count => planTurnOff count
  | .genScatter count => planGenScatter count s
  | .genChunk n => planGenChunk n s
  | .genSend len => planGenSend len s

/-- The actions of the operation word `w` (R100). -/
def planWord (w : Word) (s : State) : Plan :=
  match decode w with
  | .ok i => planOf i s
  | .error _ => .ok [raise .illegalOp]

/-- The actions of the block's next step, one by one: those of the operation in flight, or the taking of the next word
and those of its operation; a block with nothing to do waits. -/
def planStep (s : State) : Plan :=
  match s.running with
  | some r => planResume r s
  | none =>
    match fetch s with
    | none => .ok [id]
    | some (w, s') => (planWord w s').map (fun actions => takeWord w :: actions)

/-- The state in which the host issues the word `w` next: no operation is in flight, no reset is on its way, and the
word stands first at the `op` port (log 9). -/
def placeWord (w : Word) (s : State) : State :=
  { s with running := none, resetIn := none, opIn := w :: s.opIn }

end Sys2Proof.Machine
end

