-- ==== Sys2Proof/Machine/Step.lean ====
section
/-! DEFINITION. One step of the block: it goes on with the operation in flight, or takes and runs the next operation word
(R75, log 2, log 3); where the reset input falls, the step goes up to it, and the next step is the reset (R251, log 10). -/

namespace Sys2Proof.Machine

/-- One step of the machine. -/
def step (s : State) : Host.Outcome State Fault Refusal :=
  match s.resetIn with
  | some 0 => .next (hardReset s)
  | some (n + 1) => carryOutUntilReset (n + 1) (planStep s) s
  | none =>
    match s.running with
    | some r => resume r s
    | none => issue s

/-- The state in which the word of an opcode-table row is the next one the block takes (log 9). -/
def State.withFetchWord (s : State) (nbits w : Nat) : State :=
  placeWord (tableWord nbits w) s

end Sys2Proof.Machine
end

