-- ==== Sys2Proof/Machine/Macros.lean ====
section
/-! DEFINITION. Assembler lines and macros (R103, R104): names for operation words and for sequences of them. They add
nothing to the block. -/

namespace Sys2Proof.Machine

/-- The mnemonic (R99). -/
def mnemonic : Instr → String
  | .nop _ => "NOP"
  | .rdReg _ => "RD_REG"
  | .pack _ => "PACK"
  | .unpack _ => "UNPACK"
  | .init _ => "INIT"
  | .beginFrame _ => "BEGIN_FRAME"
  | .sendChunk _ => "SEND_CHUNK"
  | .endFrame _ => "END_FRAME"
  | .turnOff _ => "TURN_OFF"
  | .genScatter _ => "GEN_SCATTER"
  | .genChunk _ => "GEN_CHUNK"
  | .genSend _ => "GEN_SEND"

/-- Whether the operation has a count to write (R97, R103). -/
def hasCount : Instr → Bool
  | .nop _ => false
  | .rdReg _ => true
  | .pack _ => true
  | .unpack _ => true
  | .init _ => false
  | .beginFrame _ => false
  | .sendChunk _ => true
  | .endFrame _ => false
  | .turnOff _ => false
  | .genScatter _ => false
  | .genChunk _ => true
  | .genSend _ => true

/-- The assembler line of an operation: the mnemonic, then the count in decimal when the operation has one
(R103). -/
def asmLine (i : Instr) : String :=
  if hasCount i then mnemonic i ++ " " ++ toString i.count else mnemonic i

/-- The chunk operations of a whole frame in chunks of `c` bytes: `NBYTES div c` of them and a short last
one if `c` does not divide (R104). -/
def frameChunks (op : Nat → Instr) (c : Nat) : List Instr :=
  List.replicate (Config.nbytes / c) (op c) ++
    (if Config.nbytes % c > 0 then [op (Config.nbytes % c)] else [])

/-- `SEND_FRAME C` (R104). -/
def sendFrame (c : Nat) : List Instr :=
  [.beginFrame 0] ++ frameChunks .sendChunk c ++ [.endFrame 0]

/-- `GEN_FRAME C` (R104). -/
def genFrame (c : Nat) : List Instr :=
  [.genScatter 0, .beginFrame 0] ++ frameChunks .genSend c ++ [.endFrame 0]

/-- `RENDER_LIVE C` (R104). -/
def renderLive (c : Nat) : List Instr := [.init 0] ++ sendFrame c ++ [.turnOff 0]

/-- `RENDER_FALLBACK C` (R104). -/
def renderFallback (c : Nat) : List Instr := genFrame c ++ [.turnOff 0]

end Sys2Proof.Machine
end

