-- ==== Sys2Proof/Machine/Ports.lean ====
section
/-! DEFINITION. What the outside does to the block (R14, R41, R42, R264): it supplies items at the input ports and it
resets. Any of these may come between two steps, so also while an operation is in flight; a reset may also fall inside a
step, at a moment counted in actions of the block. The moves of rules R257 and
X11, X12 that have no defined result do not exist here. -/

namespace Sys2Proof.Machine

/-- One move of the host, the random source, the panel or the reset input. -/
inductive Input where
  /-- The host adds a word to those it issues, one when the block is idle (R41, R75). -/
  | opWord (w : Word)
  /-- The host supplies a pixel on `pix_in` (R66). -/
  | pixel (p : Pixel)
  /-- The host supplies a byte on `byte_in` (R66). -/
  | byte (b : Byte)
  /-- The random source answers one request: with bound `b` the answer is `v % b` (R68, log 5). -/
  | draw (v : Nat)
  /-- The busy pin has this electrical level at the next poll (R12, R72). -/
  | busyPin (level : Bool)
  /-- Reset, now (R250). -/
  | reset
  /-- Reset, after `n` more actions of the block, unless an earlier one is on its way (R251, log 10). -/
  | resetAfter (n : Nat)
  deriving DecidableEq, Repr

/-- The logical busy value of a pin level: 1 when the level is `BUSY_ACTIVE_LEVEL` (R12, R72). -/
def busyOfPin (p : Params) (level : Bool) : Bool := level == p.busyActiveLevel

/-- The earlier of a reset on its way, if there is one, and one after `n` actions. -/
def earlierReset (n : Nat) : Option Nat → Nat
  | none => n
  | some m => min m n

/-- The state after the outside has made a move. -/
def deliver (i : Input) (s : State) : State :=
  match i with
  | .opWord w => { s with opIn := s.opIn ++ [w] }
  | .pixel p => { s with pixIn := s.pixIn ++ [p] }
  | .byte b => { s with byteIn := s.byteIn ++ [b] }
  | .draw v => { s with rngIn := s.rngIn ++ [v] }
  | .busyPin level => { s with busyIn := s.busyIn ++ [busyOfPin s.params level] }
  | .reset => hardReset s
  | .resetAfter n => { s with resetIn := some (earlierReset n s.resetIn) }

end Sys2Proof.Machine
end

