-- ==== Sys2Proof/Safety.lean ====
section
/-! DEFINITION. What counts as a sound state (R25, R33, R37, R61) and a safe step, in the terms the claims use. -/

namespace Sys2Proof.Machine

/-- The fields of a node are in their ranges (R33). -/
def nodeInRange (nd : Node) : Bool :=
  decide (nd.x.toNat < Config.width) && decide (nd.y.toNat < Config.height) &&
  decide (1 ≤ nd.primary.toNat) && decide (nd.primary.toNat ≤ 6) &&
  decide (1 ≤ nd.alt.toNat) && decide (nd.alt.toNat ≤ 6)

/-- What holds of the sequencer whenever `INIT` and `END_FRAME` are not running (R25, R140). -/
structure State.SequencerQuiet (s : State) : Prop where
  notClosed   : s.seqState ≠ .frameClosed
  openPowered : s.seqState = .frameOpen → s.pwrEn = true ∧ s.bufLive = true
  liveIsOpen  : s.bufLive = true → s.seqState = .frameOpen
  configured  : s.seqState = .configured → s.pwrEn = true
  unpowered   : s.seqState = .uninitialized → s.pwrEn = false

/-- What holds while the operation `r` is in flight (R22, R37, R232, R233), unless reset has just cut it. -/
def Running.Fits (r : Running) (s : State) : Prop :=
  match r with
  | .begun _ => False
  | .pack n taken =>
    s.SequencerQuiet ∧ n ≤ 2 * s.params.chunkMax ∧ n % 2 = 0 ∧ taken.length < n
  | .unpack m taken => s.SequencerQuiet ∧ m ≤ s.params.chunkMax ∧ taken.length < m
  | .sendChunk len taken =>
    s.SequencerQuiet ∧ s.seqState = .frameOpen ∧ len ≤ s.params.chunkMax ∧
      s.bytesSent.toNat + len ≤ Config.nbytes ∧ taken.length < len
  | .genScatter taken => s.SequencerQuiet ∧ taken.length < 5 * Config.nNodes
  | .init useq _ =>
    useq = .i4 ∧ s.pwrEn = true ∧ s.rst = s.params.rstOuter ∧ s.bufLive = false ∧
      s.seqState ≠ .frameOpen ∧ s.seqState ≠ .frameClosed
  | .endFrame useq _ =>
    (useq = .e2 ∨ useq = .e4 ∨ useq = .e6) ∧ s.pwrEn = true ∧ s.bufLive = true ∧
      s.seqState = .frameClosed

/-- The invariant of the block: rule R25, with what it becomes while an operation is in flight, the
ranges of the counts (R28, R35) and of the nodes (R33), and the form of `buf` (R61). Rule R25 speaks of the times
between operations: it is not asked of the moment at which reset cuts one. -/
structure State.Inv (s : State) : Prop where
  bufCanonical : Memory.wf s.buf = true
  bufWithin    : Memory.within s.params.chunkMax s.buf = true
  bytesSent    : s.bytesSent.toNat ≤ Config.nbytes
  genCursor    : s.genCursor.toNat ≤ Config.npix
  cursorEven   : s.genCursor.toNat % 2 = 0
  nodesValid   : s.nodesValid = true → s.nodes.length = Config.nNodes ∧ s.nodes.all nodeInRange = true
  idle         : s.resetIn ≠ some 0 → s.running = none → s.SequencerQuiet
  inFlight     : s.resetIn ≠ some 0 → ∀ r, s.running = some r → r.Fits s

/-- A safe step: it answers a next state, no fault and no refusal. -/
def State.StepsOn (s : State) : Prop := ∃ t, step s = .next t

/-! ## The terms of the claims -/

/-- The events of `j` busy readings in one wait (R143): the second of them logs the long wait. -/
def busyEvents (interval j : Nat) : List Event :=
  (List.range j).flatMap (fun i =>
    .poll true :: ((if i = 1 then [.logLongwait] else []) ++ [.delay interval]))

/-- The events of a wait that ends after `j` busy readings (R143). -/
def waitEvents (interval j : Nat) : List Event := busyEvents interval j ++ [.poll false]

/-- The events of an `INIT` whose wait ends after `j` busy readings (R144, R145). -/
def initEvents (p : Params) (j : Nat) : List Event :=
  [.pwr true, .rst p.rstOuter, .delay p.tRst0, .rst (!p.rstOuter), .delay p.tRst1,
   .rst p.rstOuter, .delay p.tRst2] ++
  waitEvents p.pollInterval j ++
  p.initTable.flatMap (fun c => .cmd c.cmd :: (if c.data = [] then [] else [.data c.data]))

/-- The events of an `END_FRAME` whose three waits end after `j1`, `j2` and `j3` busy readings (R150). -/
def endEvents (p : Params) (j1 j2 j3 : Nat) : List Event :=
  cmdEvents p.cmdPowerOn ++ waitEvents p.pollInterval j1 ++
  cmdEvents p.cmdRefresh ++ waitEvents p.pollInterval j2 ++
  cmdEvents p.cmdPowerOff ++ waitEvents p.pollInterval j3

/-- The panel's answers: `j` times busy, then clear, then `rest`. -/
def busyTimes (j : Nat) (rest : List Bool) : List Bool := List.replicate j true ++ false :: rest

/-- The `DATA` events of the chunks that are not empty (R148, R193). -/
def dataEvents (cs : List (List Byte)) : List Event :=
  (cs.filter (fun c => decide (c ≠ []))).map Event.data

/-- The count is one the operation allows (R97, R101). -/
def countAllowed (i : Instr) (s : State) : Bool :=
  match i with
  | .nop c => decide (c = 0)
  | .rdReg r => decide (r ≤ 2)
  | .pack n => decide (n ≤ 2 * s.params.chunkMax)
  | .unpack m => decide (m ≤ s.params.chunkMax)
  | .init c => decide (c = 0)
  | .beginFrame c => decide (c = 0)
  | .sendChunk l => decide (l ≤ s.params.chunkMax)
  | .endFrame c => decide (c = 0)
  | .turnOff c => decide (c = 0)
  | .genScatter c => decide (c = 0)
  | .genChunk n => decide (n ≤ 2 * s.params.chunkMax)
  | .genSend l => decide (l ≤ s.params.chunkMax)

/-- The sequencer is in a state in which the operation is legal (R140). -/
def stateAllows (i : Instr) (s : State) : Bool :=
  match i with
  | .init _ => decide (s.seqState ≠ .frameOpen)
  | .beginFrame _ => decide (s.seqState = .configured ∨ s.seqState = .poweredOff)
  | .sendChunk _ => decide (s.seqState = .frameOpen)
  | .endFrame _ => decide (s.seqState = .frameOpen)
  | .genSend _ => decide (s.seqState = .frameOpen)
  | _ => true

/-- Whether the cause of failure `c` is present, for the causes that are checked before any input item is
taken (R220, R222). -/
def causeApplies (i : Instr) (s : State) (c : ErrCode) : Bool :=
  match c, i with
  | .badCount, i => !countAllowed i s
  | .oddLength, .pack n => decide (n % 2 = 1)
  | .oddLength, .genChunk n => decide (n % 2 = 1)
  | .illegalState, i => !stateAllows i s
  | .panelUnpowered, .beginFrame _ => !s.pwrEn
  | .genNotSeeded, .genChunk _ => !s.nodesValid
  | .genNotSeeded, .genSend _ => !s.nodesValid
  | .genOverrun, .genChunk n => decide (s.genCursor.toNat + n > 384000)
  | .genOverrun, .genSend l => decide (s.genCursor.toNat + 2 * l > 384000)
  | .frameOverrun, .sendChunk l => decide (s.bytesSent.toNat + l > 192000)
  | .frameOverrun, .genSend l => decide (s.bytesSent.toNat + l > 192000)
  | _, _ => false

/-- The order of the checks (R222), after decoding and before the data. -/
def checkOrder : List ErrCode :=
  [.badCount, .oddLength, .illegalState, .panelUnpowered, .genNotSeeded, .genOverrun, .frameOverrun]

/-- The first cause present, in the order of rule R222. -/
def firstCause (i : Instr) (s : State) : Option ErrCode := checkOrder.find? (causeApplies i s)

/-- The table of rule R221: which operation can end with which failure. -/
def canEndWith (i : Instr) (c : ErrCode) : Bool :=
  match i, c with
  | _, .badCount => true
  | .pack _, .oddLength => true
  | .pack _, .invalidColor => true
  | .unpack _, .invalidColor => true
  | .init _, .illegalState => true
  | .beginFrame _, .illegalState => true
  | .beginFrame _, .panelUnpowered => true
  | .sendChunk _, .invalidColor => true
  | .sendChunk _, .illegalState => true
  | .sendChunk _, .frameOverrun => true
  | .endFrame _, .illegalState => true
  | .genChunk _, .oddLength => true
  | .genChunk _, .genNotSeeded => true
  | .genChunk _, .genOverrun => true
  | .genSend _, .illegalState => true
  | .genSend _, .frameOverrun => true
  | .genSend _, .genNotSeeded => true
  | .genSend _, .genOverrun => true
  | _, _ => false

/-- The `seq_state` after the operation ends `OK` (R140). -/
def seqAfterOk (i : Instr) (s : State) : SeqState :=
  match i with
  | .init _ => .configured
  | .beginFrame _ => .frameOpen
  | .endFrame _ => .poweredOff
  | .turnOff _ => .poweredOff
  | _ => s.seqState

/-- The `pwr_en` after the operation ends `OK` (R26, R140). -/
def pwrAfterOk (i : Instr) (s : State) : Bool :=
  match i with
  | .init _ => true
  | .turnOff _ => false
  | _ => s.pwrEn

/-- The state after an operation has ended with result `r`, when nothing else of it has changed. -/
def put (r : Result) (s : State) : State := { s with running := none, res := s.res ++ [r] }

end Sys2Proof.Machine
end

