-- ==== Sys2Proof/Certificates/Slice0/Obligations.lean ====
section
/-! DEFINITION. The statements about the block. Each docstring names the rule of spec/ it states, or says what it is derived
from. -/

open Sys2Proof Sys2Proof.Machine

/-! ## Encoding (spec/30_encoding.md) -/

/-- Decode and encode agree on every operation whose count fits its field (R96, R97, R99, R100). -/
def Obligations.DecodeOfEncodeIsTheOperation : Prop :=
  ∀ i : Instr, i.wellFormed = true → decode (encode i) = .ok i

/-- Every word that is an operation is the encoding of that one operation (R96, R99, R100). -/
def Obligations.EncodeOfDecodeIsTheWord : Prop :=
  ∀ (w : Word) (i : Instr), decode w = .ok i → i.wellFormed = true ∧ encode i = w

/-- R100: the whole decoder, as a step sees it with no reset on its way. -/
def Obligations.EveryWordRunsOrEndsIllegalOp : Prop :=
  ∀ (s : State) (w : Word) (rest : List Word), s.resetIn = none → s.running = none → s.opIn = w :: rest →
    ((w.extractLsb' 20 4 = 0#4 ∧ (w.extractLsb' 24 8).toNat ∈
        [0x00, 0x01, 0x10, 0x11, 0x20, 0x21, 0x22, 0x23, 0x24, 0x30, 0x31, 0x32]) →
      ∃ i : Instr, opcodeOf i = w.extractLsb' 24 8 ∧ i.count = (w.extractLsb' 0 20).toNat ∧
        step s = exec i { s with opIn := rest }) ∧
    (¬(w.extractLsb' 20 4 = 0#4 ∧ (w.extractLsb' 24 8).toNat ∈
        [0x00, 0x01, 0x10, 0x11, 0x20, 0x21, 0x22, 0x23, 0x24, 0x30, 0x31, 0x32]) →
      step s = .next { s with opIn := rest, err := s.err ||| 1#9,
                              res := s.res ++ [⟨.err .illegalOp, 0#32⟩] })

/-- Words written out from the encodings of rules R96 and R99, and two that are reserved. -/
def Obligations.WordsOfTheSpecDecode : Prop :=
  decode 0x00000000#32 = .ok (.nop 0) ∧ decode 0x01000003#32 = .ok (.rdReg 3) ∧
  decode 0x10000004#32 = .ok (.pack 4) ∧ decode 0x11000FA1#32 = .ok (.unpack 4001) ∧
  decode 0x22000FA0#32 = .ok (.sendChunk 4000) ∧ decode 0x23000000#32 = .ok (.endFrame 0) ∧
  decode 0x31000010#32 = .ok (.genChunk 16) ∧ decode 0x22100001#32 = .error .reservedNotZero ∧
  decode 0x7F000000#32 = .error .unassignedOpcode

/-! ## The step (spec/20_memory.md R75, spec/10_state.md R22) -/

/-- A step with no operation in flight and no reset on its way runs the operation that the next word decodes to, on the state with
that word taken. -/
def Obligations.StepRunsTheDecodedOperation : Prop :=
  ∀ (s : State) (w : Word) (rest : List Word) (i : Instr),
    s.resetIn = none → s.running = none → s.opIn = w :: rest → decode w = .ok i →
    i.wellFormed = true ∧ step s = exec i { s with opIn := rest }

/-- With no operation in flight and no word at the port the block waits: nothing runs by itself (R251; that
the wait is a step which changes nothing is the model's choice, log 3). -/
def Obligations.IdleBlockDoesNothing : Prop :=
  ∀ s : State, s.resetIn = none → s.running = none → s.opIn = [] → step s = .next s

/-- While an operation is in flight no word is taken (R75), unless the step is the reset itself. -/
def Obligations.NoWordIsTakenWhileAnOperationRuns : Prop :=
  ∀ (s t : State) (r : Running), s.resetIn ≠ some 0 → s.running = some r → step s = .next t → t.opIn = s.opIn

/-- With no reset on its way an operation puts one result exactly when it ends, and none while it is still in flight
(R75, R98, R233, R264). -/
def Obligations.OneResultExactlyWhenTheOperationEnds : Prop :=
  ∀ s t : State, s.resetIn = none → (s.running ≠ none ∨ s.opIn ≠ []) → step s = .next t →
    (t.running = none ∧ ∃ r, t.res = s.res ++ [r]) ∨ (t.running ≠ none ∧ t.res = s.res)

/-- The value half of a result is 0 for every operation except an `RD_REG` that ends `OK` (R98). -/
def Obligations.OnlyRdRegReturnsAValue : Prop :=
  (∀ (i : Instr) (s t : State) (r : Result), exec i s = .next t → t.res = s.res ++ [r] →
    (∀ n, i ≠ .rdReg n) ∨ r.status ≠ .ok → r.value = 0#32) ∧
  (∀ (s t : State) (q : Running) (r : Result), s.running = some q → step s = .next t →
    t.res = s.res ++ [r] → r.value = 0#32)

/-! ## System operations (spec/43_system.md) -/

/-- R210. -/
def Obligations.NopFollowsItsRule : Prop :=
  ∀ s : State,
    exec (.nop 0) s = .next { s with running := none, res := s.res ++ [⟨.ok, 0#32⟩] } ∧
    ∀ c, c ≠ 0 → exec (.nop c) s = .next (raise .badCount s)

/-- R211: the three registers, and the reserved numbers. -/
def Obligations.RdRegFollowsItsRule : Prop :=
  ∀ s : State,
    exec (.rdReg 0) s = .next (put ⟨.ok, statusReg s⟩ s) ∧
    exec (.rdReg 1) s = .next (put ⟨.ok, BitVec.ofNat 32 s.bytesSent.toNat⟩ s) ∧
    exec (.rdReg 2) s = .next (put ⟨.ok, BitVec.ofNat 32 s.genCursor.toNat⟩ s) ∧
    ∀ r, 2 < r → exec (.rdReg r) s = .next (raise .badCount s)

/-- R39 with the five codes of R24: every field of `STATUS`; and a read by `RD_REG` between two operations never shows
code 3 (of the moment at which a reset cuts an operation nothing is said: log 10). -/
def Obligations.StatusRegisterLayout : Prop :=
  ∀ s : State,
    (s.seqState = .uninitialized → (statusReg s).extractLsb' 0 3 = 0#3) ∧
    (s.seqState = .configured → (statusReg s).extractLsb' 0 3 = 1#3) ∧
    (s.seqState = .frameOpen → (statusReg s).extractLsb' 0 3 = 2#3) ∧
    (s.seqState = .frameClosed → (statusReg s).extractLsb' 0 3 = 3#3) ∧
    (s.seqState = .poweredOff → (statusReg s).extractLsb' 0 3 = 4#3) ∧
    (statusReg s).getLsbD 3 = s.pwrEn ∧
    (statusReg s).getLsbD 4 = s.bufLive ∧
    (statusReg s).getLsbD 5 = s.nodesValid ∧
    (statusReg s).getLsbD 6 = s.longwait ∧
    (statusReg s).getLsbD 7 = s.shortframe ∧
    (statusReg s).getLsbD 8 = s.rst ∧
    (∀ k, 9 ≤ k → k ≤ 16 → (statusReg s).getLsbD k = false) ∧
    (∀ k, 1 ≤ k → k ≤ 9 → (statusReg s).getLsbD (16 + k) = s.err.getLsbD (k - 1)) ∧
    (∀ k, 26 ≤ k → k ≤ 31 → (statusReg s).getLsbD k = false) ∧
    (s.Inv → s.resetIn ≠ some 0 → s.running = none → (statusReg s).extractLsb' 0 3 ≠ 3#3)

/-! ## PIXCODEC (spec/40_codec.md) -/

/-- R92: a packed byte is valid exactly when it is `a * 16 + b` for two codes of at most 6; and what a byte
unpacks to packs to it. -/
def Obligations.ValidPackedBytes : Prop :=
  ∀ v : Byte,
    (validPacked v = true ↔ ∃ a b : Nat, a ≤ 6 ∧ b ≤ 6 ∧ v.toNat = a * 16 + b) ∧
    v.toNat = (highNibble v).toNat * 16 + (lowNibble v).toNat

/-- R120: `PackSeq` and `UnpackSeq`, item by item. -/
def Obligations.PackSeqAndUnpackSeqItemByItem : Prop :=
  (∀ p : List Pixel, p.length % 2 = 0 → (packSeq p).length = p.length / 2 ∧
    ∀ (j : Nat) (a b : Pixel), p[2 * j]? = some a → p[2 * j + 1]? = some b →
      ∃ v, (packSeq p)[j]? = some v ∧ v.toNat = a.toNat * 16 + b.toNat) ∧
  (∀ b : List Byte, (unpackSeq b).length = 2 * b.length ∧
    ∀ (j : Nat) (v : Byte), b[j]? = some v →
      (unpackSeq b)[2 * j]? = some (v.extractLsb' 4 4) ∧
      (unpackSeq b)[2 * j + 1]? = some (v.extractLsb' 0 4)) ∧
  packSeq [] = [] ∧ unpackSeq [] = []

/-- R121: every outcome of `PACK n`; `MissingItemsHoldTheOperation` says what it does while pixels are missing. -/
def Obligations.PackFollowsItsRule : Prop :=
  ∀ (n : Nat) (s : State),
    (n > 2 * s.params.chunkMax → exec (.pack n) s = .next (raise .badCount s)) ∧
    (n ≤ 2 * s.params.chunkMax → n % 2 = 1 → exec (.pack n) s = .next (raise .oddLength s)) ∧
    (n ≤ 2 * s.params.chunkMax → n % 2 = 0 → n ≤ s.pixIn.length →
      (∃ p ∈ s.pixIn.take n, p.toNat > 6) →
      exec (.pack n) s = .next (raise .invalidColor { s with pixIn := s.pixIn.drop n })) ∧
    (n ≤ 2 * s.params.chunkMax → n % 2 = 0 → n ≤ s.pixIn.length →
      (∀ p ∈ s.pixIn.take n, p.toNat ≤ 6) →
      exec (.pack n) s = .next (put ⟨.ok, 0#32⟩
        { s with pixIn := s.pixIn.drop n, byteOut := s.byteOut ++ packSeq (s.pixIn.take n) }))

/-- R123: every outcome of `UNPACK m`; while bytes are missing see `MissingItemsHoldTheOperation`. -/
def Obligations.UnpackFollowsItsRule : Prop :=
  ∀ (m : Nat) (s : State),
    (m > s.params.chunkMax → exec (.unpack m) s = .next (raise .badCount s)) ∧
    (m ≤ s.params.chunkMax → m ≤ s.byteIn.length →
      (∃ b ∈ s.byteIn.take m, (b.extractLsb' 4 4).toNat > 6 ∨ (b.extractLsb' 0 4).toNat > 6) →
      exec (.unpack m) s = .next (raise .invalidColor { s with byteIn := s.byteIn.drop m })) ∧
    (m ≤ s.params.chunkMax → m ≤ s.byteIn.length →
      (∀ b ∈ s.byteIn.take m, (b.extractLsb' 4 4).toNat ≤ 6 ∧ (b.extractLsb' 0 4).toNat ≤ 6) →
      exec (.unpack m) s = .next (put ⟨.ok, 0#32⟩
        { s with byteIn := s.byteIn.drop m, pixOut := s.pixOut ++ unpackSeq (s.byteIn.take m) }))

/-- R124: packing and unpacking undo each other, as functions and as operations. -/
def Obligations.PackAndUnpackUndoEachOther : Prop :=
  (∀ p : List Pixel, p.length % 2 = 0 → unpackSeq (packSeq p) = p) ∧
  (∀ b : List Byte, packSeq (unpackSeq b) = b) ∧
  (∀ (n : Nat) (s t u : State) (r : List Byte), exec (.pack n) s = .next t →
    t.res = s.res ++ [⟨.ok, 0#32⟩] → u.params = s.params →
    s.byteOut ++ u.byteIn = t.byteOut ++ r →
    exec (.unpack (n / 2)) u = .next (put ⟨.ok, 0#32⟩
      { u with byteIn := r, pixOut := u.pixOut ++ s.pixIn.take n })) ∧
  (∀ (m : Nat) (s t u : State) (r : List Pixel), exec (.unpack m) s = .next t →
    t.res = s.res ++ [⟨.ok, 0#32⟩] → u.params = s.params →
    s.pixOut ++ u.pixIn = t.pixOut ++ r →
    exec (.pack (2 * m)) u = .next (put ⟨.ok, 0#32⟩
      { u with pixIn := r, byteOut := u.byteOut ++ s.byteIn.take m }))

/-- R122: what `PACK` gives is valid, and cutting the payload at an even index changes neither the bytes nor
their order. -/
def Obligations.PackMayBeCutAtEvenIndices : Prop :=
  (∀ p : List Pixel, p.length % 2 = 0 → (∀ a ∈ p, a.toNat ≤ 6) →
    (packSeq p).length = p.length / 2 ∧ ∀ v ∈ packSeq p, validPacked v = true) ∧
  (∀ (n m : Nat) (s t : State), n % 2 = 0 → m % 2 = 0 → exec (.pack (n + m)) s = .next t →
    t.res = s.res ++ [⟨.ok, 0#32⟩] →
    ∃ u v, exec (.pack n) s = .next u ∧ exec (.pack m) u = .next v ∧
      v.byteOut = t.byteOut ∧ v.pixIn = t.pixIn)

/-- While an item it needs is missing an operation takes what is there, has no result, and stays in flight (R66, R232;
that the step ends there is the model's choice, logs 2, 3 and 5). -/
def Obligations.MissingItemsHoldTheOperation : Prop :=
  ∀ s : State,
    (∀ n, n ≤ 2 * s.params.chunkMax → n % 2 = 0 → s.pixIn.length < n →
      exec (.pack n) s = .next { s with pixIn := [], running := some (.pack n s.pixIn) }) ∧
    (∀ m, m ≤ s.params.chunkMax → s.byteIn.length < m →
      exec (.unpack m) s = .next { s with byteIn := [], running := some (.unpack m s.byteIn) }) ∧
    (∀ l, l ≤ s.params.chunkMax → s.seqState = .frameOpen → s.bytesSent.toNat + l ≤ 192000 →
      s.byteIn.length < l →
      exec (.sendChunk l) s = .next { s with byteIn := [], running := some (.sendChunk l s.byteIn) }) ∧
    (s.rngIn.length < 200 →
      exec (.genScatter 0) s = .next { s with rngIn := [], running := some (.genScatter s.rngIn) })

/-- R66 for the four operations that take input items, and R72, R143 for the two that wait for the panel: items and
answers that arrive after the operation has begun to wait are taken as if they had been there from the start (logs 2
and 3). -/
def Obligations.ItemsMayArriveLate : Prop :=
  ∀ s t : State, s.resetIn = none → t.running ≠ none →
    (∀ (n : Nat) (late : List Pixel), exec (.pack n) s = .next t →
      step { t with pixIn := late } = exec (.pack n) { s with pixIn := s.pixIn ++ late }) ∧
    (∀ (m : Nat) (late : List Byte), exec (.unpack m) s = .next t →
      step { t with byteIn := late } = exec (.unpack m) { s with byteIn := s.byteIn ++ late }) ∧
    (∀ (l : Nat) (late : List Byte), exec (.sendChunk l) s = .next t →
      step { t with byteIn := late } = exec (.sendChunk l) { s with byteIn := s.byteIn ++ late }) ∧
    (∀ (c : Nat) (late : List Nat), exec (.genScatter c) s = .next t →
      step { t with rngIn := late } = exec (.genScatter c) { s with rngIn := s.rngIn ++ late }) ∧
    (∀ (c : Nat) (late : List Bool), exec (.init c) s = .next t →
      step { t with busyIn := late } = exec (.init c) { s with busyIn := s.busyIn ++ late }) ∧
    (∀ (c : Nat) (late : List Bool), exec (.endFrame c) s = .next t →
      step { t with busyIn := late } = exec (.endFrame c) { s with busyIn := s.busyIn ++ late })

/-! ## EPDSEQ (spec/41_sequencer.md) -/

/-- R143: a wait that reads busy `j` times and then clear, and one that has only read busy so far (the
answers stand in a queue: log 4). `standing k` is the waiting operation with its count `k`, and `after` what it does
once a reading is clear. -/
def Obligations.BusyWaitEndsAtTheFirstClearReading : Prop :=
  ∀ (standing : Nat → Running) (after : List Bool → List Action) (s : State) (j : Nat),
    s.running = some (standing 0) →
    (∀ rest, s.busyIn = busyTimes j rest →
      perform (busyWait standing s.params.pollInterval after 0 s.busyIn) s =
        perform (after rest)
          { s with running := some (standing j), busyIn := rest,
                   longwait := s.longwait || decide (2 ≤ j),
                   trace := s.trace ++ waitEvents s.params.pollInterval j }) ∧
    (s.busyIn = List.replicate j true →
      perform (busyWait standing s.params.pollInterval after 0 s.busyIn) s =
        { s with running := some (standing j), busyIn := [],
                 longwait := s.longwait || decide (2 ≤ j),
                 trace := s.trace ++ busyEvents s.params.pollInterval j })

/-- R144: every outcome of `INIT`, for a panel that is busy for `j` readings and then clear (the answers stand
in a queue: log 4). -/
def Obligations.InitFollowsItsRule : Prop :=
  ∀ s : State,
    (∀ c, c ≠ 0 → exec (.init c) s = .next (raise .badCount s)) ∧
    (s.seqState = .frameOpen → exec (.init 0) s = .next (raise .illegalState s)) ∧
    (∀ (j : Nat) (rest : List Bool), s.seqState ≠ .frameOpen →
      s.busyIn = busyTimes j rest →
      exec (.init 0) s = .next (put ⟨.ok, 0#32⟩
        { s with
            pwrEn := true, rst := s.params.rstOuter, seqState := .configured, busyIn := rest,
            longwait := s.longwait || decide (2 ≤ j),
            trace := s.trace ++ initEvents s.params j }))

/-- R147: every outcome of `BEGIN_FRAME`. -/
def Obligations.BeginFrameFollowsItsRule : Prop :=
  ∀ s : State,
    (∀ c, c ≠ 0 → exec (.beginFrame c) s = .next (raise .badCount s)) ∧
    (s.seqState ≠ .configured → s.seqState ≠ .poweredOff →
      exec (.beginFrame 0) s = .next (raise .illegalState s)) ∧
    (s.seqState = .configured ∨ s.seqState = .poweredOff → s.pwrEn = false →
      exec (.beginFrame 0) s = .next (raise .panelUnpowered s)) ∧
    (s.seqState = .configured ∨ s.seqState = .poweredOff → s.pwrEn = true →
      exec (.beginFrame 0) s = .next (put ⟨.ok, 0#32⟩
        { s with bufLive := true, bytesSent := 0#18, seqState := .frameOpen,
                 trace := s.trace ++ cmdEvents s.params.cmdDataStart }))

/-- R148: every outcome of `SEND_CHUNK L`; while bytes are missing see `MissingItemsHoldTheOperation`. The bytes
stored to are `buf[0..L-1]`. -/
def Obligations.SendChunkFollowsItsRule : Prop :=
  ∀ (l : Nat) (s : State),
    (l > s.params.chunkMax → exec (.sendChunk l) s = .next (raise .badCount s)) ∧
    (l ≤ s.params.chunkMax → s.seqState ≠ .frameOpen →
      exec (.sendChunk l) s = .next (raise .illegalState s)) ∧
    (l ≤ s.params.chunkMax → s.seqState = .frameOpen → s.bytesSent.toNat + l > 192000 →
      exec (.sendChunk l) s = .next (raise .frameOverrun s)) ∧
    (l ≤ s.params.chunkMax → s.seqState = .frameOpen → s.bytesSent.toNat + l ≤ 192000 →
      l ≤ s.byteIn.length →
      ∃ m : Memory,
        (∀ a, Memory.read a m =
          if a < l then (s.byteIn.take l)[a]? else Memory.read a s.buf) ∧
        ((∃ b ∈ s.byteIn.take l, (b.extractLsb' 4 4).toNat > 6 ∨ (b.extractLsb' 0 4).toNat > 6) →
          exec (.sendChunk l) s = .next (raise .invalidColor
            { s with byteIn := s.byteIn.drop l, buf := m })) ∧
        ((∀ b ∈ s.byteIn.take l, (b.extractLsb' 4 4).toNat ≤ 6 ∧ (b.extractLsb' 0 4).toNat ≤ 6) →
          exec (.sendChunk l) s = .next (put ⟨.ok, 0#32⟩
            { s with byteIn := s.byteIn.drop l, buf := m,
                     bytesSent := BitVec.ofNat 18 (s.bytesSent.toNat + l),
                     trace := s.trace ++ (if l = 0 then [] else [.data (s.byteIn.take l)]) })))

/-- A chunk is all or nothing at the panel (R77, R148): a `SEND_CHUNK`, whether it starts or goes on, adds no event
or the one `DATA` event of its whole chunk, every byte of it valid. -/
def Obligations.ChunkIsAllOrNothing : Prop :=
  ∀ (l : Nat) (s t : State),
    (exec (.sendChunk l) s = .next t ∨
      (∃ taken, taken.length ≤ l ∧ s.resetIn = none ∧ s.running = some (.sendChunk l taken) ∧ step s = .next t)) →
    t.trace = s.trace ∨
      ∃ d, d.length = l ∧ d.all validPacked = true ∧ t.trace = s.trace ++ [.data d] ∧
        t.res = s.res ++ [⟨.ok, 0#32⟩] ∧ t.bytesSent = BitVec.ofNat 18 (s.bytesSent.toNat + l)

/-- R150: every outcome of `END_FRAME`, for a panel that is busy for `j1`, `j2` and `j3` readings in the three
waits (the answers stand in a queue: log 4). -/
def Obligations.EndFrameFollowsItsRule : Prop :=
  ∀ s : State,
    (∀ c, c ≠ 0 → exec (.endFrame c) s = .next (raise .badCount s)) ∧
    (s.seqState ≠ .frameOpen → exec (.endFrame 0) s = .next (raise .illegalState s)) ∧
    (∀ (j1 j2 j3 : Nat) (rest : List Bool), s.seqState = .frameOpen →
      s.busyIn = busyTimes j1 (busyTimes j2 (busyTimes j3 rest)) →
      exec (.endFrame 0) s = .next (put ⟨.ok, 0#32⟩
        { s with
            seqState := .poweredOff, bufLive := false, busyIn := rest,
            shortframe := s.shortframe || decide (s.bytesSent.toNat ≠ 192000),
            longwait := s.longwait || decide (2 ≤ j1) || decide (2 ≤ j2) || decide (2 ≤ j3),
            trace := s.trace ++ endEvents s.params j1 j2 j3 }))

/-- A panel that answers busy to every poll so far (R143, R233): `INIT` and `END_FRAME` have no result, hold
the state they had reached, and have set `LONGWAIT` once they have read busy twice. -/
def Obligations.DeadPanelHangsTheSequencer : Prop :=
  (∀ (s : State) (j : Nat), s.seqState = .frameOpen → s.busyIn = List.replicate j true →
    ∃ t, exec (.endFrame 0) s = .next t ∧ t.running = some (.endFrame .e2 j) ∧ t.res = s.res ∧
      t.seqState = .frameClosed ∧ t.bufLive = s.bufLive ∧ t.pwrEn = s.pwrEn ∧
      t.longwait = (s.longwait || decide (2 ≤ j))) ∧
  (∀ (s : State) (j : Nat), s.seqState ≠ .frameOpen → s.busyIn = List.replicate j true →
    ∃ t, exec (.init 0) s = .next t ∧ t.running = some (.init .i4 j) ∧ t.res = s.res ∧
      t.seqState = s.seqState ∧ t.pwrEn = true ∧ t.rst = s.params.rstOuter ∧
      t.longwait = (s.longwait || decide (2 ≤ j))) ∧
  (∀ (s : State) (r : Running) (j : Nat),
    (∃ k, r = .init .i4 k ∨ r = .endFrame .e2 k ∨ r = .endFrame .e4 k ∨ r = .endFrame .e6 k) →
    s.resetIn = none → s.running = some r → s.busyIn = List.replicate j true →
    ∃ t r', step s = .next t ∧ t.running = some r' ∧ t.res = s.res ∧ t.seqState = s.seqState ∧
      t.bufLive = s.bufLive ∧ t.pwrEn = s.pwrEn ∧ t.rst = s.rst ∧
      ∃ es, t.trace = s.trace ++ es ∧ es.count (.poll true) = j ∧ es.count (.poll false) = 0)

/-- R152: every outcome of `TURN_OFF`; and a second one leaves every piece of state as it was, but for one more
event and one more result. -/
def Obligations.TurnOffFollowsItsRule : Prop :=
  ∀ s : State,
    (∀ c, c ≠ 0 → exec (.turnOff c) s = .next (raise .badCount s)) ∧
    exec (.turnOff 0) s = .next (put ⟨.ok, 0#32⟩
      { s with pwrEn := false, bufLive := false, seqState := .poweredOff,
               trace := s.trace ++ [.pwr false] }) ∧
    ∀ t, exec (.turnOff 0) s = .next t →
      exec (.turnOff 0) t = .next { t with trace := t.trace ++ [.pwr false],
                                           res := t.res ++ [⟨.ok, 0#32⟩] }

/-- The transitions of rule R140, in the step that starts an operation and in one that goes on with it: in which states
an operation may end `OK`, where it then leads, that a waiting `END_FRAME` stands in `FrameClosed`, and that nothing
else changes `seq_state` or `pwr_en`. -/
def Obligations.SequencerTransitions : Prop :=
  (∀ (i : Instr) (s t : State) (r : Result), exec i s = .next t → t.res = s.res ++ [r] →
    (r.status = .ok → stateAllows i s = true ∧ t.seqState = seqAfterOk i s ∧ t.pwrEn = pwrAfterOk i s ∧
      ((∃ c, i = .beginFrame c) → s.pwrEn = true)) ∧
    (r.status ≠ .ok → t.seqState = s.seqState ∧ t.pwrEn = s.pwrEn)) ∧
  (∀ (i : Instr) (s t : State), exec i s = .next t → t.running ≠ none →
    ((∃ c, i = .endFrame c) ∧ s.seqState = .frameOpen ∧ t.seqState = .frameClosed ∧ t.pwrEn = s.pwrEn) ∨
    ((∃ c, i = .init c) ∧ s.seqState ≠ .frameOpen ∧ t.seqState = s.seqState ∧ t.pwrEn = true) ∨
    ((∀ c, i ≠ .endFrame c ∧ i ≠ .init c) ∧ t.seqState = s.seqState ∧ t.pwrEn = s.pwrEn)) ∧
  (∀ (s t : State) (r : Running), s.resetIn = none → s.running = some r → step s = .next t →
    (∀ k, r = .init .i4 k →
      t.pwrEn = s.pwrEn ∧
      (t.running = none ∧ t.seqState = .configured ∨
        (∃ k', t.running = some (.init .i4 k')) ∧ t.seqState = s.seqState)) ∧
    (∀ useq k, r = .endFrame useq k → useq ≠ .e0 →
      t.pwrEn = s.pwrEn ∧
      (t.running = none ∧ t.seqState = .poweredOff ∨
        (∃ useq' k', t.running = some (.endFrame useq' k')) ∧ t.seqState = s.seqState)) ∧
    ((∀ useq k, r ≠ .init useq k) → (∀ useq k, r ≠ .endFrame useq k) →
      t.seqState = s.seqState ∧ t.pwrEn = s.pwrEn))

/-- Any cutting of frame data into chunks gives the panel the same bytes in the same order (R71, R149): the
chunks `cs`, sent from an open frame, end `OK` in as many steps, and change nothing but the streams, `buf` and
`bytes_sent`. -/
def Obligations.AnyChunkingSendsTheSameBytes : Prop :=
  ∀ (cs : List (List Byte)) (s : State) (ops : List Word) (bytes : List Byte),
    s.resetIn = none → s.running = none → s.seqState = .frameOpen →
    (∀ c ∈ cs, c.length ≤ s.params.chunkMax ∧ ∀ b ∈ c, validPacked b = true) →
    s.bytesSent.toNat + cs.flatten.length ≤ 192000 →
    s.opIn = cs.map (fun c => encode (.sendChunk c.length)) ++ ops → s.byteIn = cs.flatten ++ bytes →
    ∃ m : Memory, Host.Core.run Sys2Proof.core cs.length s = .next
      { s with opIn := ops, byteIn := bytes, buf := m,
               bytesSent := BitVec.ofNat 18 (s.bytesSent.toNat + cs.flatten.length),
               trace := s.trace ++ dataEvents cs,
               res := s.res ++ List.replicate cs.length ⟨.ok, 0#32⟩ }

/-- R154: a whole live frame. For `INIT`, `BEGIN_FRAME`, chunks that sum to exactly 192000 valid bytes, `END_FRAME`
and `TURN_OFF`, with a panel that clears its busy line in each of the four waits, every operation ends `OK` and
the panel port sees the sequence of the rule; `SHORTFRAME` is not set. -/
def Obligations.WholeLiveFrameReachesThePanel : Prop :=
  ∀ (cs : List (List Byte)) (s : State) (ops : List Word) (bytes : List Byte) (j0 j1 j2 j3 : Nat)
    (rest : List Bool),
    s.resetIn = none → s.running = none → s.seqState ≠ .frameOpen →
    (∀ c ∈ cs, c.length ≤ s.params.chunkMax ∧ ∀ b ∈ c, validPacked b = true) →
    cs.flatten.length = 192000 →
    s.opIn = encode (.init 0) :: encode (.beginFrame 0) ::
      (cs.map (fun c => encode (.sendChunk c.length)) ++
        encode (.endFrame 0) :: encode (.turnOff 0) :: ops) →
    s.byteIn = cs.flatten ++ bytes →
    s.busyIn = busyTimes j0 (busyTimes j1 (busyTimes j2 (busyTimes j3 rest))) →
    ∃ t, Host.Core.run Sys2Proof.core (cs.length + 4) s = .next t ∧
      t.res = s.res ++ List.replicate (cs.length + 4) ⟨.ok, 0#32⟩ ∧
      t.trace = s.trace ++ initEvents s.params j0 ++ cmdEvents s.params.cmdDataStart ++ dataEvents cs ++
        endEvents s.params j1 j2 j3 ++ [.pwr false] ∧
      t.shortframe = s.shortframe ∧ t.bytesSent.toNat = 192000 ∧ t.seqState = .poweredOff ∧
      t.pwrEn = false ∧ t.bufLive = false ∧ t.running = none ∧
      t.opIn = ops ∧ t.byteIn = bytes ∧ t.busyIn = rest

/-! ## VORGEN (spec/42_vorgen.md) -/

/-- Every outcome of `GEN_SCATTER` (42_vorgen section 1, R182); while draws are missing see `MissingItemsHoldTheOperation`.
That a draw is the remainder of its `rng` item by the bound of its request is the model's choice (log 5), not R182's. -/
def Obligations.GenScatterFollowsItsRule : Prop :=
  ∀ s : State,
    (∀ c, c ≠ 0 → exec (.genScatter c) s = .next (raise .badCount s)) ∧
    (200 ≤ s.rngIn.length →
      exec (.genScatter 0) s = .next (put ⟨.ok, 0#32⟩
        { s with
            rngIn := s.rngIn.drop 200, nodesValid := true, genCursor := 0#19,
            nodes := (List.range 40).map (fun i =>
              { x := BitVec.ofNat 10 (s.rngIn.getD (5 * i) 0 % 800),
                y := BitVec.ofNat 9 (s.rngIn.getD (5 * i + 1) 0 % 480),
                primary := BitVec.ofNat 4 (s.rngIn.getD (5 * i + 2) 0 % 6 + 1),
                alt := if s.rngIn.getD (5 * i + 3) 0 % 2 = 1
                       then BitVec.ofNat 4 (s.rngIn.getD (5 * i + 4) 0 % 6 + 1)
                       else BitVec.ofNat 4 (s.rngIn.getD (5 * i + 2) 0 % 6 + 1) }) }))

/-- R192: every outcome of `GEN_CHUNK n` over a node table that holds its entries (log 7). -/
def Obligations.GenChunkFollowsItsRule : Prop :=
  ∀ (n : Nat) (s : State),
    (n > 2 * s.params.chunkMax → exec (.genChunk n) s = .next (raise .badCount s)) ∧
    (n ≤ 2 * s.params.chunkMax → n % 2 = 1 → exec (.genChunk n) s = .next (raise .oddLength s)) ∧
    (n ≤ 2 * s.params.chunkMax → n % 2 = 0 → s.nodesValid = false →
      exec (.genChunk n) s = .next (raise .genNotSeeded s)) ∧
    (n ≤ 2 * s.params.chunkMax → n % 2 = 0 → s.nodesValid = true →
      s.genCursor.toNat + n > 384000 → exec (.genChunk n) s = .next (raise .genOverrun s)) ∧
    (n ≤ 2 * s.params.chunkMax → n % 2 = 0 → s.nodesValid = true →
      s.genCursor.toNat + n ≤ 384000 → 2 ≤ s.nodes.length →
      ∃ p : List Pixel, p.length = n ∧
        (∀ i, i < n → p[i]? = vorPixel s.nodes ((s.genCursor.toNat + i) % 800)
          ((s.genCursor.toNat + i) / 800)) ∧
        exec (.genChunk n) s = .next (put ⟨.ok, 0#32⟩
          { s with pixOut := s.pixOut ++ p,
                   genCursor := BitVec.ofNat 19 (s.genCursor.toNat + n) }))

/-- R193: every outcome of `GEN_SEND L` over a node table that holds its entries (log 7). The bytes stored to
are `buf[0..L-1]`. -/
def Obligations.GenSendFollowsItsRule : Prop :=
  ∀ (l : Nat) (s : State),
    (l > s.params.chunkMax → exec (.genSend l) s = .next (raise .badCount s)) ∧
    (l ≤ s.params.chunkMax → s.seqState ≠ .frameOpen →
      exec (.genSend l) s = .next (raise .illegalState s)) ∧
    (l ≤ s.params.chunkMax → s.seqState = .frameOpen → s.nodesValid = false →
      exec (.genSend l) s = .next (raise .genNotSeeded s)) ∧
    (l ≤ s.params.chunkMax → s.seqState = .frameOpen → s.nodesValid = true →
      s.genCursor.toNat + 2 * l > 384000 → exec (.genSend l) s = .next (raise .genOverrun s)) ∧
    (l ≤ s.params.chunkMax → s.seqState = .frameOpen → s.nodesValid = true →
      s.genCursor.toNat + 2 * l ≤ 384000 → s.bytesSent.toNat + l > 192000 →
      exec (.genSend l) s = .next (raise .frameOverrun s)) ∧
    (l ≤ s.params.chunkMax → s.seqState = .frameOpen → s.nodesValid = true →
      s.genCursor.toNat + 2 * l ≤ 384000 → s.bytesSent.toNat + l ≤ 192000 → 2 ≤ s.nodes.length →
      ∃ (p : List Pixel) (m : Memory), p.length = 2 * l ∧
        (∀ i, i < 2 * l → p[i]? = vorPixel s.nodes ((s.genCursor.toNat + i) % 800)
          ((s.genCursor.toNat + i) / 800)) ∧
        (∀ a, Memory.read a m = if a < l then (packSeq p)[a]? else Memory.read a s.buf) ∧
        exec (.genSend l) s = .next (put ⟨.ok, 0#32⟩
          { s with buf := m,
                   genCursor := BitVec.ofNat 19 (s.genCursor.toNat + 2 * l),
                   bytesSent := BitVec.ofNat 18 (s.bytesSent.toNat + l),
                   trace := s.trace ++ (if l = 0 then [] else [.data (packSeq p)]) }))

/-- R184: the scan finds the two nearest nodes of the definition, first index winning every tie. -/
def Obligations.ScanFindsTheTwoNearestNodes : Prop :=
  ∀ (nodes : List Node) (x y : Nat), 2 ≤ nodes.length →
    ∃ n1 n2, twoNearest nodes x y = some (n1, n2) ∧
      nodes[n1.idx]? = some n1.node ∧ n1.dist = dist2 x y n1.node ∧
      nodes[n2.idx]? = some n2.node ∧ n2.dist = dist2 x y n2.node ∧
      (∀ j nd, nodes[j]? = some nd →
        n1.dist ≤ dist2 x y nd ∧ (dist2 x y nd = n1.dist → n1.idx ≤ j)) ∧
      (∀ j nd, nodes[j]? = some nd → j ≠ n1.idx →
        n2.dist ≤ dist2 x y nd ∧ (dist2 x y nd = n2.dist → n2.idx ≤ j)) ∧
      n1.dist ≤ n2.dist ∧ n1.idx ≠ n2.idx ∧ (n1.dist = n2.dist → n1.idx < n2.idx)

/-- R186 with R185: for two nodes at different points the integer border test decides `|s| < 1` for the real
signed distance `s = ((P - M) . D) / |D|` of the pixel to the bisector. -/
def Obligations.BorderTestDecidesTheRealDistance : Prop :=
  ∀ (x y : Nat) (n1 n2 : Near), n1.dist = dist2 x y n1.node → n2.dist = dist2 x y n2.node →
    (n1.node.x ≠ n2.node.x ∨ n1.node.y ≠ n2.node.y) →
    (isBorder n1 n2 = true ↔
      |((((x : ℝ) - ((n1.node.x.toNat : ℝ) + n2.node.x.toNat) / 2) *
            ((n2.node.x.toNat : ℝ) - n1.node.x.toNat) +
          ((y : ℝ) - ((n1.node.y.toNat : ℝ) + n2.node.y.toNat) / 2) *
            ((n2.node.y.toNat : ℝ) - n1.node.y.toNat)) /
        Real.sqrt (((n2.node.x.toNat : ℝ) - n1.node.x.toNat) ^ 2 +
          ((n2.node.y.toNat : ℝ) - n1.node.y.toNat) ^ 2))| < 1)

/-- R188: the colour of a pixel, from its two nearest nodes. -/
def Obligations.PixelColourFollowsItsRule : Prop :=
  ∀ (nodes : List Node) (x y : Nat) (n1 n2 : Near), twoNearest nodes x y = some (n1, n2) →
    vorPixel nodes x y = some (
      if (n2.dist - n1.dist) * (n2.dist - n1.dist) <
          4 * (((n2.node.x.toNat : Int) - n1.node.x.toNat) * ((n2.node.x.toNat : Int) - n1.node.x.toNat) +
            ((n2.node.y.toNat : Int) - n1.node.y.toNat) * ((n2.node.y.toNat : Int) - n1.node.y.toNat))
      then 0#4
      else if (x + y) % 2 = 0 then n1.node.primary else n1.node.alt)

/-- R189: over nodes in their ranges every pixel is a Color, and it is black exactly when it is a border
pixel. -/
def Obligations.EveryPixelIsAColour : Prop :=
  ∀ (nodes : List Node) (x y : Nat), nodes.all nodeInRange = true → 2 ≤ nodes.length →
    ∃ p n1 n2, vorPixel nodes x y = some p ∧ twoNearest nodes x y = some (n1, n2) ∧
      p.toNat ≤ 6 ∧ (p = 0#4 ↔ isBorder n1 n2 = true)

/-- R190: the ranges of the generator's numbers. -/
def Obligations.GeneratorNumbersStayInRange : Prop :=
  ∀ (nodes : List Node) (x y : Nat) (n1 n2 : Near), x < 800 → y < 480 →
    nodes.all nodeInRange = true → twoNearest nodes x y = some (n1, n2) →
    0 ≤ n1.dist ∧ n1.dist ≤ n2.dist ∧ n2.dist ≤ 867842 ∧
    square (n2.dist - n1.dist) ≤ 753149736964 ∧
    0 ≤ 4 * nodeDist2 n1.node n2.node ∧ 4 * nodeDist2 n1.node n2.node ≤ 3471368

/-- R191: where the two nearest nodes are at one point, `dd` and `t` are 0, there is no border, and the fill is
that of the node with the smaller index. -/
def Obligations.CoincidentNodesHaveNoBorder : Prop :=
  ∀ (nodes : List Node) (x y : Nat) (n1 n2 : Near), twoNearest nodes x y = some (n1, n2) →
    n1.node.x = n2.node.x → n1.node.y = n2.node.y →
    nodeDist2 n1.node n2.node = 0 ∧ n2.dist - n1.dist = 0 ∧
    isBorder n1 n2 = false ∧ n1.idx < n2.idx ∧ vorPixel nodes x y = some (fillColor x y n1.node)

/-- R194: cutting a run of pixels into two `GEN_CHUNK` operations changes nothing; and `GEN_SEND` gives the panel
the packed form of the pixels that `GEN_CHUNK` would give the host. -/
def Obligations.ChunkingDoesNotChangeThePattern : Prop :=
  (∀ (n m : Nat) (s t : State), n % 2 = 0 → m % 2 = 0 → exec (.genChunk (n + m)) s = .next t →
    t.res = s.res ++ [⟨.ok, 0#32⟩] →
    ∃ u v, exec (.genChunk n) s = .next u ∧ exec (.genChunk m) u = .next v ∧
      v.pixOut = t.pixOut ∧ v.genCursor = t.genCursor) ∧
  (∀ (l : Nat) (s t : State), l ≠ 0 → exec (.genSend l) s = .next t →
    t.res = s.res ++ [⟨.ok, 0#32⟩] →
    ∃ u d, exec (.genChunk (2 * l)) s = .next u ∧ t.trace = s.trace ++ [.data d] ∧
      u.pixOut = s.pixOut ++ unpackSeq d ∧ u.genCursor = t.genCursor)

/-- R194 for whole runs: any sequence of `GEN_SEND` operations that fits sends, as chunks of the lengths `ls`, the
packed pixels of the pattern from `gen_cursor` on, each once and in order, and changes nothing but the streams,
`buf` and the two counts. -/
def Obligations.AnyGeneratorChunkingSendsThePattern : Prop :=
  ∀ (ls : List Nat) (s : State) (ops : List Word),
    s.resetIn = none → s.running = none → s.seqState = .frameOpen → s.nodesValid = true →
    2 ≤ s.nodes.length →
    (∀ l ∈ ls, l ≤ s.params.chunkMax) →
    s.genCursor.toNat + 2 * ls.sum ≤ 384000 → s.bytesSent.toNat + ls.sum ≤ 192000 →
    s.opIn = ls.map (fun l => encode (.genSend l)) ++ ops →
    ∃ (ds : List (List Byte)) (m : Memory), ds.map List.length = ls ∧
      (∀ i, i < 2 * ls.sum → (unpackSeq ds.flatten)[i]? =
        vorPixel s.nodes ((s.genCursor.toNat + i) % 800) ((s.genCursor.toNat + i) / 800)) ∧
      Host.Core.run Sys2Proof.core ls.length s = .next
        { s with opIn := ops, buf := m,
                 genCursor := BitVec.ofNat 19 (s.genCursor.toNat + 2 * ls.sum),
                 bytesSent := BitVec.ofNat 18 (s.bytesSent.toNat + ls.sum),
                 trace := s.trace ++ dataEvents ds,
                 res := s.res ++ List.replicate ls.length ⟨.ok, 0#32⟩ }

/-- R104: for every chunk size the chunks of `SEND_FRAME` and of `GEN_FRAME` are of that size or the short last
one, and sum to one frame. -/
def Obligations.FrameMacrosCoverTheFrame : Prop :=
  ∀ (c : Nat), 1 ≤ c →
    (∃ q r : List Instr, sendFrame c = [.beginFrame 0] ++ (q ++ r) ++ [.endFrame 0] ∧
      q = List.replicate (192000 / c) (.sendChunk c) ∧
      (r = [] ∧ 192000 % c = 0 ∨ r = [.sendChunk (192000 % c)] ∧ 192000 % c ≠ 0) ∧
      ((q ++ r).map Instr.count).sum = 192000) ∧
    (∃ q r : List Instr, genFrame c = [.genScatter 0, .beginFrame 0] ++ (q ++ r) ++ [.endFrame 0] ∧
      q = List.replicate (192000 / c) (.genSend c) ∧
      (r = [] ∧ 192000 % c = 0 ∨ r = [.genSend (192000 % c)] ∧ 192000 % c ≠ 0) ∧
      ((q ++ r).map Instr.count).sum = 192000) ∧
    renderLive c = [.init 0] ++ sendFrame c ++ [.turnOff 0] ∧
    renderFallback c = genFrame c ++ [.turnOff 0]

/-! ## Failures and flags (spec/60_exceptions.md) -/

/-- R224 with the codes of R220: what `raise` does: the flag `ERR[k]` of code `k`, the result, the end, and nothing
else. -/
def Obligations.RaiseDoesExactlyThis : Prop :=
  (∀ (c : ErrCode) (s : State),
    raise c s = { s with running := none, err := s.err ||| (1#9 <<< (errNumber c - 1)),
                         res := s.res ++ [⟨.err c, 0#32⟩] } ∧
    (statusCode (.err c)).toNat = errNumber c) ∧
  statusCode .ok = 0#4 ∧ errNumber .illegalOp = 1 ∧ errNumber .badCount = 2 ∧ errNumber .oddLength = 3 ∧
  errNumber .invalidColor = 4 ∧ errNumber .illegalState = 5 ∧ errNumber .panelUnpowered = 6 ∧
  errNumber .frameOverrun = 7 ∧ errNumber .genNotSeeded = 8 ∧ errNumber .genOverrun = 9

/-- R222: of the causes checked before any data is taken, the first in the order of the rule is reported; with
none of them present the only failure left is `InvalidColor`. -/
def Obligations.FirstCauseInOrderIsReported : Prop :=
  ∀ (i : Instr) (s : State),
    (∀ c, firstCause i s = some c → exec i s = .next (raise c s)) ∧
    (firstCause i s = none → ∀ t c v, exec i s = .next t → t.res = s.res ++ [⟨.err c, v⟩] →
      c = .invalidColor)

/-- R221: which operation can end with which failure in the step that starts it. -/
def Obligations.FailuresAreThoseOfTheTable : Prop :=
  ∀ (i : Instr) (s t : State) (c : ErrCode) (v : Word), exec i s = .next t →
    t.res = s.res ++ [⟨.err c, v⟩] → canEndWith i c = true

/-- R225 with the qualification of R224: an operation that fails has had no effect but its flag and result and, for
`InvalidColor`, the taking of exactly its input and, for `SEND_CHUNK`, the load of `buf[0..L-1]` with it. Going on after
a wait it can fail with `InvalidColor` only, and in the same way. -/
def Obligations.FailuresArePrecise : Prop :=
  (∀ (i : Instr) (s t : State) (c : ErrCode) (v : Word), exec i s = .next t →
    t.res = s.res ++ [⟨.err c, v⟩] →
    (c ≠ .invalidColor → t = raise c s) ∧
    (c = .invalidColor →
      (∃ n, i = .pack n ∧ n ≤ s.pixIn.length ∧ t = raise c { s with pixIn := s.pixIn.drop n }) ∨
      (∃ m, i = .unpack m ∧ m ≤ s.byteIn.length ∧ t = raise c { s with byteIn := s.byteIn.drop m }) ∨
      (∃ l, i = .sendChunk l ∧ l ≤ s.byteIn.length ∧ ∃ mem : Memory,
        (∀ a, Memory.read a mem = if a < l then (s.byteIn.take l)[a]? else Memory.read a s.buf) ∧
        t = raise c { s with byteIn := s.byteIn.drop l, buf := mem }))) ∧
  (∀ (s t : State) (r : Running) (c : ErrCode) (v : Word), s.resetIn = none → s.running = some r →
    step s = .next t → t.res = s.res ++ [⟨.err c, v⟩] →
    c = .invalidColor ∧
    ((∃ n p, r = .pack n p ∧ t = raise c { s with pixIn := s.pixIn.drop (n - p.length) }) ∨
      (∃ m b, r = .unpack m b ∧ t = raise c { s with byteIn := s.byteIn.drop (m - b.length) }) ∨
      (∃ l b, r = .sendChunk l b ∧ ∃ mem : Memory,
        (b.length ≤ l → ∀ a, Memory.read a mem =
          if a < l then (b ++ s.byteIn.take (l - b.length))[a]? else Memory.read a s.buf) ∧
        t = raise c { s with byteIn := s.byteIn.drop (l - b.length), buf := mem })))

/-- R36: `ERR[k]` is set when an operation ends with status `k`, and by nothing else; no step but
the reset itself clears a flag. -/
def Obligations.ErrFlagsFollowTheStatus : Prop :=
  ∀ s t : State, s.resetIn ≠ some 0 → step s = .next t →
    (t.err = s.err ∨ ∃ c, t.err = s.err ||| errBit c ∧ t.res = s.res ++ [⟨.err c, 0#32⟩]) ∧
    ∀ c v, t.res = s.res ++ [⟨.err c, v⟩] → t.err = s.err ||| errBit c

/-- R23 and R212: no step but the reset itself clears a sticky flag. -/
def Obligations.StickyFlagsStaySet : Prop :=
  ∀ s t : State, s.resetIn ≠ some 0 → step s = .next t →
    (s.longwait = true → t.longwait = true) ∧ (s.shortframe = true → t.shortframe = true) ∧
    (∀ k, s.err.getLsbD k = true → t.err.getLsbD k = true)

/-! ## Frames and streams -/

/-- What the operations of one unit leave alone, when they start and when they go on: only `GEN_SCATTER`, `GEN_CHUNK`
and `GEN_SEND` touch the generator's state, only the sequencer's operations and `GEN_SEND` touch the sequencer's, and
only `SEND_CHUNK` and `GEN_SEND` store to `buf` (R20, R33, R35, R121, R123, R182, R192, R210, R211). -/
def Obligations.UnitsKeepTheirStateToThemselves : Prop :=
  (∀ s t : State,
    ((∃ i, exec i s = .next t ∧ ∃ c r n m, i ∈ [.nop c, .rdReg r, .pack n, .unpack m, .genScatter c, .genChunk n]) ∨
      (s.resetIn = none ∧ step s = .next t ∧ ∃ n p m b d,
        s.running ∈ [some (.pack n p), some (.unpack m b), some (.genScatter d)])) →
    t.seqState = s.seqState ∧ t.pwrEn = s.pwrEn ∧ t.rst = s.rst ∧ t.bytesSent = s.bytesSent ∧
    t.bufLive = s.bufLive ∧ t.longwait = s.longwait ∧ t.shortframe = s.shortframe ∧
    t.trace = s.trace ∧ t.busyIn = s.busyIn ∧ ∀ a, Memory.read a t.buf = Memory.read a s.buf) ∧
  (∀ s t : State,
    ((∃ i, exec i s = .next t ∧ ∃ c r n m l, i ∈ [.nop c, .rdReg r, .pack n, .unpack m, .init c, .beginFrame c,
        .sendChunk l, .endFrame c, .turnOff c]) ∨
      (s.resetIn = none ∧ step s = .next t ∧ ∃ n p m b l v u k u' k',
        s.running ∈ [some (.pack n p), some (.unpack m b), some (.sendChunk l v), some (.init u k),
          some (.endFrame u' k')])) →
    t.nodes = s.nodes ∧ t.nodesValid = s.nodesValid ∧ t.genCursor = s.genCursor ∧ t.rngIn = s.rngIn) ∧
  (∀ s t : State,
    ((∃ i, exec i s = .next t ∧ ∃ c, i ∈ [.init c, .beginFrame c, .endFrame c, .turnOff c]) ∨
      (s.resetIn = none ∧ step s = .next t ∧ ∃ u k u' k',
        s.running ∈ [some (.init u k), some (.endFrame u' k')])) →
    t.pixIn = s.pixIn ∧ t.byteIn = s.byteIn ∧ t.pixOut = s.pixOut ∧ t.byteOut = s.byteOut ∧
    ∀ a, Memory.read a t.buf = Memory.read a s.buf)

/-- R66, R67 and R74 for a step that is not the reset itself: input is taken in order from the front and never put
back, and what has been given to the host or the panel stays given (the lists are the model's, logs 3, 4 and 8). -/
def Obligations.StreamsMoveForwardOnly : Prop :=
  ∀ s t : State, s.resetIn ≠ some 0 → step s = .next t →
    t.opIn <:+ s.opIn ∧ t.pixIn <:+ s.pixIn ∧ t.byteIn <:+ s.byteIn ∧ t.rngIn <:+ s.rngIn ∧
    t.busyIn <:+ s.busyIn ∧
    s.res <+: t.res ∧ s.pixOut <+: t.pixOut ∧ s.byteOut <+: t.byteOut ∧ s.trace <+: t.trace

/-- What each move of the outside does (R41, R66, R68, R72, R264): a supplied item stands last in its stream, and
nothing else changes. The busy pin is read through `BUSY_ACTIVE_LEVEL` (R12; log 15). That the items wait in queues of
State is the model's choice: the words to come (logs 9 and 13), the pixels and bytes (log 3), the draws (log 5) and the
answers to polls that are still to come (log 4). -/
def Obligations.InputsOnlyJoinTheirStream : Prop :=
  ∀ s : State,
    (∀ w, deliver (.opWord w) s = { s with opIn := s.opIn ++ [w] }) ∧
    (∀ p, deliver (.pixel p) s = { s with pixIn := s.pixIn ++ [p] }) ∧
    (∀ b, deliver (.byte b) s = { s with byteIn := s.byteIn ++ [b] }) ∧
    (∀ v, deliver (.draw v) s = { s with rngIn := s.rngIn ++ [v] }) ∧
    (∀ level, deliver (.busyPin level) s =
      { s with busyIn := s.busyIn ++ [decide (level = s.params.busyActiveLevel)] })

/-- R8 to R12 and R40: nothing writes the implementation parameters (that State holds them is log 1; that
reset keeps them is log 10). -/
def Obligations.ParametersNeverChange : Prop :=
  (∀ s t : State, step s = .next t → t.params = s.params) ∧
  ∀ (i : Input) (s : State), (deliver i s).params = s.params

/-- R61: `MemWrite` then `MemRead` inside the buffer, and what the write leaves alone. That an access past `CHUNK_MAX`,
which rule R61 says does not happen, is a fault is the model's choice (log 6). -/
def Obligations.BufferReadsWhatWasWritten : Prop :=
  ∀ (a : Nat) (v : List Byte) (s : State),
    (a + v.length ≤ s.params.chunkMax →
      ∃ t, memWrite a v s = .ok t ∧ memRead a v.length t = .ok v ∧
        (∀ b, b < a ∨ a + v.length ≤ b → Memory.read b t.buf = Memory.read b s.buf) ∧
        { t with buf := s.buf } = s ∧ (Memory.wf s.buf = true → Memory.wf t.buf = true)) ∧
    (s.params.chunkMax < a + v.length → ∃ f, memWrite a v s = .error f ∧ memRead a v.length s = .error f)

/-! ## Reset (spec/10_state.md R46, spec/70_reset_and_hazards.md R250 to R252) -/

/-- The values that rule R46 gives for reset, and `STATUS` reads 0. `buf` and the node table hold no value
(logs 6 and 7). -/
def Obligations.ResetValues : Prop :=
  State.reset.seqState = .uninitialized ∧ State.reset.pwrEn = false ∧ State.reset.rst = false ∧
  State.reset.bytesSent = 0#18 ∧ State.reset.bufLive = false ∧ State.reset.longwait = false ∧
  State.reset.shortframe = false ∧ State.reset.nodesValid = false ∧ State.reset.genCursor = 0#19 ∧
  State.reset.err = 0#9 ∧ State.reset.running = none ∧
  (∀ a, Memory.read a State.reset.buf = none) ∧ State.reset.nodes = [] ∧
  statusReg State.reset = 0#32

/-- R80 and R250 to R252: a reset at any moment gives the reset state of the same hardware; the running operation, every
item and every result are gone and the trace is empty (that the parameters stay is log 10). It may fall between two
steps or inside one, after any action of it (that the moment is counted in actions of the block is log 10): the step
that it cuts shows what the operation had produced by then, a beginning of what the whole step produces, and no result;
every beginning of the step's panel events can be what it had produced; and a reset that comes after the step does not
touch it. -/
def Obligations.ResetDiscardsEverything : Prop :=
  (∀ s : State, deliver .reset s = { State.reset with params := s.params } ∧
    (deliver .reset s).running = none ∧ (deliver .reset s).opIn = [] ∧ (deliver .reset s).pixIn = [] ∧
    (deliver .reset s).byteIn = [] ∧ (deliver .reset s).rngIn = [] ∧ (deliver .reset s).res = [] ∧
    (deliver .reset s).trace = [] ∧ statusReg (deliver .reset s) = 0#32) ∧
  (∀ (s : State) (n : Nat),
    (s.resetIn = none → deliver (.resetAfter n) s = { s with resetIn := some n }) ∧
    (∀ m, s.resetIn = some m → deliver (.resetAfter n) s = { s with resetIn := some (min m n) })) ∧
  (∀ s : State, s.resetIn = some 0 → step s = .next (deliver .reset s)) ∧
  (∀ s t : State, s.resetIn = none → step s = .next t →
    ∃ m, (∀ n, m ≤ n → 0 < n → step { s with resetIn := some n } = .next { t with resetIn := some (n - m) }) ∧
      (∀ n, 0 < n → n < m → ∃ u, step { s with resetIn := some n } = .next u ∧ u.resetIn = some 0 ∧
        u.running ≠ none ∧ u.res = s.res ∧ s.trace <+: u.trace ∧ u.trace <+: t.trace ∧
        s.pixOut <+: u.pixOut ∧ u.pixOut <+: t.pixOut ∧ s.byteOut <+: u.byteOut ∧ u.byteOut <+: t.byteOut) ∧
      ∀ shown, s.trace <+: shown → shown <+: t.trace →
        ∃ n u, 0 < n ∧ step { s with resetIn := some n } = .next u ∧ u.trace = shown)

/-! ## The invariant (spec/10_state.md R25) -/

/-- The reset state meets the invariant. -/
def Obligations.ResetMeetsTheInvariant : Prop := State.reset.Inv

/-- Every step keeps the invariant: rule R25 with what it becomes while an operation is in flight (R22, R37),
the ranges of the counts and of the nodes (R28, R33, R35), and the canonical form of `buf`. Rule R25 is not asked of the
moment at which reset cuts an operation (log 10). -/
def Obligations.EveryStepKeepsTheInvariant : Prop :=
  ∀ s t : State, s.Inv → step s = .next t → t.Inv

/-- Whatever the host, the random source, the panel or the reset input does, the invariant stays. -/
def Obligations.EveryInputKeepsTheInvariant : Prop :=
  ∀ (i : Input) (s : State), s.Inv → (deliver i s).Inv

/-- From a state that meets the invariant no step faults and none is refused. -/
def Obligations.InvariantStatesNeverStop : Prop :=
  ∀ s : State, s.Inv → s.StepsOn
end

