-- ==== Sys2Proof/Laws/Memory.lean ====
section
/-! SUPPORT. The transaction buffer (R61): a read after a write, what a write leaves alone, and that every operation keeps
the canonical form. -/

namespace Sys2Proof.Machine

@[simp] theorem read_nil (a : Nat) : Memory.read a [] = none := rfl

theorem read_write_same (a : Nat) (v : Byte) (m : Memory) :
    Memory.read a (Memory.write a v m) = some v := by
  induction m with
  | nil => simp [Memory.write, Memory.read]
  | cons c rest ih =>
    obtain ⟨b, w⟩ := c
    simp only [Memory.write]
    split
    · simp [Memory.read]
    · split
      · simp [Memory.read]
      · have : b ≠ a := by omega
        simp [Memory.read, this, ih]

theorem read_write_other {a c : Nat} (v : Byte) (m : Memory) (h : c ≠ a) :
    Memory.read c (Memory.write a v m) = Memory.read c m := by
  induction m with
  | nil => simp [Memory.write, Memory.read, Ne.symm h]
  | cons e rest ih =>
    obtain ⟨b, w⟩ := e
    simp only [Memory.write]
    split
    · simp [Memory.read, Ne.symm h]
    · split
      · rename_i _ hab
        subst hab
        simp [Memory.read, Ne.symm h]
      · simp [Memory.read, ih]

theorem read_writeAll_outside {c : Nat} (vs : List Byte) :
    ∀ (a : Nat) (m : Memory), (c < a ∨ a + vs.length ≤ c) →
      Memory.read c (Memory.writeAll a vs m) = Memory.read c m := by
  induction vs with
  | nil => intro a m _; rfl
  | cons v vs ih =>
    intro a m h
    simp only [List.length_cons] at h
    simp only [Memory.writeAll]
    rw [ih (a + 1) _ (by omega), read_write_other _ _ (by omega)]

theorem readAll_writeAll (vs : List Byte) :
    ∀ (a : Nat) (m : Memory), Memory.readAll a vs.length (Memory.writeAll a vs m) = .ok vs := by
  induction vs with
  | nil => intro a m; rfl
  | cons v vs ih =>
    intro a m
    have h : Memory.read a (Memory.writeAll (a + 1) vs (Memory.write a v m)) = some v := by
      rw [read_writeAll_outside _ _ _ (by omega), read_write_same]
    simp [Memory.readAll, Memory.writeAll, h, ih]

theorem risingFrom_write (a : Nat) (v : Byte) (m : Memory) :
    ∀ lo, lo ≤ a → Memory.risingFrom lo m = true → Memory.risingFrom lo (Memory.write a v m) = true := by
  induction m with
  | nil => intro lo h _; simp [Memory.write, Memory.risingFrom, h]
  | cons c rest ih =>
    obtain ⟨b, w⟩ := c
    intro lo h hm
    simp only [Memory.risingFrom, Bool.and_eq_true, decide_eq_true_eq] at hm
    simp only [Memory.write]
    split
    · simp only [Memory.risingFrom, Bool.and_eq_true, decide_eq_true_eq]
      exact ⟨h, by omega, hm.2⟩
    · split
      · rename_i _ hab
        subst hab
        simp [Memory.risingFrom, h, hm.2]
      · simp only [Memory.risingFrom, Bool.and_eq_true, decide_eq_true_eq]
        exact ⟨hm.1, ih (b + 1) (by omega) hm.2⟩

theorem write_keeps_wf (a : Nat) (v : Byte) {m : Memory} (h : Memory.wf m = true) :
    Memory.wf (Memory.write a v m) = true :=
  risingFrom_write a v m 0 (Nat.zero_le _) h

theorem writeAll_keeps_wf (vs : List Byte) :
    ∀ (a : Nat) {m : Memory}, Memory.wf m = true → Memory.wf (Memory.writeAll a vs m) = true := by
  induction vs with
  | nil => intro a m h; exact h
  | cons v vs ih => intro a m h; exact ih (a + 1) (write_keeps_wf a v h)

theorem write_keeps_within {n a : Nat} (v : Byte) {m : Memory} (ha : a < n)
    (h : Memory.within n m = true) : Memory.within n (Memory.write a v m) = true := by
  induction m with
  | nil => simp [Memory.write, Memory.within, ha]
  | cons c rest ih =>
    obtain ⟨b, w⟩ := c
    simp only [Memory.within, List.all_cons, Bool.and_eq_true, decide_eq_true_eq] at h ih
    simp only [Memory.write]
    split
    · simp [Memory.within, ha, h.1] ; simpa using h.2
    · split
      · simp [Memory.within, ha] ; simpa using h.2
      · simp only [Memory.within, List.all_cons, Bool.and_eq_true, decide_eq_true_eq]
        exact ⟨h.1, ih h.2⟩

theorem writeAll_keeps_within {n : Nat} (vs : List Byte) :
    ∀ (a : Nat) {m : Memory}, a + vs.length ≤ n → Memory.within n m = true →
      Memory.within n (Memory.writeAll a vs m) = true := by
  induction vs with
  | nil => intro a m _ h; exact h
  | cons v vs ih =>
    intro a m hl h
    simp only [List.length_cons] at hl
    exact ih (a + 1) (by omega) (write_keeps_within v (by omega) h)

/-- All that `MemWrite` can do: it needs the bytes to exist, and then it writes them and nothing else. -/
theorem memWrite_cases (a : Nat) (v : List Byte) (s : State) :
    (a + v.length ≤ s.params.chunkMax ∧
        memWrite a v s = .ok { s with buf := Memory.writeAll a v s.buf }) ∨
      (s.params.chunkMax < a + v.length ∧
        memWrite a v s = .error (.bufNoSuchByte (max a s.params.chunkMax))) := by
  unfold memWrite
  split
  · exact .inl ⟨‹_›, rfl⟩
  · exact .inr ⟨by omega, rfl⟩

/-- `MemRead` right after `MemWrite` of the same bytes gives them back. -/
theorem memRead_after_memWrite {a : Nat} {v : List Byte} {s t : State} (h : memWrite a v s = .ok t) :
    memRead a v.length t = .ok v := by
  rcases memWrite_cases a v s with ⟨hl, e⟩ | ⟨_, e⟩
  · rw [e] at h
    cases h
    simp [memRead, hl, readAll_writeAll]
  · rw [e] at h
    cases h

end Sys2Proof.Machine
end

