-- ==== Sys2Proof/Laws/Ops.lean ====
section
/-! SUPPORT. What the shared functions can do: the payload (R66), packing (R120), the generator's pixels (R192). -/

namespace Sys2Proof.Machine

/-! ### The payload of an operation (R66) -/

/-- Nothing is lost and the order is kept. -/
theorem payload_append {α : Type} (need : Nat) (taken stream : List α) :
    payload need taken stream ++ stream.drop (missing need taken) = taken ++ stream := by
  simp [payload]

/-- An operation never holds more items than it needs. -/
theorem payload_length_le {α : Type} {need : Nat} {taken : List α} (stream : List α)
    (h : taken.length ≤ need) : (payload need taken stream).length ≤ need := by
  simp only [payload, missing, List.length_append, List.length_take]
  omega

/-- What an operation that starts holds. -/
@[simp] theorem payload_nil {α : Type} (need : Nat) (stream : List α) :
    payload need [] stream = stream.take need := by simp [payload, missing]

@[simp] theorem missing_nil {α : Type} (need : Nat) : missing need ([] : List α) = need := by simp [missing]

/-- Items that arrive while an operation waits are taken as if they had been there from the start (R66). -/
theorem payload_late {α : Type} {need : Nat} {held : List α} (late : List α) (h : held.length < need) :
    payload need held late = payload need [] (held ++ late) ∧
      late.drop (missing need held) = (held ++ late).drop (missing need ([] : List α)) := by
  have h' := Nat.le_of_lt h
  simp [payload, missing, List.take_append, List.drop_append, List.take_of_length_le h',
    List.drop_of_length_le h']

/-! ### Packing (R120) -/

/-- A pixel sequence of length `2 * len` packs into `len` bytes. -/
theorem packSeq_length : ∀ (p : List Pixel), (packSeq p).length = p.length / 2
  | [] => by simp [packSeq]
  | [_] => by simp [packSeq]
  | _ :: _ :: rest => by
    simp only [packSeq, List.length_cons, packSeq_length rest]
    omega

theorem unpackSeq_length (b : List Byte) : (unpackSeq b).length = 2 * b.length := by
  induction b with
  | nil => rfl
  | cons v b ih => simp only [unpackSeq, List.length_cons, ih]; omega

@[simp] theorem highNibble_packPair (a b : Pixel) : highNibble (packPair a b) = a := by
  revert a b; decide

@[simp] theorem lowNibble_packPair (a b : Pixel) : lowNibble (packPair a b) = b := by
  revert a b; decide

@[simp] theorem packPair_nibbles (v : Byte) : packPair (highNibble v) (lowNibble v) = v := by
  revert v; decide

/-! ### The generator (R184, R192) -/

/-- Once an entry is found it stays found. -/
theorem scanFrom_first_isSome (x y : Nat) (l : List Node) :
    ∀ (i : Nat) (a : Scan), a.first.isSome = true → (scanFrom x y i l a).first.isSome = true := by
  induction l with
  | nil => intro i a h; exact h
  | cons nd l ih =>
    intro i a h
    apply ih
    unfold scanOne
    split
    · rfl
    · split
      · rfl
      · split
        · rfl
        · split <;> simp_all

/-- Once both entries are found they stay found. -/
theorem scanFrom_second_isSome (x y : Nat) (l : List Node) :
    ∀ (i : Nat) (a : Scan), a.first.isSome = true → a.second.isSome = true →
      (scanFrom x y i l a).second.isSome = true := by
  induction l with
  | nil => intro i a _ h; exact h
  | cons nd l ih =>
    intro i a h1 h2
    apply ih
    all_goals
      obtain ⟨f, g⟩ := a
      cases f <;> cases g <;> simp at h1 h2
      simp only [scanOne]
      split
      · rfl
      · split <;> rfl

/-- With two entries or more there are two nearest (R184). -/
theorem twoNearest_isSome {nodes : List Node} (x y : Nat) (h : 2 ≤ nodes.length) :
    ∃ n1 n2, twoNearest nodes x y = some (n1, n2) := by
  match nodes, h with
  | nd0 :: nd1 :: rest, _ =>
    unfold twoNearest
    simp only [scanFrom]
    have hb : ∀ c d : Near, ((scanOne d (scanOne c ⟨none, none⟩)).first.isSome = true ∧
        (scanOne d (scanOne c ⟨none, none⟩)).second.isSome = true) := by
      intro c d
      simp only [scanOne]
      split <;> simp
    have h1 := scanFrom_first_isSome x y rest 2 _ (hb ⟨0, dist2 x y nd0, nd0⟩ ⟨1, dist2 x y nd1, nd1⟩).1
    have h2 := scanFrom_second_isSome x y rest 2 _ (hb ⟨0, dist2 x y nd0, nd0⟩ ⟨1, dist2 x y nd1, nd1⟩).1
      (hb ⟨0, dist2 x y nd0, nd0⟩ ⟨1, dist2 x y nd1, nd1⟩).2
    obtain ⟨n1, e1⟩ := Option.isSome_iff_exists.mp h1
    obtain ⟨n2, e2⟩ := Option.isSome_iff_exists.mp h2
    exact ⟨n1, n2, by simp only [Nat.zero_add, e1, e2]⟩

/-- With two entries or more every pixel has a colour (R188). -/
theorem framePixel_isSome {nodes : List Node} (k : Nat) (h : 2 ≤ nodes.length) :
    ∃ p, framePixel nodes k = some p := by
  obtain ⟨n1, n2, e⟩ := twoNearest_isSome (k % Config.width) (k / Config.width) h
  unfold framePixel vorPixel
  simp only [e]
  exact ⟨_, rfl⟩

/-- With two entries or more the generator gives every pixel asked for (R192). -/
theorem genPixels_isSome {nodes : List Node} (h : 2 ≤ nodes.length) :
    ∀ (n k : Nat), ∃ p, genPixels nodes k n = some p := by
  intro n
  induction n with
  | zero => intro k; exact ⟨[], rfl⟩
  | succ n ih =>
    intro k
    obtain ⟨p, hp⟩ := framePixel_isSome (nodes := nodes) k h
    obtain ⟨ps, hps⟩ := ih (k + 1)
    exact ⟨p :: ps, by simp only [genPixels, hp, hps]⟩

/-- The generator gives exactly as many pixels as are asked for. -/
theorem genPixels_length {nodes : List Node} :
    ∀ (n k : Nat) {p : List Pixel}, genPixels nodes k n = some p → p.length = n := by
  intro n
  induction n with
  | zero => intro k p h; cases h; rfl
  | succ n ih =>
    intro k p h
    simp only [genPixels] at h
    split at h
    · cases h
      rw [List.length_cons, ih (k + 1) ‹_›]
    · cases h

end Sys2Proof.Machine
end

