-- ==== Sys2Proof/Laws/State.lean ====
section
/-! SUPPORT. What each action does to each field of State: one lemma per field per action. -/

namespace Sys2Proof.Machine

/-! ### complete -/

@[simp] theorem complete_params (v : Word) (s : State) :
    (complete v s).params = s.params := rfl

@[simp] theorem complete_seqState (v : Word) (s : State) :
    (complete v s).seqState = s.seqState := rfl

@[simp] theorem complete_pwrEn (v : Word) (s : State) :
    (complete v s).pwrEn = s.pwrEn := rfl

@[simp] theorem complete_rst (v : Word) (s : State) :
    (complete v s).rst = s.rst := rfl

@[simp] theorem complete_bytesSent (v : Word) (s : State) :
    (complete v s).bytesSent = s.bytesSent := rfl

@[simp] theorem complete_bufLive (v : Word) (s : State) :
    (complete v s).bufLive = s.bufLive := rfl

@[simp] theorem complete_buf (v : Word) (s : State) :
    (complete v s).buf = s.buf := rfl

@[simp] theorem complete_longwait (v : Word) (s : State) :
    (complete v s).longwait = s.longwait := rfl

@[simp] theorem complete_shortframe (v : Word) (s : State) :
    (complete v s).shortframe = s.shortframe := rfl

@[simp] theorem complete_nodes (v : Word) (s : State) :
    (complete v s).nodes = s.nodes := rfl

@[simp] theorem complete_nodesValid (v : Word) (s : State) :
    (complete v s).nodesValid = s.nodesValid := rfl

@[simp] theorem complete_genCursor (v : Word) (s : State) :
    (complete v s).genCursor = s.genCursor := rfl

@[simp] theorem complete_err (v : Word) (s : State) :
    (complete v s).err = s.err := rfl

@[simp] theorem complete_running (v : Word) (s : State) :
    (complete v s).running = none := rfl

@[simp] theorem complete_opIn (v : Word) (s : State) :
    (complete v s).opIn = s.opIn := rfl

@[simp] theorem complete_pixIn (v : Word) (s : State) :
    (complete v s).pixIn = s.pixIn := rfl

@[simp] theorem complete_byteIn (v : Word) (s : State) :
    (complete v s).byteIn = s.byteIn := rfl

@[simp] theorem complete_rngIn (v : Word) (s : State) :
    (complete v s).rngIn = s.rngIn := rfl

@[simp] theorem complete_busyIn (v : Word) (s : State) :
    (complete v s).busyIn = s.busyIn := rfl

@[simp] theorem complete_resetIn (v : Word) (s : State) :
    (complete v s).resetIn = s.resetIn := rfl

@[simp] theorem complete_res (v : Word) (s : State) :
    (complete v s).res = s.res ++ [⟨.ok, v⟩] := rfl

@[simp] theorem complete_pixOut (v : Word) (s : State) :
    (complete v s).pixOut = s.pixOut := rfl

@[simp] theorem complete_byteOut (v : Word) (s : State) :
    (complete v s).byteOut = s.byteOut := rfl

@[simp] theorem complete_trace (v : Word) (s : State) :
    (complete v s).trace = s.trace := rfl


/-! ### raise -/

@[simp] theorem raise_params (c : ErrCode) (s : State) :
    (raise c s).params = s.params := rfl

@[simp] theorem raise_seqState (c : ErrCode) (s : State) :
    (raise c s).seqState = s.seqState := rfl

@[simp] theorem raise_pwrEn (c : ErrCode) (s : State) :
    (raise c s).pwrEn = s.pwrEn := rfl

@[simp] theorem raise_rst (c : ErrCode) (s : State) :
    (raise c s).rst = s.rst := rfl

@[simp] theorem raise_bytesSent (c : ErrCode) (s : State) :
    (raise c s).bytesSent = s.bytesSent := rfl

@[simp] theorem raise_bufLive (c : ErrCode) (s : State) :
    (raise c s).bufLive = s.bufLive := rfl

@[simp] theorem raise_buf (c : ErrCode) (s : State) :
    (raise c s).buf = s.buf := rfl

@[simp] theorem raise_longwait (c : ErrCode) (s : State) :
    (raise c s).longwait = s.longwait := rfl

@[simp] theorem raise_shortframe (c : ErrCode) (s : State) :
    (raise c s).shortframe = s.shortframe := rfl

@[simp] theorem raise_nodes (c : ErrCode) (s : State) :
    (raise c s).nodes = s.nodes := rfl

@[simp] theorem raise_nodesValid (c : ErrCode) (s : State) :
    (raise c s).nodesValid = s.nodesValid := rfl

@[simp] theorem raise_genCursor (c : ErrCode) (s : State) :
    (raise c s).genCursor = s.genCursor := rfl

@[simp] theorem raise_err (c : ErrCode) (s : State) :
    (raise c s).err = setErr c s.err := rfl

@[simp] theorem raise_running (c : ErrCode) (s : State) :
    (raise c s).running = none := rfl

@[simp] theorem raise_opIn (c : ErrCode) (s : State) :
    (raise c s).opIn = s.opIn := rfl

@[simp] theorem raise_pixIn (c : ErrCode) (s : State) :
    (raise c s).pixIn = s.pixIn := rfl

@[simp] theorem raise_byteIn (c : ErrCode) (s : State) :
    (raise c s).byteIn = s.byteIn := rfl

@[simp] theorem raise_rngIn (c : ErrCode) (s : State) :
    (raise c s).rngIn = s.rngIn := rfl

@[simp] theorem raise_busyIn (c : ErrCode) (s : State) :
    (raise c s).busyIn = s.busyIn := rfl

@[simp] theorem raise_resetIn (c : ErrCode) (s : State) :
    (raise c s).resetIn = s.resetIn := rfl

@[simp] theorem raise_res (c : ErrCode) (s : State) :
    (raise c s).res = s.res ++ [⟨.err c, 0#32⟩] := rfl

@[simp] theorem raise_pixOut (c : ErrCode) (s : State) :
    (raise c s).pixOut = s.pixOut := rfl

@[simp] theorem raise_byteOut (c : ErrCode) (s : State) :
    (raise c s).byteOut = s.byteOut := rfl

@[simp] theorem raise_trace (c : ErrCode) (s : State) :
    (raise c s).trace = s.trace := rfl


/-! ### stand -/

@[simp] theorem stand_params (r : Running) (s : State) :
    (stand r s).params = s.params := rfl

@[simp] theorem stand_seqState (r : Running) (s : State) :
    (stand r s).seqState = s.seqState := rfl

@[simp] theorem stand_pwrEn (r : Running) (s : State) :
    (stand r s).pwrEn = s.pwrEn := rfl

@[simp] theorem stand_rst (r : Running) (s : State) :
    (stand r s).rst = s.rst := rfl

@[simp] theorem stand_bytesSent (r : Running) (s : State) :
    (stand r s).bytesSent = s.bytesSent := rfl

@[simp] theorem stand_bufLive (r : Running) (s : State) :
    (stand r s).bufLive = s.bufLive := rfl

@[simp] theorem stand_buf (r : Running) (s : State) :
    (stand r s).buf = s.buf := rfl

@[simp] theorem stand_longwait (r : Running) (s : State) :
    (stand r s).longwait = s.longwait := rfl

@[simp] theorem stand_shortframe (r : Running) (s : State) :
    (stand r s).shortframe = s.shortframe := rfl

@[simp] theorem stand_nodes (r : Running) (s : State) :
    (stand r s).nodes = s.nodes := rfl

@[simp] theorem stand_nodesValid (r : Running) (s : State) :
    (stand r s).nodesValid = s.nodesValid := rfl

@[simp] theorem stand_genCursor (r : Running) (s : State) :
    (stand r s).genCursor = s.genCursor := rfl

@[simp] theorem stand_err (r : Running) (s : State) :
    (stand r s).err = s.err := rfl

@[simp] theorem stand_running (r : Running) (s : State) :
    (stand r s).running = some r := rfl

@[simp] theorem stand_opIn (r : Running) (s : State) :
    (stand r s).opIn = s.opIn := rfl

@[simp] theorem stand_pixIn (r : Running) (s : State) :
    (stand r s).pixIn = s.pixIn := rfl

@[simp] theorem stand_byteIn (r : Running) (s : State) :
    (stand r s).byteIn = s.byteIn := rfl

@[simp] theorem stand_rngIn (r : Running) (s : State) :
    (stand r s).rngIn = s.rngIn := rfl

@[simp] theorem stand_busyIn (r : Running) (s : State) :
    (stand r s).busyIn = s.busyIn := rfl

@[simp] theorem stand_resetIn (r : Running) (s : State) :
    (stand r s).resetIn = s.resetIn := rfl

@[simp] theorem stand_res (r : Running) (s : State) :
    (stand r s).res = s.res := rfl

@[simp] theorem stand_pixOut (r : Running) (s : State) :
    (stand r s).pixOut = s.pixOut := rfl

@[simp] theorem stand_byteOut (r : Running) (s : State) :
    (stand r s).byteOut = s.byteOut := rfl

@[simp] theorem stand_trace (r : Running) (s : State) :
    (stand r s).trace = s.trace := rfl


/-! ### storeBuf -/

@[simp] theorem storeBuf_params (a : Nat) (v : List Byte) (s : State) :
    (storeBuf a v s).params = s.params := rfl

@[simp] theorem storeBuf_seqState (a : Nat) (v : List Byte) (s : State) :
    (storeBuf a v s).seqState = s.seqState := rfl

@[simp] theorem storeBuf_pwrEn (a : Nat) (v : List Byte) (s : State) :
    (storeBuf a v s).pwrEn = s.pwrEn := rfl

@[simp] theorem storeBuf_rst (a : Nat) (v : List Byte) (s : State) :
    (storeBuf a v s).rst = s.rst := rfl

@[simp] theorem storeBuf_bytesSent (a : Nat) (v : List Byte) (s : State) :
    (storeBuf a v s).bytesSent = s.bytesSent := rfl

@[simp] theorem storeBuf_bufLive (a : Nat) (v : List Byte) (s : State) :
    (storeBuf a v s).bufLive = s.bufLive := rfl

@[simp] theorem storeBuf_buf (a : Nat) (v : List Byte) (s : State) :
    (storeBuf a v s).buf = Memory.writeAll a v s.buf := rfl

@[simp] theorem storeBuf_longwait (a : Nat) (v : List Byte) (s : State) :
    (storeBuf a v s).longwait = s.longwait := rfl

@[simp] theorem storeBuf_shortframe (a : Nat) (v : List Byte) (s : State) :
    (storeBuf a v s).shortframe = s.shortframe := rfl

@[simp] theorem storeBuf_nodes (a : Nat) (v : List Byte) (s : State) :
    (storeBuf a v s).nodes = s.nodes := rfl

@[simp] theorem storeBuf_nodesValid (a : Nat) (v : List Byte) (s : State) :
    (storeBuf a v s).nodesValid = s.nodesValid := rfl

@[simp] theorem storeBuf_genCursor (a : Nat) (v : List Byte) (s : State) :
    (storeBuf a v s).genCursor = s.genCursor := rfl

@[simp] theorem storeBuf_err (a : Nat) (v : List Byte) (s : State) :
    (storeBuf a v s).err = s.err := rfl

@[simp] theorem storeBuf_running (a : Nat) (v : List Byte) (s : State) :
    (storeBuf a v s).running = s.running := rfl

@[simp] theorem storeBuf_opIn (a : Nat) (v : List Byte) (s : State) :
    (storeBuf a v s).opIn = s.opIn := rfl

@[simp] theorem storeBuf_pixIn (a : Nat) (v : List Byte) (s : State) :
    (storeBuf a v s).pixIn = s.pixIn := rfl

@[simp] theorem storeBuf_byteIn (a : Nat) (v : List Byte) (s : State) :
    (storeBuf a v s).byteIn = s.byteIn := rfl

@[simp] theorem storeBuf_rngIn (a : Nat) (v : List Byte) (s : State) :
    (storeBuf a v s).rngIn = s.rngIn := rfl

@[simp] theorem storeBuf_busyIn (a : Nat) (v : List Byte) (s : State) :
    (storeBuf a v s).busyIn = s.busyIn := rfl

@[simp] theorem storeBuf_resetIn (a : Nat) (v : List Byte) (s : State) :
    (storeBuf a v s).resetIn = s.resetIn := rfl

@[simp] theorem storeBuf_res (a : Nat) (v : List Byte) (s : State) :
    (storeBuf a v s).res = s.res := rfl

@[simp] theorem storeBuf_pixOut (a : Nat) (v : List Byte) (s : State) :
    (storeBuf a v s).pixOut = s.pixOut := rfl

@[simp] theorem storeBuf_byteOut (a : Nat) (v : List Byte) (s : State) :
    (storeBuf a v s).byteOut = s.byteOut := rfl

@[simp] theorem storeBuf_trace (a : Nat) (v : List Byte) (s : State) :
    (storeBuf a v s).trace = s.trace := rfl


/-! ### takePixels -/

@[simp] theorem takePixels_params (n : Nat) (s : State) :
    (takePixels n s).params = s.params := rfl

@[simp] theorem takePixels_seqState (n : Nat) (s : State) :
    (takePixels n s).seqState = s.seqState := rfl

@[simp] theorem takePixels_pwrEn (n : Nat) (s : State) :
    (takePixels n s).pwrEn = s.pwrEn := rfl

@[simp] theorem takePixels_rst (n : Nat) (s : State) :
    (takePixels n s).rst = s.rst := rfl

@[simp] theorem takePixels_bytesSent (n : Nat) (s : State) :
    (takePixels n s).bytesSent = s.bytesSent := rfl

@[simp] theorem takePixels_bufLive (n : Nat) (s : State) :
    (takePixels n s).bufLive = s.bufLive := rfl

@[simp] theorem takePixels_buf (n : Nat) (s : State) :
    (takePixels n s).buf = s.buf := rfl

@[simp] theorem takePixels_longwait (n : Nat) (s : State) :
    (takePixels n s).longwait = s.longwait := rfl

@[simp] theorem takePixels_shortframe (n : Nat) (s : State) :
    (takePixels n s).shortframe = s.shortframe := rfl

@[simp] theorem takePixels_nodes (n : Nat) (s : State) :
    (takePixels n s).nodes = s.nodes := rfl

@[simp] theorem takePixels_nodesValid (n : Nat) (s : State) :
    (takePixels n s).nodesValid = s.nodesValid := rfl

@[simp] theorem takePixels_genCursor (n : Nat) (s : State) :
    (takePixels n s).genCursor = s.genCursor := rfl

@[simp] theorem takePixels_err (n : Nat) (s : State) :
    (takePixels n s).err = s.err := rfl

@[simp] theorem takePixels_running (n : Nat) (s : State) :
    (takePixels n s).running = s.running := rfl

@[simp] theorem takePixels_opIn (n : Nat) (s : State) :
    (takePixels n s).opIn = s.opIn := rfl

@[simp] theorem takePixels_pixIn (n : Nat) (s : State) :
    (takePixels n s).pixIn = s.pixIn.drop n := rfl

@[simp] theorem takePixels_byteIn (n : Nat) (s : State) :
    (takePixels n s).byteIn = s.byteIn := rfl

@[simp] theorem takePixels_rngIn (n : Nat) (s : State) :
    (takePixels n s).rngIn = s.rngIn := rfl

@[simp] theorem takePixels_busyIn (n : Nat) (s : State) :
    (takePixels n s).busyIn = s.busyIn := rfl

@[simp] theorem takePixels_resetIn (n : Nat) (s : State) :
    (takePixels n s).resetIn = s.resetIn := rfl

@[simp] theorem takePixels_res (n : Nat) (s : State) :
    (takePixels n s).res = s.res := rfl

@[simp] theorem takePixels_pixOut (n : Nat) (s : State) :
    (takePixels n s).pixOut = s.pixOut := rfl

@[simp] theorem takePixels_byteOut (n : Nat) (s : State) :
    (takePixels n s).byteOut = s.byteOut := rfl

@[simp] theorem takePixels_trace (n : Nat) (s : State) :
    (takePixels n s).trace = s.trace := rfl


/-! ### takeBytes -/

@[simp] theorem takeBytes_params (n : Nat) (s : State) :
    (takeBytes n s).params = s.params := rfl

@[simp] theorem takeBytes_seqState (n : Nat) (s : State) :
    (takeBytes n s).seqState = s.seqState := rfl

@[simp] theorem takeBytes_pwrEn (n : Nat) (s : State) :
    (takeBytes n s).pwrEn = s.pwrEn := rfl

@[simp] theorem takeBytes_rst (n : Nat) (s : State) :
    (takeBytes n s).rst = s.rst := rfl

@[simp] theorem takeBytes_bytesSent (n : Nat) (s : State) :
    (takeBytes n s).bytesSent = s.bytesSent := rfl

@[simp] theorem takeBytes_bufLive (n : Nat) (s : State) :
    (takeBytes n s).bufLive = s.bufLive := rfl

@[simp] theorem takeBytes_buf (n : Nat) (s : State) :
    (takeBytes n s).buf = s.buf := rfl

@[simp] theorem takeBytes_longwait (n : Nat) (s : State) :
    (takeBytes n s).longwait = s.longwait := rfl

@[simp] theorem takeBytes_shortframe (n : Nat) (s : State) :
    (takeBytes n s).shortframe = s.shortframe := rfl

@[simp] theorem takeBytes_nodes (n : Nat) (s : State) :
    (takeBytes n s).nodes = s.nodes := rfl

@[simp] theorem takeBytes_nodesValid (n : Nat) (s : State) :
    (takeBytes n s).nodesValid = s.nodesValid := rfl

@[simp] theorem takeBytes_genCursor (n : Nat) (s : State) :
    (takeBytes n s).genCursor = s.genCursor := rfl

@[simp] theorem takeBytes_err (n : Nat) (s : State) :
    (takeBytes n s).err = s.err := rfl

@[simp] theorem takeBytes_running (n : Nat) (s : State) :
    (takeBytes n s).running = s.running := rfl

@[simp] theorem takeBytes_opIn (n : Nat) (s : State) :
    (takeBytes n s).opIn = s.opIn := rfl

@[simp] theorem takeBytes_pixIn (n : Nat) (s : State) :
    (takeBytes n s).pixIn = s.pixIn := rfl

@[simp] theorem takeBytes_byteIn (n : Nat) (s : State) :
    (takeBytes n s).byteIn = s.byteIn.drop n := rfl

@[simp] theorem takeBytes_rngIn (n : Nat) (s : State) :
    (takeBytes n s).rngIn = s.rngIn := rfl

@[simp] theorem takeBytes_busyIn (n : Nat) (s : State) :
    (takeBytes n s).busyIn = s.busyIn := rfl

@[simp] theorem takeBytes_resetIn (n : Nat) (s : State) :
    (takeBytes n s).resetIn = s.resetIn := rfl

@[simp] theorem takeBytes_res (n : Nat) (s : State) :
    (takeBytes n s).res = s.res := rfl

@[simp] theorem takeBytes_pixOut (n : Nat) (s : State) :
    (takeBytes n s).pixOut = s.pixOut := rfl

@[simp] theorem takeBytes_byteOut (n : Nat) (s : State) :
    (takeBytes n s).byteOut = s.byteOut := rfl

@[simp] theorem takeBytes_trace (n : Nat) (s : State) :
    (takeBytes n s).trace = s.trace := rfl


/-! ### takeDraws -/

@[simp] theorem takeDraws_params (n : Nat) (s : State) :
    (takeDraws n s).params = s.params := rfl

@[simp] theorem takeDraws_seqState (n : Nat) (s : State) :
    (takeDraws n s).seqState = s.seqState := rfl

@[simp] theorem takeDraws_pwrEn (n : Nat) (s : State) :
    (takeDraws n s).pwrEn = s.pwrEn := rfl

@[simp] theorem takeDraws_rst (n : Nat) (s : State) :
    (takeDraws n s).rst = s.rst := rfl

@[simp] theorem takeDraws_bytesSent (n : Nat) (s : State) :
    (takeDraws n s).bytesSent = s.bytesSent := rfl

@[simp] theorem takeDraws_bufLive (n : Nat) (s : State) :
    (takeDraws n s).bufLive = s.bufLive := rfl

@[simp] theorem takeDraws_buf (n : Nat) (s : State) :
    (takeDraws n s).buf = s.buf := rfl

@[simp] theorem takeDraws_longwait (n : Nat) (s : State) :
    (takeDraws n s).longwait = s.longwait := rfl

@[simp] theorem takeDraws_shortframe (n : Nat) (s : State) :
    (takeDraws n s).shortframe = s.shortframe := rfl

@[simp] theorem takeDraws_nodes (n : Nat) (s : State) :
    (takeDraws n s).nodes = s.nodes := rfl

@[simp] theorem takeDraws_nodesValid (n : Nat) (s : State) :
    (takeDraws n s).nodesValid = s.nodesValid := rfl

@[simp] theorem takeDraws_genCursor (n : Nat) (s : State) :
    (takeDraws n s).genCursor = s.genCursor := rfl

@[simp] theorem takeDraws_err (n : Nat) (s : State) :
    (takeDraws n s).err = s.err := rfl

@[simp] theorem takeDraws_running (n : Nat) (s : State) :
    (takeDraws n s).running = s.running := rfl

@[simp] theorem takeDraws_opIn (n : Nat) (s : State) :
    (takeDraws n s).opIn = s.opIn := rfl

@[simp] theorem takeDraws_pixIn (n : Nat) (s : State) :
    (takeDraws n s).pixIn = s.pixIn := rfl

@[simp] theorem takeDraws_byteIn (n : Nat) (s : State) :
    (takeDraws n s).byteIn = s.byteIn := rfl

@[simp] theorem takeDraws_rngIn (n : Nat) (s : State) :
    (takeDraws n s).rngIn = s.rngIn.drop n := rfl

@[simp] theorem takeDraws_busyIn (n : Nat) (s : State) :
    (takeDraws n s).busyIn = s.busyIn := rfl

@[simp] theorem takeDraws_resetIn (n : Nat) (s : State) :
    (takeDraws n s).resetIn = s.resetIn := rfl

@[simp] theorem takeDraws_res (n : Nat) (s : State) :
    (takeDraws n s).res = s.res := rfl

@[simp] theorem takeDraws_pixOut (n : Nat) (s : State) :
    (takeDraws n s).pixOut = s.pixOut := rfl

@[simp] theorem takeDraws_byteOut (n : Nat) (s : State) :
    (takeDraws n s).byteOut = s.byteOut := rfl

@[simp] theorem takeDraws_trace (n : Nat) (s : State) :
    (takeDraws n s).trace = s.trace := rfl


/-! ### givePixel -/

@[simp] theorem givePixel_params (p : Pixel) (s : State) :
    (givePixel p s).params = s.params := rfl

@[simp] theorem givePixel_seqState (p : Pixel) (s : State) :
    (givePixel p s).seqState = s.seqState := rfl

@[simp] theorem givePixel_pwrEn (p : Pixel) (s : State) :
    (givePixel p s).pwrEn = s.pwrEn := rfl

@[simp] theorem givePixel_rst (p : Pixel) (s : State) :
    (givePixel p s).rst = s.rst := rfl

@[simp] theorem givePixel_bytesSent (p : Pixel) (s : State) :
    (givePixel p s).bytesSent = s.bytesSent := rfl

@[simp] theorem givePixel_bufLive (p : Pixel) (s : State) :
    (givePixel p s).bufLive = s.bufLive := rfl

@[simp] theorem givePixel_buf (p : Pixel) (s : State) :
    (givePixel p s).buf = s.buf := rfl

@[simp] theorem givePixel_longwait (p : Pixel) (s : State) :
    (givePixel p s).longwait = s.longwait := rfl

@[simp] theorem givePixel_shortframe (p : Pixel) (s : State) :
    (givePixel p s).shortframe = s.shortframe := rfl

@[simp] theorem givePixel_nodes (p : Pixel) (s : State) :
    (givePixel p s).nodes = s.nodes := rfl

@[simp] theorem givePixel_nodesValid (p : Pixel) (s : State) :
    (givePixel p s).nodesValid = s.nodesValid := rfl

@[simp] theorem givePixel_genCursor (p : Pixel) (s : State) :
    (givePixel p s).genCursor = s.genCursor := rfl

@[simp] theorem givePixel_err (p : Pixel) (s : State) :
    (givePixel p s).err = s.err := rfl

@[simp] theorem givePixel_running (p : Pixel) (s : State) :
    (givePixel p s).running = s.running := rfl

@[simp] theorem givePixel_opIn (p : Pixel) (s : State) :
    (givePixel p s).opIn = s.opIn := rfl

@[simp] theorem givePixel_pixIn (p : Pixel) (s : State) :
    (givePixel p s).pixIn = s.pixIn := rfl

@[simp] theorem givePixel_byteIn (p : Pixel) (s : State) :
    (givePixel p s).byteIn = s.byteIn := rfl

@[simp] theorem givePixel_rngIn (p : Pixel) (s : State) :
    (givePixel p s).rngIn = s.rngIn := rfl

@[simp] theorem givePixel_busyIn (p : Pixel) (s : State) :
    (givePixel p s).busyIn = s.busyIn := rfl

@[simp] theorem givePixel_resetIn (p : Pixel) (s : State) :
    (givePixel p s).resetIn = s.resetIn := rfl

@[simp] theorem givePixel_res (p : Pixel) (s : State) :
    (givePixel p s).res = s.res := rfl

@[simp] theorem givePixel_pixOut (p : Pixel) (s : State) :
    (givePixel p s).pixOut = s.pixOut ++ [p] := rfl

@[simp] theorem givePixel_byteOut (p : Pixel) (s : State) :
    (givePixel p s).byteOut = s.byteOut := rfl

@[simp] theorem givePixel_trace (p : Pixel) (s : State) :
    (givePixel p s).trace = s.trace := rfl


/-! ### giveByte -/

@[simp] theorem giveByte_params (b : Byte) (s : State) :
    (giveByte b s).params = s.params := rfl

@[simp] theorem giveByte_seqState (b : Byte) (s : State) :
    (giveByte b s).seqState = s.seqState := rfl

@[simp] theorem giveByte_pwrEn (b : Byte) (s : State) :
    (giveByte b s).pwrEn = s.pwrEn := rfl

@[simp] theorem giveByte_rst (b : Byte) (s : State) :
    (giveByte b s).rst = s.rst := rfl

@[simp] theorem giveByte_bytesSent (b : Byte) (s : State) :
    (giveByte b s).bytesSent = s.bytesSent := rfl

@[simp] theorem giveByte_bufLive (b : Byte) (s : State) :
    (giveByte b s).bufLive = s.bufLive := rfl

@[simp] theorem giveByte_buf (b : Byte) (s : State) :
    (giveByte b s).buf = s.buf := rfl

@[simp] theorem giveByte_longwait (b : Byte) (s : State) :
    (giveByte b s).longwait = s.longwait := rfl

@[simp] theorem giveByte_shortframe (b : Byte) (s : State) :
    (giveByte b s).shortframe = s.shortframe := rfl

@[simp] theorem giveByte_nodes (b : Byte) (s : State) :
    (giveByte b s).nodes = s.nodes := rfl

@[simp] theorem giveByte_nodesValid (b : Byte) (s : State) :
    (giveByte b s).nodesValid = s.nodesValid := rfl

@[simp] theorem giveByte_genCursor (b : Byte) (s : State) :
    (giveByte b s).genCursor = s.genCursor := rfl

@[simp] theorem giveByte_err (b : Byte) (s : State) :
    (giveByte b s).err = s.err := rfl

@[simp] theorem giveByte_running (b : Byte) (s : State) :
    (giveByte b s).running = s.running := rfl

@[simp] theorem giveByte_opIn (b : Byte) (s : State) :
    (giveByte b s).opIn = s.opIn := rfl

@[simp] theorem giveByte_pixIn (b : Byte) (s : State) :
    (giveByte b s).pixIn = s.pixIn := rfl

@[simp] theorem giveByte_byteIn (b : Byte) (s : State) :
    (giveByte b s).byteIn = s.byteIn := rfl

@[simp] theorem giveByte_rngIn (b : Byte) (s : State) :
    (giveByte b s).rngIn = s.rngIn := rfl

@[simp] theorem giveByte_busyIn (b : Byte) (s : State) :
    (giveByte b s).busyIn = s.busyIn := rfl

@[simp] theorem giveByte_resetIn (b : Byte) (s : State) :
    (giveByte b s).resetIn = s.resetIn := rfl

@[simp] theorem giveByte_res (b : Byte) (s : State) :
    (giveByte b s).res = s.res := rfl

@[simp] theorem giveByte_pixOut (b : Byte) (s : State) :
    (giveByte b s).pixOut = s.pixOut := rfl

@[simp] theorem giveByte_byteOut (b : Byte) (s : State) :
    (giveByte b s).byteOut = s.byteOut ++ [b] := rfl

@[simp] theorem giveByte_trace (b : Byte) (s : State) :
    (giveByte b s).trace = s.trace := rfl


/-! ### emit -/

@[simp] theorem emit_params (e : Event) (s : State) :
    (emit e s).params = s.params := rfl

@[simp] theorem emit_seqState (e : Event) (s : State) :
    (emit e s).seqState = s.seqState := rfl

@[simp] theorem emit_pwrEn (e : Event) (s : State) :
    (emit e s).pwrEn = s.pwrEn := rfl

@[simp] theorem emit_rst (e : Event) (s : State) :
    (emit e s).rst = s.rst := rfl

@[simp] theorem emit_bytesSent (e : Event) (s : State) :
    (emit e s).bytesSent = s.bytesSent := rfl

@[simp] theorem emit_bufLive (e : Event) (s : State) :
    (emit e s).bufLive = s.bufLive := rfl

@[simp] theorem emit_buf (e : Event) (s : State) :
    (emit e s).buf = s.buf := rfl

@[simp] theorem emit_longwait (e : Event) (s : State) :
    (emit e s).longwait = s.longwait := rfl

@[simp] theorem emit_shortframe (e : Event) (s : State) :
    (emit e s).shortframe = s.shortframe := rfl

@[simp] theorem emit_nodes (e : Event) (s : State) :
    (emit e s).nodes = s.nodes := rfl

@[simp] theorem emit_nodesValid (e : Event) (s : State) :
    (emit e s).nodesValid = s.nodesValid := rfl

@[simp] theorem emit_genCursor (e : Event) (s : State) :
    (emit e s).genCursor = s.genCursor := rfl

@[simp] theorem emit_err (e : Event) (s : State) :
    (emit e s).err = s.err := rfl

@[simp] theorem emit_running (e : Event) (s : State) :
    (emit e s).running = s.running := rfl

@[simp] theorem emit_opIn (e : Event) (s : State) :
    (emit e s).opIn = s.opIn := rfl

@[simp] theorem emit_pixIn (e : Event) (s : State) :
    (emit e s).pixIn = s.pixIn := rfl

@[simp] theorem emit_byteIn (e : Event) (s : State) :
    (emit e s).byteIn = s.byteIn := rfl

@[simp] theorem emit_rngIn (e : Event) (s : State) :
    (emit e s).rngIn = s.rngIn := rfl

@[simp] theorem emit_busyIn (e : Event) (s : State) :
    (emit e s).busyIn = s.busyIn := rfl

@[simp] theorem emit_resetIn (e : Event) (s : State) :
    (emit e s).resetIn = s.resetIn := rfl

@[simp] theorem emit_res (e : Event) (s : State) :
    (emit e s).res = s.res := rfl

@[simp] theorem emit_pixOut (e : Event) (s : State) :
    (emit e s).pixOut = s.pixOut := rfl

@[simp] theorem emit_byteOut (e : Event) (s : State) :
    (emit e s).byteOut = s.byteOut := rfl

@[simp] theorem emit_trace (e : Event) (s : State) :
    (emit e s).trace = s.trace ++ [e] := rfl


/-! ### delay -/

@[simp] theorem delay_params (ms : Nat) (s : State) :
    (delay ms s).params = s.params := rfl

@[simp] theorem delay_seqState (ms : Nat) (s : State) :
    (delay ms s).seqState = s.seqState := rfl

@[simp] theorem delay_pwrEn (ms : Nat) (s : State) :
    (delay ms s).pwrEn = s.pwrEn := rfl

@[simp] theorem delay_rst (ms : Nat) (s : State) :
    (delay ms s).rst = s.rst := rfl

@[simp] theorem delay_bytesSent (ms : Nat) (s : State) :
    (delay ms s).bytesSent = s.bytesSent := rfl

@[simp] theorem delay_bufLive (ms : Nat) (s : State) :
    (delay ms s).bufLive = s.bufLive := rfl

@[simp] theorem delay_buf (ms : Nat) (s : State) :
    (delay ms s).buf = s.buf := rfl

@[simp] theorem delay_longwait (ms : Nat) (s : State) :
    (delay ms s).longwait = s.longwait := rfl

@[simp] theorem delay_shortframe (ms : Nat) (s : State) :
    (delay ms s).shortframe = s.shortframe := rfl

@[simp] theorem delay_nodes (ms : Nat) (s : State) :
    (delay ms s).nodes = s.nodes := rfl

@[simp] theorem delay_nodesValid (ms : Nat) (s : State) :
    (delay ms s).nodesValid = s.nodesValid := rfl

@[simp] theorem delay_genCursor (ms : Nat) (s : State) :
    (delay ms s).genCursor = s.genCursor := rfl

@[simp] theorem delay_err (ms : Nat) (s : State) :
    (delay ms s).err = s.err := rfl

@[simp] theorem delay_running (ms : Nat) (s : State) :
    (delay ms s).running = s.running := rfl

@[simp] theorem delay_opIn (ms : Nat) (s : State) :
    (delay ms s).opIn = s.opIn := rfl

@[simp] theorem delay_pixIn (ms : Nat) (s : State) :
    (delay ms s).pixIn = s.pixIn := rfl

@[simp] theorem delay_byteIn (ms : Nat) (s : State) :
    (delay ms s).byteIn = s.byteIn := rfl

@[simp] theorem delay_rngIn (ms : Nat) (s : State) :
    (delay ms s).rngIn = s.rngIn := rfl

@[simp] theorem delay_busyIn (ms : Nat) (s : State) :
    (delay ms s).busyIn = s.busyIn := rfl

@[simp] theorem delay_resetIn (ms : Nat) (s : State) :
    (delay ms s).resetIn = s.resetIn := rfl

@[simp] theorem delay_res (ms : Nat) (s : State) :
    (delay ms s).res = s.res := rfl

@[simp] theorem delay_pixOut (ms : Nat) (s : State) :
    (delay ms s).pixOut = s.pixOut := rfl

@[simp] theorem delay_byteOut (ms : Nat) (s : State) :
    (delay ms s).byteOut = s.byteOut := rfl

@[simp] theorem delay_trace (ms : Nat) (s : State) :
    (delay ms s).trace = s.trace ++ [.delay ms] := rfl


/-! ### drivePwr -/

@[simp] theorem drivePwr_params (b : Bool) (s : State) :
    (drivePwr b s).params = s.params := rfl

@[simp] theorem drivePwr_seqState (b : Bool) (s : State) :
    (drivePwr b s).seqState = s.seqState := rfl

@[simp] theorem drivePwr_pwrEn (b : Bool) (s : State) :
    (drivePwr b s).pwrEn = b := rfl

@[simp] theorem drivePwr_rst (b : Bool) (s : State) :
    (drivePwr b s).rst = s.rst := rfl

@[simp] theorem drivePwr_bytesSent (b : Bool) (s : State) :
    (drivePwr b s).bytesSent = s.bytesSent := rfl

@[simp] theorem drivePwr_bufLive (b : Bool) (s : State) :
    (drivePwr b s).bufLive = s.bufLive := rfl

@[simp] theorem drivePwr_buf (b : Bool) (s : State) :
    (drivePwr b s).buf = s.buf := rfl

@[simp] theorem drivePwr_longwait (b : Bool) (s : State) :
    (drivePwr b s).longwait = s.longwait := rfl

@[simp] theorem drivePwr_shortframe (b : Bool) (s : State) :
    (drivePwr b s).shortframe = s.shortframe := rfl

@[simp] theorem drivePwr_nodes (b : Bool) (s : State) :
    (drivePwr b s).nodes = s.nodes := rfl

@[simp] theorem drivePwr_nodesValid (b : Bool) (s : State) :
    (drivePwr b s).nodesValid = s.nodesValid := rfl

@[simp] theorem drivePwr_genCursor (b : Bool) (s : State) :
    (drivePwr b s).genCursor = s.genCursor := rfl

@[simp] theorem drivePwr_err (b : Bool) (s : State) :
    (drivePwr b s).err = s.err := rfl

@[simp] theorem drivePwr_running (b : Bool) (s : State) :
    (drivePwr b s).running = s.running := rfl

@[simp] theorem drivePwr_opIn (b : Bool) (s : State) :
    (drivePwr b s).opIn = s.opIn := rfl

@[simp] theorem drivePwr_pixIn (b : Bool) (s : State) :
    (drivePwr b s).pixIn = s.pixIn := rfl

@[simp] theorem drivePwr_byteIn (b : Bool) (s : State) :
    (drivePwr b s).byteIn = s.byteIn := rfl

@[simp] theorem drivePwr_rngIn (b : Bool) (s : State) :
    (drivePwr b s).rngIn = s.rngIn := rfl

@[simp] theorem drivePwr_busyIn (b : Bool) (s : State) :
    (drivePwr b s).busyIn = s.busyIn := rfl

@[simp] theorem drivePwr_resetIn (b : Bool) (s : State) :
    (drivePwr b s).resetIn = s.resetIn := rfl

@[simp] theorem drivePwr_res (b : Bool) (s : State) :
    (drivePwr b s).res = s.res := rfl

@[simp] theorem drivePwr_pixOut (b : Bool) (s : State) :
    (drivePwr b s).pixOut = s.pixOut := rfl

@[simp] theorem drivePwr_byteOut (b : Bool) (s : State) :
    (drivePwr b s).byteOut = s.byteOut := rfl

@[simp] theorem drivePwr_trace (b : Bool) (s : State) :
    (drivePwr b s).trace = s.trace ++ [.pwr b] := rfl


/-! ### driveRst -/

@[simp] theorem driveRst_params (b : Bool) (s : State) :
    (driveRst b s).params = s.params := rfl

@[simp] theorem driveRst_seqState (b : Bool) (s : State) :
    (driveRst b s).seqState = s.seqState := rfl

@[simp] theorem driveRst_pwrEn (b : Bool) (s : State) :
    (driveRst b s).pwrEn = s.pwrEn := rfl

@[simp] theorem driveRst_rst (b : Bool) (s : State) :
    (driveRst b s).rst = b := rfl

@[simp] theorem driveRst_bytesSent (b : Bool) (s : State) :
    (driveRst b s).bytesSent = s.bytesSent := rfl

@[simp] theorem driveRst_bufLive (b : Bool) (s : State) :
    (driveRst b s).bufLive = s.bufLive := rfl

@[simp] theorem driveRst_buf (b : Bool) (s : State) :
    (driveRst b s).buf = s.buf := rfl

@[simp] theorem driveRst_longwait (b : Bool) (s : State) :
    (driveRst b s).longwait = s.longwait := rfl

@[simp] theorem driveRst_shortframe (b : Bool) (s : State) :
    (driveRst b s).shortframe = s.shortframe := rfl

@[simp] theorem driveRst_nodes (b : Bool) (s : State) :
    (driveRst b s).nodes = s.nodes := rfl

@[simp] theorem driveRst_nodesValid (b : Bool) (s : State) :
    (driveRst b s).nodesValid = s.nodesValid := rfl

@[simp] theorem driveRst_genCursor (b : Bool) (s : State) :
    (driveRst b s).genCursor = s.genCursor := rfl

@[simp] theorem driveRst_err (b : Bool) (s : State) :
    (driveRst b s).err = s.err := rfl

@[simp] theorem driveRst_running (b : Bool) (s : State) :
    (driveRst b s).running = s.running := rfl

@[simp] theorem driveRst_opIn (b : Bool) (s : State) :
    (driveRst b s).opIn = s.opIn := rfl

@[simp] theorem driveRst_pixIn (b : Bool) (s : State) :
    (driveRst b s).pixIn = s.pixIn := rfl

@[simp] theorem driveRst_byteIn (b : Bool) (s : State) :
    (driveRst b s).byteIn = s.byteIn := rfl

@[simp] theorem driveRst_rngIn (b : Bool) (s : State) :
    (driveRst b s).rngIn = s.rngIn := rfl

@[simp] theorem driveRst_busyIn (b : Bool) (s : State) :
    (driveRst b s).busyIn = s.busyIn := rfl

@[simp] theorem driveRst_resetIn (b : Bool) (s : State) :
    (driveRst b s).resetIn = s.resetIn := rfl

@[simp] theorem driveRst_res (b : Bool) (s : State) :
    (driveRst b s).res = s.res := rfl

@[simp] theorem driveRst_pixOut (b : Bool) (s : State) :
    (driveRst b s).pixOut = s.pixOut := rfl

@[simp] theorem driveRst_byteOut (b : Bool) (s : State) :
    (driveRst b s).byteOut = s.byteOut := rfl

@[simp] theorem driveRst_trace (b : Bool) (s : State) :
    (driveRst b s).trace = s.trace ++ [.rst b] := rfl


/-! ### poll -/

@[simp] theorem poll_params (b : Bool) (s : State) :
    (poll b s).params = s.params := rfl

@[simp] theorem poll_seqState (b : Bool) (s : State) :
    (poll b s).seqState = s.seqState := rfl

@[simp] theorem poll_pwrEn (b : Bool) (s : State) :
    (poll b s).pwrEn = s.pwrEn := rfl

@[simp] theorem poll_rst (b : Bool) (s : State) :
    (poll b s).rst = s.rst := rfl

@[simp] theorem poll_bytesSent (b : Bool) (s : State) :
    (poll b s).bytesSent = s.bytesSent := rfl

@[simp] theorem poll_bufLive (b : Bool) (s : State) :
    (poll b s).bufLive = s.bufLive := rfl

@[simp] theorem poll_buf (b : Bool) (s : State) :
    (poll b s).buf = s.buf := rfl

@[simp] theorem poll_longwait (b : Bool) (s : State) :
    (poll b s).longwait = s.longwait := rfl

@[simp] theorem poll_shortframe (b : Bool) (s : State) :
    (poll b s).shortframe = s.shortframe := rfl

@[simp] theorem poll_nodes (b : Bool) (s : State) :
    (poll b s).nodes = s.nodes := rfl

@[simp] theorem poll_nodesValid (b : Bool) (s : State) :
    (poll b s).nodesValid = s.nodesValid := rfl

@[simp] theorem poll_genCursor (b : Bool) (s : State) :
    (poll b s).genCursor = s.genCursor := rfl

@[simp] theorem poll_err (b : Bool) (s : State) :
    (poll b s).err = s.err := rfl

@[simp] theorem poll_running (b : Bool) (s : State) :
    (poll b s).running = s.running := rfl

@[simp] theorem poll_opIn (b : Bool) (s : State) :
    (poll b s).opIn = s.opIn := rfl

@[simp] theorem poll_pixIn (b : Bool) (s : State) :
    (poll b s).pixIn = s.pixIn := rfl

@[simp] theorem poll_byteIn (b : Bool) (s : State) :
    (poll b s).byteIn = s.byteIn := rfl

@[simp] theorem poll_rngIn (b : Bool) (s : State) :
    (poll b s).rngIn = s.rngIn := rfl

@[simp] theorem poll_busyIn (b : Bool) (s : State) :
    (poll b s).busyIn = s.busyIn.drop 1 := rfl

@[simp] theorem poll_resetIn (b : Bool) (s : State) :
    (poll b s).resetIn = s.resetIn := rfl

@[simp] theorem poll_res (b : Bool) (s : State) :
    (poll b s).res = s.res := rfl

@[simp] theorem poll_pixOut (b : Bool) (s : State) :
    (poll b s).pixOut = s.pixOut := rfl

@[simp] theorem poll_byteOut (b : Bool) (s : State) :
    (poll b s).byteOut = s.byteOut := rfl

@[simp] theorem poll_trace (b : Bool) (s : State) :
    (poll b s).trace = s.trace ++ [.poll b] := rfl


/-! ### logLongwait -/

@[simp] theorem logLongwait_params (s : State) :
    (logLongwait s).params = s.params := rfl

@[simp] theorem logLongwait_seqState (s : State) :
    (logLongwait s).seqState = s.seqState := rfl

@[simp] theorem logLongwait_pwrEn (s : State) :
    (logLongwait s).pwrEn = s.pwrEn := rfl

@[simp] theorem logLongwait_rst (s : State) :
    (logLongwait s).rst = s.rst := rfl

@[simp] theorem logLongwait_bytesSent (s : State) :
    (logLongwait s).bytesSent = s.bytesSent := rfl

@[simp] theorem logLongwait_bufLive (s : State) :
    (logLongwait s).bufLive = s.bufLive := rfl

@[simp] theorem logLongwait_buf (s : State) :
    (logLongwait s).buf = s.buf := rfl

@[simp] theorem logLongwait_longwait (s : State) :
    (logLongwait s).longwait = true := rfl

@[simp] theorem logLongwait_shortframe (s : State) :
    (logLongwait s).shortframe = s.shortframe := rfl

@[simp] theorem logLongwait_nodes (s : State) :
    (logLongwait s).nodes = s.nodes := rfl

@[simp] theorem logLongwait_nodesValid (s : State) :
    (logLongwait s).nodesValid = s.nodesValid := rfl

@[simp] theorem logLongwait_genCursor (s : State) :
    (logLongwait s).genCursor = s.genCursor := rfl

@[simp] theorem logLongwait_err (s : State) :
    (logLongwait s).err = s.err := rfl

@[simp] theorem logLongwait_running (s : State) :
    (logLongwait s).running = s.running := rfl

@[simp] theorem logLongwait_opIn (s : State) :
    (logLongwait s).opIn = s.opIn := rfl

@[simp] theorem logLongwait_pixIn (s : State) :
    (logLongwait s).pixIn = s.pixIn := rfl

@[simp] theorem logLongwait_byteIn (s : State) :
    (logLongwait s).byteIn = s.byteIn := rfl

@[simp] theorem logLongwait_rngIn (s : State) :
    (logLongwait s).rngIn = s.rngIn := rfl

@[simp] theorem logLongwait_busyIn (s : State) :
    (logLongwait s).busyIn = s.busyIn := rfl

@[simp] theorem logLongwait_resetIn (s : State) :
    (logLongwait s).resetIn = s.resetIn := rfl

@[simp] theorem logLongwait_res (s : State) :
    (logLongwait s).res = s.res := rfl

@[simp] theorem logLongwait_pixOut (s : State) :
    (logLongwait s).pixOut = s.pixOut := rfl

@[simp] theorem logLongwait_byteOut (s : State) :
    (logLongwait s).byteOut = s.byteOut := rfl

@[simp] theorem logLongwait_trace (s : State) :
    (logLongwait s).trace = s.trace ++ [.logLongwait] := rfl


/-! ### takeWord -/

@[simp] theorem takeWord_params (w : Word) (s : State) :
    (takeWord w s).params = s.params := rfl

@[simp] theorem takeWord_seqState (w : Word) (s : State) :
    (takeWord w s).seqState = s.seqState := rfl

@[simp] theorem takeWord_pwrEn (w : Word) (s : State) :
    (takeWord w s).pwrEn = s.pwrEn := rfl

@[simp] theorem takeWord_rst (w : Word) (s : State) :
    (takeWord w s).rst = s.rst := rfl

@[simp] theorem takeWord_bytesSent (w : Word) (s : State) :
    (takeWord w s).bytesSent = s.bytesSent := rfl

@[simp] theorem takeWord_bufLive (w : Word) (s : State) :
    (takeWord w s).bufLive = s.bufLive := rfl

@[simp] theorem takeWord_buf (w : Word) (s : State) :
    (takeWord w s).buf = s.buf := rfl

@[simp] theorem takeWord_longwait (w : Word) (s : State) :
    (takeWord w s).longwait = s.longwait := rfl

@[simp] theorem takeWord_shortframe (w : Word) (s : State) :
    (takeWord w s).shortframe = s.shortframe := rfl

@[simp] theorem takeWord_nodes (w : Word) (s : State) :
    (takeWord w s).nodes = s.nodes := rfl

@[simp] theorem takeWord_nodesValid (w : Word) (s : State) :
    (takeWord w s).nodesValid = s.nodesValid := rfl

@[simp] theorem takeWord_genCursor (w : Word) (s : State) :
    (takeWord w s).genCursor = s.genCursor := rfl

@[simp] theorem takeWord_err (w : Word) (s : State) :
    (takeWord w s).err = s.err := rfl

@[simp] theorem takeWord_running (w : Word) (s : State) :
    (takeWord w s).running = some (.begun w) := rfl

@[simp] theorem takeWord_opIn (w : Word) (s : State) :
    (takeWord w s).opIn = s.opIn.drop 1 := rfl

@[simp] theorem takeWord_pixIn (w : Word) (s : State) :
    (takeWord w s).pixIn = s.pixIn := rfl

@[simp] theorem takeWord_byteIn (w : Word) (s : State) :
    (takeWord w s).byteIn = s.byteIn := rfl

@[simp] theorem takeWord_rngIn (w : Word) (s : State) :
    (takeWord w s).rngIn = s.rngIn := rfl

@[simp] theorem takeWord_busyIn (w : Word) (s : State) :
    (takeWord w s).busyIn = s.busyIn := rfl

@[simp] theorem takeWord_resetIn (w : Word) (s : State) :
    (takeWord w s).resetIn = s.resetIn := rfl

@[simp] theorem takeWord_res (w : Word) (s : State) :
    (takeWord w s).res = s.res := rfl

@[simp] theorem takeWord_pixOut (w : Word) (s : State) :
    (takeWord w s).pixOut = s.pixOut := rfl

@[simp] theorem takeWord_byteOut (w : Word) (s : State) :
    (takeWord w s).byteOut = s.byteOut := rfl

@[simp] theorem takeWord_trace (w : Word) (s : State) :
    (takeWord w s).trace = s.trace := rfl


/-! ### hardReset -/

@[simp] theorem hardReset_params (s : State) :
    (hardReset s).params = s.params := rfl

@[simp] theorem hardReset_seqState (s : State) :
    (hardReset s).seqState = State.reset.seqState := rfl

@[simp] theorem hardReset_pwrEn (s : State) :
    (hardReset s).pwrEn = State.reset.pwrEn := rfl

@[simp] theorem hardReset_rst (s : State) :
    (hardReset s).rst = State.reset.rst := rfl

@[simp] theorem hardReset_bytesSent (s : State) :
    (hardReset s).bytesSent = State.reset.bytesSent := rfl

@[simp] theorem hardReset_bufLive (s : State) :
    (hardReset s).bufLive = State.reset.bufLive := rfl

@[simp] theorem hardReset_buf (s : State) :
    (hardReset s).buf = State.reset.buf := rfl

@[simp] theorem hardReset_longwait (s : State) :
    (hardReset s).longwait = State.reset.longwait := rfl

@[simp] theorem hardReset_shortframe (s : State) :
    (hardReset s).shortframe = State.reset.shortframe := rfl

@[simp] theorem hardReset_nodes (s : State) :
    (hardReset s).nodes = State.reset.nodes := rfl

@[simp] theorem hardReset_nodesValid (s : State) :
    (hardReset s).nodesValid = State.reset.nodesValid := rfl

@[simp] theorem hardReset_genCursor (s : State) :
    (hardReset s).genCursor = State.reset.genCursor := rfl

@[simp] theorem hardReset_err (s : State) :
    (hardReset s).err = State.reset.err := rfl

@[simp] theorem hardReset_running (s : State) :
    (hardReset s).running = State.reset.running := rfl

@[simp] theorem hardReset_opIn (s : State) :
    (hardReset s).opIn = State.reset.opIn := rfl

@[simp] theorem hardReset_pixIn (s : State) :
    (hardReset s).pixIn = State.reset.pixIn := rfl

@[simp] theorem hardReset_byteIn (s : State) :
    (hardReset s).byteIn = State.reset.byteIn := rfl

@[simp] theorem hardReset_rngIn (s : State) :
    (hardReset s).rngIn = State.reset.rngIn := rfl

@[simp] theorem hardReset_busyIn (s : State) :
    (hardReset s).busyIn = State.reset.busyIn := rfl

@[simp] theorem hardReset_resetIn (s : State) :
    (hardReset s).resetIn = State.reset.resetIn := rfl

@[simp] theorem hardReset_res (s : State) :
    (hardReset s).res = State.reset.res := rfl

@[simp] theorem hardReset_pixOut (s : State) :
    (hardReset s).pixOut = State.reset.pixOut := rfl

@[simp] theorem hardReset_byteOut (s : State) :
    (hardReset s).byteOut = State.reset.byteOut := rfl

@[simp] theorem hardReset_trace (s : State) :
    (hardReset s).trace = State.reset.trace := rfl


/-! ### enter -/

@[simp] theorem enter_params (q : SeqState) (s : State) :
    (enter q s).params = s.params := rfl

@[simp] theorem enter_seqState (q : SeqState) (s : State) :
    (enter q s).seqState = q := rfl

@[simp] theorem enter_pwrEn (q : SeqState) (s : State) :
    (enter q s).pwrEn = s.pwrEn := rfl

@[simp] theorem enter_rst (q : SeqState) (s : State) :
    (enter q s).rst = s.rst := rfl

@[simp] theorem enter_bytesSent (q : SeqState) (s : State) :
    (enter q s).bytesSent = s.bytesSent := rfl

@[simp] theorem enter_bufLive (q : SeqState) (s : State) :
    (enter q s).bufLive = s.bufLive := rfl

@[simp] theorem enter_buf (q : SeqState) (s : State) :
    (enter q s).buf = s.buf := rfl

@[simp] theorem enter_longwait (q : SeqState) (s : State) :
    (enter q s).longwait = s.longwait := rfl

@[simp] theorem enter_shortframe (q : SeqState) (s : State) :
    (enter q s).shortframe = s.shortframe := rfl

@[simp] theorem enter_nodes (q : SeqState) (s : State) :
    (enter q s).nodes = s.nodes := rfl

@[simp] theorem enter_nodesValid (q : SeqState) (s : State) :
    (enter q s).nodesValid = s.nodesValid := rfl

@[simp] theorem enter_genCursor (q : SeqState) (s : State) :
    (enter q s).genCursor = s.genCursor := rfl

@[simp] theorem enter_err (q : SeqState) (s : State) :
    (enter q s).err = s.err := rfl

@[simp] theorem enter_running (q : SeqState) (s : State) :
    (enter q s).running = s.running := rfl

@[simp] theorem enter_opIn (q : SeqState) (s : State) :
    (enter q s).opIn = s.opIn := rfl

@[simp] theorem enter_pixIn (q : SeqState) (s : State) :
    (enter q s).pixIn = s.pixIn := rfl

@[simp] theorem enter_byteIn (q : SeqState) (s : State) :
    (enter q s).byteIn = s.byteIn := rfl

@[simp] theorem enter_rngIn (q : SeqState) (s : State) :
    (enter q s).rngIn = s.rngIn := rfl

@[simp] theorem enter_busyIn (q : SeqState) (s : State) :
    (enter q s).busyIn = s.busyIn := rfl

@[simp] theorem enter_resetIn (q : SeqState) (s : State) :
    (enter q s).resetIn = s.resetIn := rfl

@[simp] theorem enter_res (q : SeqState) (s : State) :
    (enter q s).res = s.res := rfl

@[simp] theorem enter_pixOut (q : SeqState) (s : State) :
    (enter q s).pixOut = s.pixOut := rfl

@[simp] theorem enter_byteOut (q : SeqState) (s : State) :
    (enter q s).byteOut = s.byteOut := rfl

@[simp] theorem enter_trace (q : SeqState) (s : State) :
    (enter q s).trace = s.trace := rfl


/-! ### setBufLive -/

@[simp] theorem setBufLive_params (b : Bool) (s : State) :
    (setBufLive b s).params = s.params := rfl

@[simp] theorem setBufLive_seqState (b : Bool) (s : State) :
    (setBufLive b s).seqState = s.seqState := rfl

@[simp] theorem setBufLive_pwrEn (b : Bool) (s : State) :
    (setBufLive b s).pwrEn = s.pwrEn := rfl

@[simp] theorem setBufLive_rst (b : Bool) (s : State) :
    (setBufLive b s).rst = s.rst := rfl

@[simp] theorem setBufLive_bytesSent (b : Bool) (s : State) :
    (setBufLive b s).bytesSent = s.bytesSent := rfl

@[simp] theorem setBufLive_bufLive (b : Bool) (s : State) :
    (setBufLive b s).bufLive = b := rfl

@[simp] theorem setBufLive_buf (b : Bool) (s : State) :
    (setBufLive b s).buf = s.buf := rfl

@[simp] theorem setBufLive_longwait (b : Bool) (s : State) :
    (setBufLive b s).longwait = s.longwait := rfl

@[simp] theorem setBufLive_shortframe (b : Bool) (s : State) :
    (setBufLive b s).shortframe = s.shortframe := rfl

@[simp] theorem setBufLive_nodes (b : Bool) (s : State) :
    (setBufLive b s).nodes = s.nodes := rfl

@[simp] theorem setBufLive_nodesValid (b : Bool) (s : State) :
    (setBufLive b s).nodesValid = s.nodesValid := rfl

@[simp] theorem setBufLive_genCursor (b : Bool) (s : State) :
    (setBufLive b s).genCursor = s.genCursor := rfl

@[simp] theorem setBufLive_err (b : Bool) (s : State) :
    (setBufLive b s).err = s.err := rfl

@[simp] theorem setBufLive_running (b : Bool) (s : State) :
    (setBufLive b s).running = s.running := rfl

@[simp] theorem setBufLive_opIn (b : Bool) (s : State) :
    (setBufLive b s).opIn = s.opIn := rfl

@[simp] theorem setBufLive_pixIn (b : Bool) (s : State) :
    (setBufLive b s).pixIn = s.pixIn := rfl

@[simp] theorem setBufLive_byteIn (b : Bool) (s : State) :
    (setBufLive b s).byteIn = s.byteIn := rfl

@[simp] theorem setBufLive_rngIn (b : Bool) (s : State) :
    (setBufLive b s).rngIn = s.rngIn := rfl

@[simp] theorem setBufLive_busyIn (b : Bool) (s : State) :
    (setBufLive b s).busyIn = s.busyIn := rfl

@[simp] theorem setBufLive_resetIn (b : Bool) (s : State) :
    (setBufLive b s).resetIn = s.resetIn := rfl

@[simp] theorem setBufLive_res (b : Bool) (s : State) :
    (setBufLive b s).res = s.res := rfl

@[simp] theorem setBufLive_pixOut (b : Bool) (s : State) :
    (setBufLive b s).pixOut = s.pixOut := rfl

@[simp] theorem setBufLive_byteOut (b : Bool) (s : State) :
    (setBufLive b s).byteOut = s.byteOut := rfl

@[simp] theorem setBufLive_trace (b : Bool) (s : State) :
    (setBufLive b s).trace = s.trace := rfl


/-! ### clearBytesSent -/

@[simp] theorem clearBytesSent_params (s : State) :
    (clearBytesSent s).params = s.params := rfl

@[simp] theorem clearBytesSent_seqState (s : State) :
    (clearBytesSent s).seqState = s.seqState := rfl

@[simp] theorem clearBytesSent_pwrEn (s : State) :
    (clearBytesSent s).pwrEn = s.pwrEn := rfl

@[simp] theorem clearBytesSent_rst (s : State) :
    (clearBytesSent s).rst = s.rst := rfl

@[simp] theorem clearBytesSent_bytesSent (s : State) :
    (clearBytesSent s).bytesSent = 0#18 := rfl

@[simp] theorem clearBytesSent_bufLive (s : State) :
    (clearBytesSent s).bufLive = s.bufLive := rfl

@[simp] theorem clearBytesSent_buf (s : State) :
    (clearBytesSent s).buf = s.buf := rfl

@[simp] theorem clearBytesSent_longwait (s : State) :
    (clearBytesSent s).longwait = s.longwait := rfl

@[simp] theorem clearBytesSent_shortframe (s : State) :
    (clearBytesSent s).shortframe = s.shortframe := rfl

@[simp] theorem clearBytesSent_nodes (s : State) :
    (clearBytesSent s).nodes = s.nodes := rfl

@[simp] theorem clearBytesSent_nodesValid (s : State) :
    (clearBytesSent s).nodesValid = s.nodesValid := rfl

@[simp] theorem clearBytesSent_genCursor (s : State) :
    (clearBytesSent s).genCursor = s.genCursor := rfl

@[simp] theorem clearBytesSent_err (s : State) :
    (clearBytesSent s).err = s.err := rfl

@[simp] theorem clearBytesSent_running (s : State) :
    (clearBytesSent s).running = s.running := rfl

@[simp] theorem clearBytesSent_opIn (s : State) :
    (clearBytesSent s).opIn = s.opIn := rfl

@[simp] theorem clearBytesSent_pixIn (s : State) :
    (clearBytesSent s).pixIn = s.pixIn := rfl

@[simp] theorem clearBytesSent_byteIn (s : State) :
    (clearBytesSent s).byteIn = s.byteIn := rfl

@[simp] theorem clearBytesSent_rngIn (s : State) :
    (clearBytesSent s).rngIn = s.rngIn := rfl

@[simp] theorem clearBytesSent_busyIn (s : State) :
    (clearBytesSent s).busyIn = s.busyIn := rfl

@[simp] theorem clearBytesSent_resetIn (s : State) :
    (clearBytesSent s).resetIn = s.resetIn := rfl

@[simp] theorem clearBytesSent_res (s : State) :
    (clearBytesSent s).res = s.res := rfl

@[simp] theorem clearBytesSent_pixOut (s : State) :
    (clearBytesSent s).pixOut = s.pixOut := rfl

@[simp] theorem clearBytesSent_byteOut (s : State) :
    (clearBytesSent s).byteOut = s.byteOut := rfl

@[simp] theorem clearBytesSent_trace (s : State) :
    (clearBytesSent s).trace = s.trace := rfl


/-! ### addBytesSent -/

@[simp] theorem addBytesSent_params (n : Nat) (s : State) :
    (addBytesSent n s).params = s.params := rfl

@[simp] theorem addBytesSent_seqState (n : Nat) (s : State) :
    (addBytesSent n s).seqState = s.seqState := rfl

@[simp] theorem addBytesSent_pwrEn (n : Nat) (s : State) :
    (addBytesSent n s).pwrEn = s.pwrEn := rfl

@[simp] theorem addBytesSent_rst (n : Nat) (s : State) :
    (addBytesSent n s).rst = s.rst := rfl

@[simp] theorem addBytesSent_bytesSent (n : Nat) (s : State) :
    (addBytesSent n s).bytesSent = BitVec.ofNat 18 (s.bytesSent.toNat + n) := rfl

@[simp] theorem addBytesSent_bufLive (n : Nat) (s : State) :
    (addBytesSent n s).bufLive = s.bufLive := rfl

@[simp] theorem addBytesSent_buf (n : Nat) (s : State) :
    (addBytesSent n s).buf = s.buf := rfl

@[simp] theorem addBytesSent_longwait (n : Nat) (s : State) :
    (addBytesSent n s).longwait = s.longwait := rfl

@[simp] theorem addBytesSent_shortframe (n : Nat) (s : State) :
    (addBytesSent n s).shortframe = s.shortframe := rfl

@[simp] theorem addBytesSent_nodes (n : Nat) (s : State) :
    (addBytesSent n s).nodes = s.nodes := rfl

@[simp] theorem addBytesSent_nodesValid (n : Nat) (s : State) :
    (addBytesSent n s).nodesValid = s.nodesValid := rfl

@[simp] theorem addBytesSent_genCursor (n : Nat) (s : State) :
    (addBytesSent n s).genCursor = s.genCursor := rfl

@[simp] theorem addBytesSent_err (n : Nat) (s : State) :
    (addBytesSent n s).err = s.err := rfl

@[simp] theorem addBytesSent_running (n : Nat) (s : State) :
    (addBytesSent n s).running = s.running := rfl

@[simp] theorem addBytesSent_opIn (n : Nat) (s : State) :
    (addBytesSent n s).opIn = s.opIn := rfl

@[simp] theorem addBytesSent_pixIn (n : Nat) (s : State) :
    (addBytesSent n s).pixIn = s.pixIn := rfl

@[simp] theorem addBytesSent_byteIn (n : Nat) (s : State) :
    (addBytesSent n s).byteIn = s.byteIn := rfl

@[simp] theorem addBytesSent_rngIn (n : Nat) (s : State) :
    (addBytesSent n s).rngIn = s.rngIn := rfl

@[simp] theorem addBytesSent_busyIn (n : Nat) (s : State) :
    (addBytesSent n s).busyIn = s.busyIn := rfl

@[simp] theorem addBytesSent_resetIn (n : Nat) (s : State) :
    (addBytesSent n s).resetIn = s.resetIn := rfl

@[simp] theorem addBytesSent_res (n : Nat) (s : State) :
    (addBytesSent n s).res = s.res := rfl

@[simp] theorem addBytesSent_pixOut (n : Nat) (s : State) :
    (addBytesSent n s).pixOut = s.pixOut := rfl

@[simp] theorem addBytesSent_byteOut (n : Nat) (s : State) :
    (addBytesSent n s).byteOut = s.byteOut := rfl

@[simp] theorem addBytesSent_trace (n : Nat) (s : State) :
    (addBytesSent n s).trace = s.trace := rfl


/-! ### markShortFrame -/

@[simp] theorem markShortFrame_params (s : State) :
    (markShortFrame s).params = s.params := rfl

@[simp] theorem markShortFrame_seqState (s : State) :
    (markShortFrame s).seqState = s.seqState := rfl

@[simp] theorem markShortFrame_pwrEn (s : State) :
    (markShortFrame s).pwrEn = s.pwrEn := rfl

@[simp] theorem markShortFrame_rst (s : State) :
    (markShortFrame s).rst = s.rst := rfl

@[simp] theorem markShortFrame_bytesSent (s : State) :
    (markShortFrame s).bytesSent = s.bytesSent := rfl

@[simp] theorem markShortFrame_bufLive (s : State) :
    (markShortFrame s).bufLive = s.bufLive := rfl

@[simp] theorem markShortFrame_buf (s : State) :
    (markShortFrame s).buf = s.buf := rfl

@[simp] theorem markShortFrame_longwait (s : State) :
    (markShortFrame s).longwait = s.longwait := rfl

@[simp] theorem markShortFrame_shortframe (s : State) :
    (markShortFrame s).shortframe = (s.shortframe || decide (s.bytesSent.toNat ≠ Config.nbytes)) := rfl

@[simp] theorem markShortFrame_nodes (s : State) :
    (markShortFrame s).nodes = s.nodes := rfl

@[simp] theorem markShortFrame_nodesValid (s : State) :
    (markShortFrame s).nodesValid = s.nodesValid := rfl

@[simp] theorem markShortFrame_genCursor (s : State) :
    (markShortFrame s).genCursor = s.genCursor := rfl

@[simp] theorem markShortFrame_err (s : State) :
    (markShortFrame s).err = s.err := rfl

@[simp] theorem markShortFrame_running (s : State) :
    (markShortFrame s).running = s.running := rfl

@[simp] theorem markShortFrame_opIn (s : State) :
    (markShortFrame s).opIn = s.opIn := rfl

@[simp] theorem markShortFrame_pixIn (s : State) :
    (markShortFrame s).pixIn = s.pixIn := rfl

@[simp] theorem markShortFrame_byteIn (s : State) :
    (markShortFrame s).byteIn = s.byteIn := rfl

@[simp] theorem markShortFrame_rngIn (s : State) :
    (markShortFrame s).rngIn = s.rngIn := rfl

@[simp] theorem markShortFrame_busyIn (s : State) :
    (markShortFrame s).busyIn = s.busyIn := rfl

@[simp] theorem markShortFrame_resetIn (s : State) :
    (markShortFrame s).resetIn = s.resetIn := rfl

@[simp] theorem markShortFrame_res (s : State) :
    (markShortFrame s).res = s.res := rfl

@[simp] theorem markShortFrame_pixOut (s : State) :
    (markShortFrame s).pixOut = s.pixOut := rfl

@[simp] theorem markShortFrame_byteOut (s : State) :
    (markShortFrame s).byteOut = s.byteOut := rfl

@[simp] theorem markShortFrame_trace (s : State) :
    (markShortFrame s).trace = s.trace := rfl


/-! ### seed -/

@[simp] theorem seed_params (nodes : List Node) (s : State) :
    (seed nodes s).params = s.params := rfl

@[simp] theorem seed_seqState (nodes : List Node) (s : State) :
    (seed nodes s).seqState = s.seqState := rfl

@[simp] theorem seed_pwrEn (nodes : List Node) (s : State) :
    (seed nodes s).pwrEn = s.pwrEn := rfl

@[simp] theorem seed_rst (nodes : List Node) (s : State) :
    (seed nodes s).rst = s.rst := rfl

@[simp] theorem seed_bytesSent (nodes : List Node) (s : State) :
    (seed nodes s).bytesSent = s.bytesSent := rfl

@[simp] theorem seed_bufLive (nodes : List Node) (s : State) :
    (seed nodes s).bufLive = s.bufLive := rfl

@[simp] theorem seed_buf (nodes : List Node) (s : State) :
    (seed nodes s).buf = s.buf := rfl

@[simp] theorem seed_longwait (nodes : List Node) (s : State) :
    (seed nodes s).longwait = s.longwait := rfl

@[simp] theorem seed_shortframe (nodes : List Node) (s : State) :
    (seed nodes s).shortframe = s.shortframe := rfl

@[simp] theorem seed_nodes (nodes : List Node) (s : State) :
    (seed nodes s).nodes = nodes := rfl

@[simp] theorem seed_nodesValid (nodes : List Node) (s : State) :
    (seed nodes s).nodesValid = true := rfl

@[simp] theorem seed_genCursor (nodes : List Node) (s : State) :
    (seed nodes s).genCursor = 0#19 := rfl

@[simp] theorem seed_err (nodes : List Node) (s : State) :
    (seed nodes s).err = s.err := rfl

@[simp] theorem seed_running (nodes : List Node) (s : State) :
    (seed nodes s).running = s.running := rfl

@[simp] theorem seed_opIn (nodes : List Node) (s : State) :
    (seed nodes s).opIn = s.opIn := rfl

@[simp] theorem seed_pixIn (nodes : List Node) (s : State) :
    (seed nodes s).pixIn = s.pixIn := rfl

@[simp] theorem seed_byteIn (nodes : List Node) (s : State) :
    (seed nodes s).byteIn = s.byteIn := rfl

@[simp] theorem seed_rngIn (nodes : List Node) (s : State) :
    (seed nodes s).rngIn = s.rngIn := rfl

@[simp] theorem seed_busyIn (nodes : List Node) (s : State) :
    (seed nodes s).busyIn = s.busyIn := rfl

@[simp] theorem seed_resetIn (nodes : List Node) (s : State) :
    (seed nodes s).resetIn = s.resetIn := rfl

@[simp] theorem seed_res (nodes : List Node) (s : State) :
    (seed nodes s).res = s.res := rfl

@[simp] theorem seed_pixOut (nodes : List Node) (s : State) :
    (seed nodes s).pixOut = s.pixOut := rfl

@[simp] theorem seed_byteOut (nodes : List Node) (s : State) :
    (seed nodes s).byteOut = s.byteOut := rfl

@[simp] theorem seed_trace (nodes : List Node) (s : State) :
    (seed nodes s).trace = s.trace := rfl


/-! ### advanceCursor -/

@[simp] theorem advanceCursor_params (n : Nat) (s : State) :
    (advanceCursor n s).params = s.params := rfl

@[simp] theorem advanceCursor_seqState (n : Nat) (s : State) :
    (advanceCursor n s).seqState = s.seqState := rfl

@[simp] theorem advanceCursor_pwrEn (n : Nat) (s : State) :
    (advanceCursor n s).pwrEn = s.pwrEn := rfl

@[simp] theorem advanceCursor_rst (n : Nat) (s : State) :
    (advanceCursor n s).rst = s.rst := rfl

@[simp] theorem advanceCursor_bytesSent (n : Nat) (s : State) :
    (advanceCursor n s).bytesSent = s.bytesSent := rfl

@[simp] theorem advanceCursor_bufLive (n : Nat) (s : State) :
    (advanceCursor n s).bufLive = s.bufLive := rfl

@[simp] theorem advanceCursor_buf (n : Nat) (s : State) :
    (advanceCursor n s).buf = s.buf := rfl

@[simp] theorem advanceCursor_longwait (n : Nat) (s : State) :
    (advanceCursor n s).longwait = s.longwait := rfl

@[simp] theorem advanceCursor_shortframe (n : Nat) (s : State) :
    (advanceCursor n s).shortframe = s.shortframe := rfl

@[simp] theorem advanceCursor_nodes (n : Nat) (s : State) :
    (advanceCursor n s).nodes = s.nodes := rfl

@[simp] theorem advanceCursor_nodesValid (n : Nat) (s : State) :
    (advanceCursor n s).nodesValid = s.nodesValid := rfl

@[simp] theorem advanceCursor_genCursor (n : Nat) (s : State) :
    (advanceCursor n s).genCursor = BitVec.ofNat 19 (s.genCursor.toNat + n) := rfl

@[simp] theorem advanceCursor_err (n : Nat) (s : State) :
    (advanceCursor n s).err = s.err := rfl

@[simp] theorem advanceCursor_running (n : Nat) (s : State) :
    (advanceCursor n s).running = s.running := rfl

@[simp] theorem advanceCursor_opIn (n : Nat) (s : State) :
    (advanceCursor n s).opIn = s.opIn := rfl

@[simp] theorem advanceCursor_pixIn (n : Nat) (s : State) :
    (advanceCursor n s).pixIn = s.pixIn := rfl

@[simp] theorem advanceCursor_byteIn (n : Nat) (s : State) :
    (advanceCursor n s).byteIn = s.byteIn := rfl

@[simp] theorem advanceCursor_rngIn (n : Nat) (s : State) :
    (advanceCursor n s).rngIn = s.rngIn := rfl

@[simp] theorem advanceCursor_busyIn (n : Nat) (s : State) :
    (advanceCursor n s).busyIn = s.busyIn := rfl

@[simp] theorem advanceCursor_resetIn (n : Nat) (s : State) :
    (advanceCursor n s).resetIn = s.resetIn := rfl

@[simp] theorem advanceCursor_res (n : Nat) (s : State) :
    (advanceCursor n s).res = s.res := rfl

@[simp] theorem advanceCursor_pixOut (n : Nat) (s : State) :
    (advanceCursor n s).pixOut = s.pixOut := rfl

@[simp] theorem advanceCursor_byteOut (n : Nat) (s : State) :
    (advanceCursor n s).byteOut = s.byteOut := rfl

@[simp] theorem advanceCursor_trace (n : Nat) (s : State) :
    (advanceCursor n s).trace = s.trace := rfl


end Sys2Proof.Machine
end

