-- ==== Sys2Proof/Laws/Plan.lean ====
section
/-! SUPPORT. Plans: the actions carried out in parts, runs of one kind of action, the busy wait (R143), the way through `buf`
(R148, R193), and the shape of every plan: actions that only go on, and one last action that ends or waits. -/

namespace Sys2Proof.Machine

@[simp] theorem perform_nil (s : State) : perform [] s = s := rfl

@[simp] theorem perform_cons (a : Action) (as : List Action) (s : State) :
    perform (a :: as) s = perform as (a s) := rfl

@[simp] theorem perform_append (as bs : List Action) (s : State) :
    perform (as ++ bs) s = perform bs (perform as s) := List.foldl_append

@[simp] theorem carryOut_ok (as : List Action) (s : State) : carryOut (.ok as) s = .next (perform as s) := rfl

@[simp] theorem carryOut_error (f : Fault) (s : State) : carryOut (.error f) s = .fault f := rfl

/-! ### Runs of one kind of action -/

@[simp] theorem perform_emit (es : List Event) (s : State) :
    perform (es.map emit) s = { s with trace := s.trace ++ es } := by
  induction es generalizing s with
  | nil => simp
  | cons e es ih => simp [ih, emit]

@[simp] theorem perform_givePixel (p : List Pixel) (s : State) :
    perform (p.map givePixel) s = { s with pixOut := s.pixOut ++ p } := by
  induction p generalizing s with
  | nil => simp
  | cons v p ih => simp [ih, givePixel]

@[simp] theorem perform_giveByte (b : List Byte) (s : State) :
    perform (b.map giveByte) s = { s with byteOut := s.byteOut ++ b } := by
  induction b generalizing s with
  | nil => simp
  | cons v b ih => simp [ih, giveByte]

@[simp] theorem perform_panelCmd (c : PanelCommand) (s : State) :
    perform (panelCmd c) s = { s with trace := s.trace ++ cmdEvents c } := perform_emit _ s

@[simp] theorem perform_panelCmds (cs : List PanelCommand) (s : State) :
    perform (cs.flatMap panelCmd) s = { s with trace := s.trace ++ cs.flatMap cmdEvents } := by
  induction cs generalizing s with
  | nil => simp
  | cons c cs ih => simp [ih]

@[simp] theorem perform_panelData (d : List Byte) (s : State) :
    perform (panelData d) s = { s with trace := s.trace ++ (if d = [] then [] else [.data d]) } := by
  unfold panelData
  split <;> simp [emit]

/-! ### Through the buffer (R148, R193) -/

/-- Bytes that fit into `buf` come out of it as they went in; more than that have no place there. -/
theorem throughBuf_cases (v : List Byte) (s : State) :
    (v.length ≤ s.params.chunkMax ∧ throughBuf v s = .ok v) ∨
    (s.params.chunkMax < v.length ∧ throughBuf v s = .error (.bufNoSuchByte s.params.chunkMax)) := by
  unfold throughBuf
  rcases memWrite_cases 0 v s with ⟨hl, e⟩ | ⟨hl, e⟩ <;> rw [e] <;> simp only [Nat.zero_add] at hl
  · exact .inl ⟨hl, memRead_after_memWrite e⟩
  · exact .inr ⟨hl, by simp⟩

/-! ### The busy wait (R143) -/

/-- All that a wait can do: it takes answers, adds to the trace, and may set `LONGWAIT`; then it waits on, or goes on
with what comes after a clear reading. -/
theorem busyWait_cases (standing : Nat → Running) (interval : Nat) (after : List Bool → List Action)
    (answers : List Bool) : ∀ (k : Nat) (s : State), s.busyIn = answers →
      ∃ (rest : List Bool) (es : List Event) (lw : Bool),
        rest <:+ answers ∧ (s.longwait = true → lw = true) ∧
        ((∃ k', perform (busyWait standing interval after k answers) s =
            { s with running := some (standing k'), busyIn := rest, trace := s.trace ++ es, longwait := lw }) ∨
          ∃ r, (r = s.running ∨ ∃ k', r = some (standing k')) ∧
            perform (busyWait standing interval after k answers) s = perform (after rest)
              { s with running := r, busyIn := rest, trace := s.trace ++ es, longwait := lw }) := by
  induction answers with
  | nil =>
    intro k s hb
    exact ⟨[], [], s.longwait, List.suffix_refl _, id, .inl ⟨k, by simp [busyWait, stand, ← hb]⟩⟩
  | cons b l ih =>
    intro k s hb
    cases b with
    | false =>
      exact ⟨l, [.poll false], s.longwait, List.suffix_cons _ _, id,
        .inr ⟨s.running, .inl rfl, by simp [busyWait, poll, hb]⟩⟩
    | true =>
      have step : ∃ es lw, (s.longwait = true → lw = true) ∧
          perform (busyWait standing interval after k (true :: l)) s =
            perform (busyWait standing interval after (k + 1) l)
              { s with running := some (standing (k + 1)), busyIn := l, trace := s.trace ++ es,
                       longwait := lw } := by
        by_cases hk : k + 1 = 2
        · exact ⟨[.poll true, .logLongwait, .delay interval], true, fun _ => rfl,
            by simp [busyWait, poll, stand, logLongwait, delay, emit, hb, hk]⟩
        · exact ⟨[.poll true, .delay interval], s.longwait, id,
            by simp [busyWait, poll, stand, delay, emit, hb, hk]⟩
      obtain ⟨es, lw, hl, e⟩ := step
      obtain ⟨rest, es', lw', hr, hl', h⟩ := ih (k + 1)
        { s with running := some (standing (k + 1)), busyIn := l, trace := s.trace ++ es, longwait := lw } rfl
      refine ⟨rest, es ++ es', lw', hr.trans (List.suffix_cons _ _), fun x => hl' (hl x), ?_⟩
      rw [e]
      rcases h with ⟨k', h⟩ | ⟨r, hr, h⟩
      · exact .inl ⟨k', by rw [h]; simp⟩
      · refine .inr ⟨r, .inr ?_, by rw [h]; simp⟩
        rcases hr with hr | hr
        · exact ⟨_, hr⟩
        · exact hr

/-! ### The shape of every plan -/

/-- An action after which the operation goes on. -/
inductive GoesOn : Action → Prop where
  | stand r : GoesOn (stand r)
  | storeBuf a v : GoesOn (storeBuf a v)
  | takePixels n : GoesOn (takePixels n)
  | takeBytes n : GoesOn (takeBytes n)
  | takeDraws n : GoesOn (takeDraws n)
  | givePixel p : GoesOn (givePixel p)
  | giveByte b : GoesOn (giveByte b)
  | emit e : GoesOn (emit e)
  | drivePwr b : GoesOn (drivePwr b)
  | driveRst b : GoesOn (driveRst b)
  | poll b : GoesOn (poll b)
  | logLongwait : GoesOn logLongwait
  | enter q : GoesOn (enter q)
  | setBufLive b : GoesOn (setBufLive b)
  | clearBytesSent : GoesOn clearBytesSent
  | addBytesSent n : GoesOn (addBytesSent n)
  | markShortFrame : GoesOn markShortFrame
  | seed nodes : GoesOn (seed nodes)
  | advanceCursor n : GoesOn (advanceCursor n)

/-- The last action of a plan: the operation ends, or waits. -/
inductive Stops : Action → Prop where
  | complete v : Stops (complete v)
  | raise c : Stops (raise c)
  | stand r : Stops (stand r)

/-- What a list of actions looks like that may be a plan: all but the last only go on. -/
def Planned (as : List Action) : Prop := ∃ before last, as = before ++ [last] ∧ (∀ a ∈ before, GoesOn a) ∧ Stops last

theorem planned_cons {a : Action} {as : List Action} (ha : GoesOn a) (h : Planned as) : Planned (a :: as) := by
  obtain ⟨b, l, rfl, hb, hl⟩ := h
  refine ⟨a :: b, l, rfl, fun x hx => ?_, hl⟩
  rcases List.mem_cons.mp hx with rfl | hx
  · exact ha
  · exact hb x hx

theorem planned_append {as bs : List Action} (ha : ∀ a ∈ as, GoesOn a) (h : Planned bs) :
    Planned (as ++ bs) := by
  induction as with
  | nil => exact h
  | cons a as ih =>
    exact planned_cons (ha a List.mem_cons_self) (ih fun x hx => ha x (List.mem_cons_of_mem _ hx))

theorem planned_last {a : Action} (h : Stops a) : Planned [a] := ⟨[], a, rfl, by simp, h⟩

theorem planned_complete (v : Word) : Planned [complete v] := planned_last (.complete v)

theorem planned_raise (c : ErrCode) : Planned [raise c] := planned_last (.raise c)

theorem goesOn_panelCmd {c : PanelCommand} : ∀ a ∈ panelCmd c, GoesOn a := by
  intro a ha
  obtain ⟨e, _, rfl⟩ := List.mem_map.mp ha
  exact .emit e

theorem goesOn_panelData {d : List Byte} : ∀ a ∈ panelData d, GoesOn a := by
  intro a ha
  unfold panelData at ha
  split at ha
  · cases ha
  · cases List.mem_singleton.mp ha
    exact .emit _

theorem planned_busyWait {standing : Nat → Running} {interval : Nat} {after : List Bool → List Action}
    (h : ∀ rest, Planned (after rest)) :
    ∀ (answers : List Bool) (k : Nat), Planned (busyWait standing interval after k answers) := by
  intro answers
  induction answers with
  | nil => intro k; exact planned_last (.stand _)
  | cons b l ih =>
    intro k
    cases b with
    | false => exact planned_cons (.poll _) (h l)
    | true =>
      refine planned_cons (.poll _) (planned_cons (.stand _) (planned_append ?_ (planned_cons (.emit _) (ih _))))
      intro a ha
      split at ha
      · cases List.mem_singleton.mp ha; exact .logLongwait
      · cases ha

theorem planned_initFrom (useq : InitStep) (k : Nat) (s : State) : Planned (initFrom useq k s) := by
  have h6 : Planned initI6 := planned_cons (.stand _) (planned_cons (.enter _) (planned_complete _))
  have h5 : Planned (initI5 s.params) := planned_cons (.stand _) (planned_append (fun a ha => by
    obtain ⟨c, _, hc⟩ := List.mem_flatMap.mp ha
    exact goesOn_panelCmd a hc) h6)
  have h4 : ∀ k, Planned (initI4 s.params k s.busyIn) := fun k =>
    planned_cons (.stand _) (planned_busyWait (fun _ => h5) _ k)
  have h3 := planned_cons (.stand (.init .i3 0))
    (planned_cons (.driveRst s.params.rstOuter) (planned_cons (.emit (.delay s.params.tRst2)) (h4 0)))
  have h2 := planned_cons (.stand (.init .i2 0))
    (planned_cons (.driveRst s.params.rstInner) (planned_cons (.emit (.delay s.params.tRst1)) h3))
  have h1 := planned_cons (.stand (.init .i1 0))
    (planned_cons (.driveRst s.params.rstOuter) (planned_cons (.emit (.delay s.params.tRst0)) h2))
  cases useq
  · exact planned_cons (.stand _) (planned_cons (.drivePwr _) h1)
  · exact h1
  · exact h2
  · exact h3
  · exact h4 k
  · exact h5
  · exact h6

theorem planned_endFrameFrom (useq : EndStep) (k : Nat) (s : State) : Planned (endFrameFrom useq k s) := by
  have h7 : Planned endE7 :=
    planned_cons (.stand _) (planned_cons (.setBufLive _) (planned_cons (.enter _) (planned_complete _)))
  have h6 : ∀ k l, Planned (endE6 s.params k l) := fun k l =>
    planned_cons (.stand _) (planned_busyWait (fun _ => h7) l k)
  have h5 : ∀ l, Planned (endE5 s.params l) := fun l =>
    planned_cons (.stand _) (planned_append goesOn_panelCmd (h6 0 l))
  have h4 : ∀ k l, Planned (endE4 s.params k l) := fun k l => planned_cons (.stand _) (planned_busyWait h5 l k)
  have h3 : ∀ l, Planned (endE3 s.params l) := fun l =>
    planned_cons (.stand _) (planned_append goesOn_panelCmd (h4 0 l))
  have h2 : ∀ k l, Planned (endE2 s.params k l) := fun k l => planned_cons (.stand _) (planned_busyWait h3 l k)
  have h1 : ∀ l, Planned (endE1 s.params l) := fun l =>
    planned_cons (.stand _) (planned_append goesOn_panelCmd (h2 0 l))
  cases useq
  · exact planned_cons (.stand _) (planned_cons (.enter _) (h1 _))
  · exact h1 _
  · exact h2 k _
  · exact h3 _
  · exact h4 k _
  · exact h5 _
  · exact h6 k _
  · exact h7

theorem planned_packFrom (n : Nat) (taken : List Pixel) (s : State) : Planned (packFrom n taken s) := by
  unfold packFrom
  simp only
  refine planned_cons (.takePixels _) ?_
  split
  · exact planned_last (.stand _)
  · split
    · refine planned_append (fun a ha => ?_) (planned_complete _)
      obtain ⟨b, _, rfl⟩ := List.mem_map.mp ha
      exact .giveByte b
    · exact planned_raise _

theorem planned_unpackFrom (m : Nat) (taken : List Byte) (s : State) : Planned (unpackFrom m taken s) := by
  unfold unpackFrom
  simp only
  refine planned_cons (.takeBytes _) ?_
  split
  · exact planned_last (.stand _)
  · split
    · refine planned_append (fun a ha => ?_) (planned_complete _)
      obtain ⟨b, _, rfl⟩ := List.mem_map.mp ha
      exact .givePixel b
    · exact planned_raise _

theorem planned_scatterFrom (taken : List Nat) (s : State) : Planned (scatterFrom taken s) := by
  unfold scatterFrom
  simp only
  refine planned_cons (.takeDraws _) ?_
  split
  · exact planned_last (.stand _)
  · exact planned_cons (.seed _) (planned_complete _)

theorem planned_sendChunkFrom {len : Nat} {taken : List Byte} {s : State} {as : List Action}
    (h : sendChunkFrom len taken s = .ok as) : Planned as := by
  unfold sendChunkFrom at h
  simp only at h
  split at h
  · cases h
    exact planned_cons (.takeBytes _) (planned_last (.stand _))
  · unfold sendChunk at h
    split at h
    · cases h
    · cases h
      refine planned_cons (.takeBytes _) (planned_cons (.storeBuf _ _) ?_)
      split
      · exact planned_append goesOn_panelData (planned_cons (.addBytesSent _) (planned_complete _))
      · exact planned_raise _

theorem planned_resume {r : Running} {s : State} {as : List Action} (h : planResume r s = .ok as) :
    Planned as := by
  cases r <;> simp only [planResume] at h
  case sendChunk => exact planned_sendChunkFrom h
  all_goals cases h
  · exact planned_last (.stand _)
  · exact planned_packFrom _ _ _
  · exact planned_unpackFrom _ _ _
  · exact planned_scatterFrom _ _
  · exact planned_initFrom _ _ _
  · exact planned_endFrameFrom _ _ _

theorem planned_sendGenerated {b : List Byte} {s : State} {as : List Action}
    (h : sendGenerated b s = .ok as) : Planned as := by
  unfold sendGenerated at h
  split at h
  · cases h
  · cases h
    exact planned_cons (.storeBuf _ _) (planned_append goesOn_panelData
      (planned_cons (.advanceCursor _) (planned_cons (.addBytesSent _) (planned_complete _))))

/-- Every operation's plan only goes on until its last action. -/
theorem planned_planOf {i : Instr} {s : State} {as : List Action} (h : planOf i s = .ok as) : Planned as := by
  cases i <;> simp only [planOf] at h
  case nop c => cases h; split <;> [exact planned_raise _; exact planned_complete _]
  case rdReg r => cases h; split <;> [exact planned_raise _; exact planned_complete _]
  case pack n =>
    cases h
    repeat' split
    · exact planned_raise _
    · exact planned_raise _
    · exact planned_packFrom _ _ _
  case unpack m =>
    cases h
    split
    · exact planned_raise _
    · exact planned_unpackFrom _ _ _
  case init c =>
    cases h
    repeat' split
    · exact planned_raise _
    · exact planned_raise _
    · exact planned_initFrom _ _ _
  case beginFrame c =>
    cases h
    repeat' split
    · exact planned_raise _
    · exact planned_raise _
    · exact planned_raise _
    · exact planned_append goesOn_panelCmd (planned_cons (.setBufLive _) (planned_cons .clearBytesSent
        (planned_cons (.enter _) (planned_complete _))))
  case sendChunk l =>
    unfold planSendChunk at h
    repeat' split at h
    · cases h; exact planned_raise _
    · cases h; exact planned_raise _
    · cases h; exact planned_raise _
    · exact planned_sendChunkFrom h
  case endFrame c =>
    cases h
    repeat' split
    · exact planned_raise _
    · exact planned_raise _
    · exact planned_cons .markShortFrame (planned_endFrameFrom _ _ _)
  case turnOff c =>
    cases h
    split
    · exact planned_raise _
    · exact planned_cons (.drivePwr _) (planned_cons (.setBufLive _) (planned_cons (.enter _)
        (planned_complete _)))
  case genScatter c =>
    cases h
    split
    · exact planned_raise _
    · exact planned_scatterFrom _ _
  case genChunk n =>
    unfold planGenChunk at h
    repeat' split at h
    · cases h; exact planned_raise _
    · cases h; exact planned_raise _
    · cases h; exact planned_raise _
    · cases h; exact planned_raise _
    · cases h
    · cases h
      refine planned_append (fun a ha => ?_) (planned_cons (.advanceCursor _) (planned_complete _))
      obtain ⟨b, _, rfl⟩ := List.mem_map.mp ha
      exact .givePixel b
  case genSend l =>
    unfold planGenSend at h
    repeat' split at h
    · cases h; exact planned_raise _
    · cases h; exact planned_raise _
    · cases h; exact planned_raise _
    · cases h; exact planned_raise _
    · cases h; exact planned_raise _
    · cases h
    · exact planned_sendGenerated h

theorem planned_planWord {w : Word} {s : State} {as : List Action} (h : planWord w s = .ok as) :
    Planned as := by
  unfold planWord at h
  split at h
  · exact planned_planOf h
  · cases h; exact planned_raise _

/-- `exec` carries out the operation's plan whole. -/
theorem exec_eq_carryOut (i : Instr) (s : State) : exec i s = carryOut (planOf i s) s := by
  cases i <;> rfl

/-- Running a word is carrying out its plan whole. -/
theorem runWord_eq_carryOut (w : Word) (s : State) : runWord w s = carryOut (planWord w s) s := by
  unfold runWord planWord
  split
  · exact exec_eq_carryOut _ _
  · rfl

end Sys2Proof.Machine
end

