-- ==== Sys2Proof/Laws/Payload.lean ====
section
/-! SUPPORT. All that an operation which takes input items can do, when it starts and when it goes on (R66, R121, R123, R148,
R182). -/

namespace Sys2Proof.Machine

/-- `PACK` waits for pixels, or gives the bytes of those it holds, or ends `InvalidColor`. -/
theorem packFrom_cases (n : Nat) (taken : List Pixel) (s : State) :
    ∃ p rest, p = payload n taken s.pixIn ∧ rest = s.pixIn.drop (missing n taken) ∧
      ((p.length < n ∧
          perform (packFrom n taken s) s = stand (.pack n p) { s with pixIn := rest }) ∨
        (n ≤ p.length ∧ p.all validColor = true ∧ perform (packFrom n taken s) s =
          complete 0#32 { s with pixIn := rest, byteOut := s.byteOut ++ packSeq p }) ∨
        (n ≤ p.length ∧ p.all validColor = false ∧
          perform (packFrom n taken s) s = raise .invalidColor { s with pixIn := rest })) := by
  refine ⟨_, _, rfl, rfl, ?_⟩
  unfold packFrom
  simp only
  split
  · exact .inl ⟨‹_›, rfl⟩
  · have hn := Nat.le_of_not_lt ‹¬ _›
    right
    split
    · exact .inl ⟨hn, ‹_›, by simp [takePixels]⟩
    · exact .inr ⟨hn, Bool.not_eq_true _ ▸ ‹¬ _›, rfl⟩

/-- `UNPACK` waits for bytes, or gives the pixels of those it holds, or ends `InvalidColor`. -/
theorem unpackFrom_cases (m : Nat) (taken : List Byte) (s : State) :
    ∃ b rest, b = payload m taken s.byteIn ∧ rest = s.byteIn.drop (missing m taken) ∧
      ((b.length < m ∧
          perform (unpackFrom m taken s) s = stand (.unpack m b) { s with byteIn := rest }) ∨
        (m ≤ b.length ∧ b.all validPacked = true ∧ perform (unpackFrom m taken s) s =
          complete 0#32 { s with byteIn := rest, pixOut := s.pixOut ++ unpackSeq b }) ∨
        (m ≤ b.length ∧ b.all validPacked = false ∧
          perform (unpackFrom m taken s) s = raise .invalidColor { s with byteIn := rest })) := by
  refine ⟨_, _, rfl, rfl, ?_⟩
  unfold unpackFrom
  simp only
  split
  · exact .inl ⟨‹_›, rfl⟩
  · have hn := Nat.le_of_not_lt ‹¬ _›
    right
    split
    · exact .inl ⟨hn, ‹_›, by simp [takeBytes]⟩
    · exact .inr ⟨hn, Bool.not_eq_true _ ▸ ‹¬ _›, rfl⟩

/-- `SEND_CHUNK` waits for bytes, or sends the chunk, or ends `InvalidColor`; only a chunk longer than `buf`
could fault. -/
theorem sendChunkFrom_cases (len : Nat) (taken : List Byte) (s : State) :
    ∃ v rest, v = payload len taken s.byteIn ∧ rest = s.byteIn.drop (missing len taken) ∧
      ((v.length < len ∧ carryOut (sendChunkFrom len taken s) s =
          .next (stand (.sendChunk len v) { s with byteIn := rest })) ∨
        (len ≤ v.length ∧ v.length ≤ s.params.chunkMax ∧ v.all validPacked = true ∧
          carryOut (sendChunkFrom len taken s) s = .next (complete 0#32
            { s with byteIn := rest, buf := Memory.writeAll 0 v s.buf,
                     bytesSent := BitVec.ofNat 18 (s.bytesSent.toNat + v.length),
                     trace := s.trace ++ (if v = [] then [] else [.data v]) })) ∨
        (len ≤ v.length ∧ v.length ≤ s.params.chunkMax ∧ v.all validPacked = false ∧
          carryOut (sendChunkFrom len taken s) s = .next (raise .invalidColor
            { s with byteIn := rest, buf := Memory.writeAll 0 v s.buf })) ∨
        (len ≤ v.length ∧ s.params.chunkMax < v.length ∧
          carryOut (sendChunkFrom len taken s) s = .fault (.bufNoSuchByte s.params.chunkMax))) := by
  refine ⟨_, _, rfl, rfl, ?_⟩
  unfold sendChunkFrom
  simp only
  split
  · exact .inl ⟨‹_›, rfl⟩
  · have hn := Nat.le_of_not_lt ‹¬ _›
    right
    unfold sendChunk
    rcases throughBuf_cases (payload len taken s.byteIn) s with ⟨hl, e⟩ | ⟨hl, e⟩ <;> rw [e]
    · cases hv : (payload len taken s.byteIn).all validPacked
      · exact .inr (.inl ⟨hn, hl, rfl, by simp [hv, Except.map, takeBytes, storeBuf]⟩)
      · exact .inl ⟨hn, hl, rfl, by simp [hv, Except.map, takeBytes, storeBuf, addBytesSent]⟩
    · exact .inr (.inr ⟨hn, hl, rfl⟩)

/-- `GEN_SCATTER` waits for draws or replaces the node table. -/
theorem scatterFrom_cases (taken : List Nat) (s : State) :
    ∃ d rest, d = payload (5 * Config.nNodes) taken s.rngIn ∧
      rest = s.rngIn.drop (missing (5 * Config.nNodes) taken) ∧
      ((d.length < 5 * Config.nNodes ∧
          perform (scatterFrom taken s) s = stand (.genScatter d) { s with rngIn := rest }) ∨
        (5 * Config.nNodes ≤ d.length ∧ perform (scatterFrom taken s) s = complete 0#32
          { s with rngIn := rest, nodes := (drawTuples d).map nodeOfDraws, nodesValid := true,
                   genCursor := 0#19 })) := by
  refine ⟨_, _, rfl, rfl, ?_⟩
  unfold scatterFrom
  simp only
  split
  · exact .inl ⟨‹_›, rfl⟩
  · exact .inr ⟨Nat.le_of_not_lt ‹¬ _›, rfl⟩

/-- `GEN_SEND` sends the packed pixels and counts them; only a chunk longer than `buf` could fault. -/
theorem sendGenerated_cases (b : List Byte) (s : State) :
    (b.length ≤ s.params.chunkMax ∧ carryOut (sendGenerated b s) s = .next (complete 0#32
        { s with buf := Memory.writeAll 0 b s.buf,
                 genCursor := BitVec.ofNat 19 (s.genCursor.toNat + 2 * b.length),
                 bytesSent := BitVec.ofNat 18 (s.bytesSent.toNat + b.length),
                 trace := s.trace ++ (if b = [] then [] else [.data b]) })) ∨
      (s.params.chunkMax < b.length ∧
        carryOut (sendGenerated b s) s = .fault (.bufNoSuchByte s.params.chunkMax)) := by
  unfold sendGenerated
  rcases throughBuf_cases b s with ⟨hl, e⟩ | ⟨hl, e⟩ <;> rw [e]
  · exact .inl ⟨hl, by simp [storeBuf, advanceCursor, addBytesSent]⟩
  · exact .inr ⟨hl, rfl⟩

/-- A pixel is a Color exactly when its code is at most 6 (R91). -/
theorem validColor_iff (p : Pixel) : validColor p = true ↔ p.toNat ≤ 6 := by simp [validColor]

/-- Both nibbles at most 6 (R91, R92). -/
theorem validPacked_iff (v : Byte) :
    validPacked v = true ↔ (v.extractLsb' 4 4).toNat ≤ 6 ∧ (v.extractLsb' 0 4).toNat ≤ 6 := by
  simp only [validPacked, Bool.and_eq_true, validColor_iff, highNibble, lowNibble]

end Sys2Proof.Machine
end

