-- ==== Sys2Proof/Laws/PerInstr.lean ====
section
/-! SUPPORT. Per instruction: the encoded word read as a number (R96, R103). -/

namespace Sys2Proof.Laws.EncodedFields

/-- The word of an operation is `opcode * 2^24 + count` (R103). -/
def Statement (i : Instr) : Prop :=
  i.wellFormed = true → (encode i).toNat = (opcodeOf i).toNat * 16777216 + i.count

/-- The fields do not overlap. -/
theorem encode_toNat (i : Instr) : Statement i := by
  intro h
  have hc : i.count < 1048576 := of_decide_eq_true h
  have e : (encode i).toNat = (opcodeOf i).toNat <<< 24 ||| i.count % 1048576 := by
    show (opcodeOf i ++ (0#4 ++ BitVec.ofNat 20 i.count) : BitVec (8 + (4 + 20))).toNat = _
    rw [BitVec.toNat_append, BitVec.toNat_append, BitVec.toNat_ofNat, BitVec.toNat_ofNat]
    simp
  rw [e, Nat.mod_eq_of_lt hc, ← Nat.shiftLeft_add_eq_or_of_lt (by omega), Nat.shiftLeft_eq]

theorem nop (count : Nat) : Statement (.nop count) := encode_toNat _
theorem rdReg (r : Nat) : Statement (.rdReg r) := encode_toNat _
theorem pack (n : Nat) : Statement (.pack n) := encode_toNat _
theorem unpack (m : Nat) : Statement (.unpack m) := encode_toNat _
theorem init (count : Nat) : Statement (.init count) := encode_toNat _
theorem beginFrame (count : Nat) : Statement (.beginFrame count) := encode_toNat _
theorem sendChunk (len : Nat) : Statement (.sendChunk len) := encode_toNat _
theorem endFrame (count : Nat) : Statement (.endFrame count) := encode_toNat _
theorem turnOff (count : Nat) : Statement (.turnOff count) := encode_toNat _
theorem genScatter (count : Nat) : Statement (.genScatter count) := encode_toNat _
theorem genChunk (n : Nat) : Statement (.genChunk n) := encode_toNat _
theorem genSend (len : Nat) : Statement (.genSend len) := encode_toNat _

end Sys2Proof.Laws.EncodedFields
end

