-- ==== Sys2Proof/Laws/Step.lean ====
section
/-! SUPPORT. Once everything a step can do (R75, R100), and the runs of the host's interface unrolled. -/

namespace Sys2Proof.Machine

/-- With no reset on its way, a step that answers a next state goes on with the operation in flight, or has no word to
take, or runs the operation of the next word, or takes a word that is no operation. -/
theorem step_cases {s t : State} (hs : s.resetIn = none) (h : step s = .next t) :
    (∃ r, s.running = some r ∧ resume r s = .next t) ∨
    (s.running = none ∧ s.opIn = [] ∧ t = s) ∨
    (∃ w rest, s.running = none ∧ s.opIn = w :: rest ∧
      ((∃ i, decode w = .ok i ∧ exec i { s with opIn := rest } = .next t) ∨
        (∃ e, decode w = .error e ∧ t = raise .illegalOp { s with opIn := rest }))) := by
  unfold step at h
  rw [hs] at h
  simp only at h
  split at h
  · exact .inl ⟨_, ‹_›, h⟩
  · rename_i hr
    right
    unfold issue fetch at h
    cases ho : s.opIn with
    | nil => rw [ho] at h; cases h; exact .inl ⟨hr, rfl, rfl⟩
    | cons w rest =>
      rw [ho] at h
      simp only [runWord] at h
      refine .inr ⟨w, rest, hr, rfl, ?_⟩
      split at h
      · exact .inl ⟨_, ‹_›, h⟩
      · cases h; exact .inr ⟨_, ‹_›, rfl⟩

/-- The step of a running operation. -/
theorem step_running {s : State} {r : Running} (hs : s.resetIn = none) (h : s.running = some r) :
    step s = resume r s := by
  unfold step
  rw [hs, h]

/-- With a reset on its way a step is that reset, or the block's actions up to it (R251). -/
theorem step_reset_cases {s t : State} {n : Nat} (hs : s.resetIn = some n) (h : step s = .next t) :
    (n = 0 ∧ t = hardReset s) ∨
    (0 < n ∧ ∃ as, planStep s = .ok as ∧
      t = { perform (as.take n) s with resetIn := some (n - as.length) }) := by
  unfold step at h
  rw [hs] at h
  cases n with
  | zero => cases h; exact .inl ⟨rfl, rfl⟩
  | succ n =>
    right
    refine ⟨Nat.succ_pos n, ?_⟩
    simp only [carryOutUntilReset] at h
    split at h
    · cases h; exact ⟨_, ‹_›, rfl⟩
    · cases h

/-- The first step of a run. -/
theorem run_succ (M : Host.Core) (k : Nat) {s t : M.State} (h : M.step s = .next t) :
    M.run (k + 1) s = M.run k t := by
  show (match M.step s with | .next u => M.run k u | .fault r => .fault r | .refused r => .refused r) = _
  rw [h]

/-- A run in two parts. -/
theorem run_add (M : Host.Core) (a b : Nat) {s t : M.State} (h : M.run a s = .next t) :
    M.run (a + b) s = M.run b t := by
  induction a generalizing s with
  | zero =>
    have e : Host.Outcome.next s = .next t := h
    cases e
    rw [Nat.zero_add]
  | succ a ih =>
    rw [show a + 1 + b = (a + b) + 1 by omega]
    have h' : (match M.step s with
      | .next u => M.run a u | .fault r => .fault r | .refused r => .refused r) = .next t := h
    show (match M.step s with
      | .next u => M.run (a + b) u | .fault r => .fault r | .refused r => .refused r) = _
    split at h'
    · exact ih h'
    · cases h'
    · cases h'

end Sys2Proof.Machine
end

