-- ==== Sys2Proof/Laws/Reset.lean ====
section
/-! SUPPORT. Reset inside an operation (R80, R251): a step is its plan carried out, so a step that reset cuts is a beginning of
that plan; what a beginning can do, and that the reset to come changes no action. -/

namespace Sys2Proof.Machine

/-! ### The reset to come changes no action -/

/-- An action that neither reads nor changes how far away the reset is. -/
def Blind (a : Action) : Prop := ∀ (s : State) (r : Option Nat), a { s with resetIn := r } = { a s with resetIn := r }

theorem goesOn_blind {a : Action} (h : GoesOn a) : Blind a := by intro s r; cases h <;> rfl

theorem stops_blind {a : Action} (h : Stops a) : Blind a := by intro s r; cases h <;> rfl

theorem perform_resetIn {as : List Action} (h : ∀ a ∈ as, Blind a) (r : Option Nat) :
    ∀ s : State, perform as { s with resetIn := r } = { perform as s with resetIn := r } := by
  induction as with
  | nil => intro s; rfl
  | cons a as ih =>
    intro s
    rw [perform_cons, h a List.mem_cons_self, ih fun x hx => h x (List.mem_cons_of_mem _ hx), perform_cons]

/-- Every action of a plan. -/
theorem Planned.blind {as : List Action} (h : Planned as) : ∀ a ∈ as, Blind a := by
  obtain ⟨b, l, rfl, hb, hl⟩ := h
  intro a ha
  rcases List.mem_append.mp ha with ha | ha
  · exact goesOn_blind (hb a ha)
  · exact stops_blind (List.mem_singleton.mp ha ▸ hl)

/-- A beginning of a plan only goes on. -/
theorem Planned.take {as : List Action} (h : Planned as) {n : Nat} (hn : n < as.length) :
    ∀ a ∈ as.take n, GoesOn a := by
  obtain ⟨b, l, rfl, hb, _⟩ := h
  intro a ha
  rw [List.take_append_of_le_length (by simpa using hn)] at ha
  exact hb a (List.mem_of_mem_take ha)

theorem throughBuf_eq (v : List Byte) (s : State) : throughBuf v s =
    if v.length ≤ s.params.chunkMax then .ok v else .error (.bufNoSuchByte s.params.chunkMax) := by
  rcases throughBuf_cases v s with ⟨h, e⟩ | ⟨h, e⟩
  · rw [e, if_pos h]
  · rw [e, if_neg (Nat.not_le.mpr h)]

theorem sendChunkFrom_resetIn (len : Nat) (taken : List Byte) (s : State) (r : Option Nat) :
    sendChunkFrom len taken { s with resetIn := r } = sendChunkFrom len taken s := by
  unfold sendChunkFrom sendChunk
  simp only [throughBuf_eq]

theorem planResume_resetIn (q : Running) (s : State) (r : Option Nat) :
    planResume q { s with resetIn := r } = planResume q s := by
  cases q
  case sendChunk => exact sendChunkFrom_resetIn _ _ _ _
  case init useq k => cases useq <;> rfl
  case endFrame useq k => cases useq <;> rfl
  all_goals rfl

theorem planOf_resetIn (i : Instr) (s : State) (r : Option Nat) :
    planOf i { s with resetIn := r } = planOf i s := by
  cases i
  case rdReg n => simp only [planOf, planRdReg]; congr 1
  case sendChunk => simp only [planOf, planSendChunk, sendChunkFrom_resetIn]
  case genSend => simp only [planOf, planGenSend, sendGenerated, throughBuf_eq]
  all_goals rfl

theorem planWord_resetIn (w : Word) (s : State) (r : Option Nat) :
    planWord w { s with resetIn := r } = planWord w s := by
  unfold planWord
  split
  · exact planOf_resetIn _ _ _
  · rfl

/-- What a step does is settled without the reset to come. -/
theorem planStep_resetIn (s : State) (r : Option Nat) : planStep { s with resetIn := r } = planStep s := by
  unfold planStep
  simp only
  split
  · exact planResume_resetIn _ _ _
  · cases ho : s.opIn with
    | nil => simp [fetch, ho]
    | cons w rest => simp only [fetch, ho]; rw [← planWord_resetIn w { s with opIn := rest } r]

/-! ### A step is its plan carried out -/

/-- The three shapes of a step's plan. -/
theorem planStep_cases {s : State} {as : List Action} (h : planStep s = .ok as) :
    (s.running ≠ none ∧ Planned as) ∨ (s.running = none ∧ s.opIn = [] ∧ as = [id]) ∨
    ∃ w rest bs, s.running = none ∧ s.opIn = w :: rest ∧ as = takeWord w :: bs ∧ Planned bs := by
  unfold planStep at h
  split at h
  · exact .inl ⟨by simp [*], planned_resume h⟩
  · rename_i hr
    right
    cases ho : s.opIn with
    | nil => simp only [fetch, ho] at h; cases h; exact .inl ⟨hr, rfl, rfl⟩
    | cons w rest =>
      simp only [fetch, ho] at h
      cases hp : planWord w { s with opIn := rest } with
      | error f => rw [hp] at h; cases h
      | ok bs => rw [hp] at h; cases h; exact .inr ⟨w, rest, bs, hr, rfl, rfl, planned_planWord hp⟩

theorem planStep_blind {s : State} {as : List Action} (h : planStep s = .ok as) : ∀ a ∈ as, Blind a := by
  rcases planStep_cases h with ⟨_, pl⟩ | ⟨_, _, rfl⟩ | ⟨w, _, bs, _, _, rfl, pl⟩
  · exact pl.blind
  · intro a ha
    cases List.mem_singleton.mp ha
    exact fun _ _ => rfl
  · intro a ha
    rcases List.mem_cons.mp ha with rfl | ha
    · exact fun _ _ => rfl
    · exact pl.blind a ha

theorem goesOn_running {a : Action} (h : GoesOn a) (s : State) (r : Option Running) :
    a { s with running := r } = { a s with running := r } ∨ a { s with running := r } = a s := by
  cases h <;> first | exact .inl rfl | exact .inr rfl

/-- What stood in flight before does not matter to a plan carried out whole. -/
theorem Planned.running {as : List Action} (h : Planned as) (s : State) (r : Option Running) :
    perform as { s with running := r } = perform as s := by
  obtain ⟨b, l, rfl, hb, hl⟩ := h
  induction b generalizing s with
  | nil => cases hl <;> rfl
  | cons a b ih =>
    have hb' := fun x hx => hb x (List.mem_cons_of_mem a hx)
    simp only [List.cons_append, perform_cons]
    rcases goesOn_running (hb a List.mem_cons_self) s r with e | e <;> rw [e]
    exact ih _ hb'

/-- With no reset on its way a step is its plan carried out whole. -/
theorem step_eq_carryOut {s : State} (hs : s.resetIn = none) : step s = carryOut (planStep s) s := by
  unfold step
  rw [hs]
  simp only
  cases hr : s.running with
  | some r => simp only [planStep, hr]; rfl
  | none =>
    unfold planStep issue
    rw [hr]
    cases ho : s.opIn with
    | nil => simp only [fetch, ho]; rfl
    | cons w rest =>
      simp only [fetch, ho]
      rw [runWord_eq_carryOut]
      cases hp : planWord w { s with opIn := rest } with
      | error f => rfl
      | ok as =>
        show Host.Outcome.next _ = Host.Outcome.next _
        rw [perform_cons, show takeWord w s = { { s with opIn := rest } with running := some (.begun w) } by
          simp [takeWord, ho], (planned_planWord hp).running]

/-- With reset on its way a step is a beginning of the same plan. -/
theorem step_until_reset {s : State} {as : List Action} (h : planStep s = .ok as) {n : Nat} (hn : 0 < n) :
    step { s with resetIn := some n } = .next { perform (as.take n) s with resetIn := some (n - as.length) } := by
  obtain ⟨m, rfl⟩ : ∃ m, n = m + 1 := ⟨n - 1, by omega⟩
  unfold step
  simp only [carryOutUntilReset, planStep_resetIn, h]
  rw [perform_resetIn fun a ha => planStep_blind h a (List.mem_of_mem_take ha)]

/-! ### What a beginning can do -/

/-- What actions that only go on leave alone, and what they only add to or take from. -/
structure Onward (s t : State) : Prop where
  params     : t.params = s.params
  err        : t.err = s.err
  res        : t.res = s.res
  opIn       : t.opIn = s.opIn
  pixIn      : t.pixIn <:+ s.pixIn
  byteIn     : t.byteIn <:+ s.byteIn
  rngIn      : t.rngIn <:+ s.rngIn
  busyIn     : t.busyIn <:+ s.busyIn
  pixOut     : s.pixOut <+: t.pixOut
  byteOut    : s.byteOut <+: t.byteOut
  trace      : s.trace <+: t.trace
  longwait   : s.longwait = true → t.longwait = true
  shortframe : s.shortframe = true → t.shortframe = true
  running    : s.running ≠ none → t.running ≠ none

theorem Onward.refl (s : State) : Onward s s :=
  ⟨rfl, rfl, rfl, rfl, List.suffix_refl _, List.suffix_refl _, List.suffix_refl _, List.suffix_refl _,
    List.prefix_refl _, List.prefix_refl _, List.prefix_refl _, id, id, id⟩

theorem Onward.trans {s u t : State} (h : Onward s u) (k : Onward u t) : Onward s t :=
  ⟨k.params.trans h.params, k.err.trans h.err, k.res.trans h.res, k.opIn.trans h.opIn, k.pixIn.trans h.pixIn,
    k.byteIn.trans h.byteIn, k.rngIn.trans h.rngIn, k.busyIn.trans h.busyIn, h.pixOut.trans k.pixOut,
    h.byteOut.trans k.byteOut, h.trace.trans k.trace, k.longwait ∘ h.longwait, k.shortframe ∘ h.shortframe,
    k.running ∘ h.running⟩

/-- One action after which the operation goes on: it shows the panel at most one event. -/
theorem goesOn_onward {a : Action} (h : GoesOn a) (s : State) :
    Onward s (a s) ∧ ((a s).trace = s.trace ∨ ∃ e, (a s).trace = s.trace ++ [e]) := by
  cases h <;> refine ⟨⟨rfl, rfl, rfl, rfl, ?_, ?_, ?_, ?_, ?_, ?_, ?_, ?_, ?_, ?_⟩, ?_⟩ <;>
  first
  | exact List.suffix_refl _ | exact List.prefix_refl _ | exact List.drop_suffix _ _
  | exact List.prefix_append _ _ | exact fun h => h | exact fun _ => rfl | exact fun _ => Option.some_ne_none _
  | exact .inl rfl | exact .inr ⟨_, rfl⟩ | exact fun h => by simp [markShortFrame, h]

theorem perform_onward {as : List Action} (h : ∀ a ∈ as, GoesOn a) : ∀ s : State, Onward s (perform as s) := by
  induction as with
  | nil => exact Onward.refl
  | cons a as ih =>
    intro s
    exact (goesOn_onward (h a List.mem_cons_self) s).1.trans
      (ih (fun x hx => h x (List.mem_cons_of_mem _ hx)) _)

/-- What a step with reset on its way can do: the whole step, with the reset nearer; or it is cut, with the operation
in flight and no result. -/
theorem step_cut_cases {s t : State} {n : Nat} (hs : s.resetIn = some (n + 1)) (h : step s = .next t) :
    (∃ u, step { s with resetIn := none } = .next u ∧ t = { u with resetIn := t.resetIn }) ∨
    (t.resetIn = some 0 ∧ t.running ≠ none ∧ ((s.running ≠ none ∧ Onward s t) ∨
      ∃ w rest, s.running = none ∧ s.opIn = w :: rest ∧ Onward (takeWord w s) t)) := by
  rcases step_reset_cases hs h with ⟨h0, _⟩ | ⟨_, as, hp, ht⟩
  · cases h0
  by_cases hn : as.length ≤ n + 1
  · left
    rw [List.take_of_length_le hn] at ht
    refine ⟨perform as { s with resetIn := none }, ?_, ?_⟩
    · rw [step_eq_carryOut rfl, planStep_resetIn, hp, carryOut_ok]
    · rw [perform_resetIn (planStep_blind hp) none s, ht]
  · right
    have hz : t.resetIn = some 0 := by rw [ht]; exact congrArg some (by omega)
    have cut : ∀ u : State, Onward u (perform (as.take (n + 1)) s) → Onward u t := by
      intro u o
      rw [ht]
      exact ⟨o.params, o.err, o.res, o.opIn, o.pixIn, o.byteIn, o.rngIn, o.busyIn, o.pixOut, o.byteOut, o.trace,
        o.longwait, o.shortframe, o.running⟩
    rcases planStep_cases hp with ⟨hr, pl⟩ | ⟨_, _, rfl⟩ | ⟨w, rest, bs, hr, ho, rfl, pl⟩
    · have o := cut s (perform_onward (pl.take (by omega)) s)
      exact ⟨hz, o.running hr, .inl ⟨hr, o⟩⟩
    · simp at hn
    · have o := cut (takeWord w s) (perform_onward (pl.take (by simp at hn; omega)) _)
      exact ⟨hz, o.running (by simp [takeWord]), .inr ⟨w, rest, hr, ho, o⟩⟩

end Sys2Proof.Machine
end

