-- ==== Sys2Proof/Laws/Sequencer.lean ====
section
/-! SUPPORT. What a running `INIT` or `END_FRAME` can change (R144, R150): one frame for both, and how each ends or waits. -/

namespace Sys2Proof.Machine

/-- What a stretch of the sequencer leaves alone, and that it ends `OK` or stays in flight. -/
structure SequencerFrame (s t : State) : Prop where
  params     : t.params = s.params
  buf        : t.buf = s.buf
  bytesSent  : t.bytesSent = s.bytesSent
  shortframe : t.shortframe = s.shortframe
  nodes      : t.nodes = s.nodes
  nodesValid : t.nodesValid = s.nodesValid
  genCursor  : t.genCursor = s.genCursor
  err        : t.err = s.err
  opIn       : t.opIn = s.opIn
  pixIn      : t.pixIn = s.pixIn
  byteIn     : t.byteIn = s.byteIn
  rngIn      : t.rngIn = s.rngIn
  resetIn    : t.resetIn = s.resetIn
  pixOut     : t.pixOut = s.pixOut
  byteOut    : t.byteOut = s.byteOut
  busyIn     : t.busyIn <:+ s.busyIn
  trace      : s.trace <+: t.trace
  longwait   : s.longwait = true → t.longwait = true
  ending     : (t.running = none ∧ t.res = s.res ++ [⟨.ok, 0#32⟩]) ∨
    ∃ r, t.running = some r ∧ t.res = s.res

/-- A stretch after something that touches only what the sequencer may touch. -/
theorem SequencerFrame.after {s u t : State} (h : SequencerFrame u t)
    (hu : u = { s with trace := u.trace, longwait := u.longwait, busyIn := u.busyIn, pwrEn := u.pwrEn,
                       rst := u.rst, seqState := u.seqState, bufLive := u.bufLive, running := u.running })
    (ht : s.trace <+: u.trace) (hl : s.longwait = true → u.longwait = true)
    (hb : u.busyIn <:+ s.busyIn) : SequencerFrame s t := by
  rw [hu] at h
  exact ⟨h.params, h.buf, h.bytesSent, h.shortframe, h.nodes, h.nodesValid, h.genCursor, h.err, h.opIn,
    h.pixIn, h.byteIn, h.rngIn, h.resetIn, h.pixOut, h.byteOut, h.busyIn.trans hb, ht.trans h.trace,
    fun x => h.longwait (hl x), h.ending⟩

/-! ### INIT -/

/-- How a stretch of `INIT` stands: ended in `Configured`, or waiting at I4 with `seq_state` as it was. -/
structure InitFrame (s t : State) : Prop extends SequencerFrame s t where
  bufLive : t.bufLive = s.bufLive
  stands  : (t.running = none ∧ t.seqState = .configured) ∨
    ((∃ k, t.running = some (.init .i4 k)) ∧ t.seqState = s.seqState)

/-- Steps I4 to I6 leave the two levels alone. -/
theorem initI6_frame (s : State) :
    InitFrame s (perform initI6 s) ∧ (perform initI6 s).pwrEn = s.pwrEn ∧ (perform initI6 s).rst = s.rst :=
  ⟨⟨⟨rfl, rfl, rfl, rfl, rfl, rfl, rfl, rfl, rfl, rfl, rfl, rfl, rfl, rfl, rfl, List.suffix_refl _,
    List.prefix_refl _, id, .inl ⟨rfl, rfl⟩⟩, rfl, .inl ⟨rfl, rfl⟩⟩, rfl, rfl⟩

theorem initI5_frame (p : Params) (s : State) :
    InitFrame s (perform (initI5 p) s) ∧ (perform (initI5 p) s).pwrEn = s.pwrEn ∧
      (perform (initI5 p) s).rst = s.rst := by
  simp only [initI5, perform_cons, perform_append, perform_panelCmds]
  obtain ⟨⟨f, b, c⟩, d⟩ := initI6_frame { stand (.init .i5 0) s with
    trace := (stand (.init .i5 0) s).trace ++ p.initTable.flatMap cmdEvents }
  exact ⟨⟨f.after rfl (List.prefix_append _ _) id (List.suffix_refl _), b, c⟩, d⟩

theorem initI4_frame (p : Params) (k : Nat) (l : List Bool) (s : State) (hb : s.busyIn = l) :
    InitFrame s (perform (initI4 p k l) s) ∧ (perform (initI4 p k l) s).pwrEn = s.pwrEn ∧
      (perform (initI4 p k l) s).rst = s.rst := by
  simp only [initI4, perform_cons]
  obtain ⟨rest, es, lw, hr, hl, h⟩ := busyWait_cases (.init .i4) p.pollInterval (fun _ => initI5 p) l k
    (stand (.init .i4 k) s) hb
  rw [← hb] at hr
  rcases h with ⟨k', h⟩ | ⟨r, _, h⟩ <;> rw [h]
  · exact ⟨⟨⟨rfl, rfl, rfl, rfl, rfl, rfl, rfl, rfl, rfl, rfl, rfl, rfl, rfl, rfl, rfl, hr,
      List.prefix_append _ _, hl, .inr ⟨_, rfl, rfl⟩⟩, rfl, .inr ⟨⟨_, rfl⟩, rfl⟩⟩, rfl, rfl⟩
  · obtain ⟨⟨f, b, c⟩, d⟩ := initI5_frame p { stand (.init .i4 k) s with
      running := r, busyIn := rest, trace := (stand (.init .i4 k) s).trace ++ es, longwait := lw }
    exact ⟨⟨f.after rfl (List.prefix_append _ _) hl hr, b, c⟩, d⟩

/-- Steps I1 to I3 leave `rst` at the outer level. -/
theorem initI3_frame (p : Params) (l : List Bool) (s : State) (hb : s.busyIn = l) :
    InitFrame s (perform (initI3 p l) s) ∧ (perform (initI3 p l) s).pwrEn = s.pwrEn ∧
      (perform (initI3 p l) s).rst = p.rstOuter := by
  obtain ⟨⟨f, b, c⟩, d⟩ := initI4_frame p 0 l
    (delay p.tRst2 (driveRst p.rstOuter (stand (.init .i3 0) s))) hb
  exact ⟨⟨f.after rfl (by simp [List.append_assoc]) id (List.suffix_refl _), b, c⟩, d⟩

theorem initI2_frame (p : Params) (l : List Bool) (s : State) (hb : s.busyIn = l) :
    InitFrame s (perform (initI2 p l) s) ∧ (perform (initI2 p l) s).pwrEn = s.pwrEn ∧
      (perform (initI2 p l) s).rst = p.rstOuter := by
  obtain ⟨⟨f, b, c⟩, d⟩ := initI3_frame p l
    (delay p.tRst1 (driveRst p.rstInner (stand (.init .i2 0) s))) hb
  exact ⟨⟨f.after rfl (by simp [List.append_assoc]) id (List.suffix_refl _), b, c⟩, d⟩

theorem initI1_frame (p : Params) (l : List Bool) (s : State) (hb : s.busyIn = l) :
    InitFrame s (perform (initI1 p l) s) ∧ (perform (initI1 p l) s).pwrEn = s.pwrEn ∧
      (perform (initI1 p l) s).rst = p.rstOuter := by
  obtain ⟨⟨f, b, c⟩, d⟩ := initI2_frame p l
    (delay p.tRst0 (driveRst p.rstOuter (stand (.init .i1 0) s))) hb
  exact ⟨⟨f.after rfl (by simp [List.append_assoc]) id (List.suffix_refl _), b, c⟩, d⟩

/-- A whole `INIT` powers the panel. -/
theorem initI0_frame (p : Params) (l : List Bool) (s : State) (hb : s.busyIn = l) :
    InitFrame s (perform (initI0 p l) s) ∧ (perform (initI0 p l) s).pwrEn = true ∧
      (perform (initI0 p l) s).rst = p.rstOuter := by
  obtain ⟨⟨f, b, c⟩, d⟩ := initI1_frame p l (drivePwr true (stand (.init .i0 0) s)) hb
  exact ⟨⟨f.after rfl (by simp) id (List.suffix_refl _), b, c⟩, d⟩

/-- A running `INIT`, from whichever step. -/
theorem initFrom_frame (useq : InitStep) (k : Nat) (s : State) :
    InitFrame s (perform (initFrom useq k s) s) := by
  cases useq
  · exact (initI0_frame _ _ s rfl).1
  · exact (initI1_frame _ _ s rfl).1
  · exact (initI2_frame _ _ s rfl).1
  · exact (initI3_frame _ _ s rfl).1
  · exact (initI4_frame _ k _ s rfl).1
  · exact (initI5_frame _ s).1
  · exact (initI6_frame s).1

/-! ### END_FRAME -/

/-- How a stretch of `END_FRAME` stands: ended in `PoweredOff` with the buffer freed, or waiting with both as they
were. The two levels never change. -/
structure EndFrameFrame (s t : State) : Prop extends SequencerFrame s t where
  pwrEn  : t.pwrEn = s.pwrEn
  rst    : t.rst = s.rst
  stands : (t.running = none ∧ t.seqState = .poweredOff ∧ t.bufLive = false) ∨
    ((∃ useq k, t.running = some (.endFrame useq k) ∧ (useq = .e2 ∨ useq = .e4 ∨ useq = .e6)) ∧
      t.seqState = s.seqState ∧ t.bufLive = s.bufLive)

theorem endE7_frame (s : State) : EndFrameFrame s (perform endE7 s) :=
  ⟨⟨rfl, rfl, rfl, rfl, rfl, rfl, rfl, rfl, rfl, rfl, rfl, rfl, rfl, rfl, rfl, List.suffix_refl _,
    List.prefix_refl _, id, .inl ⟨rfl, rfl⟩⟩, rfl, rfl, .inl ⟨rfl, rfl, rfl⟩⟩

/-- A wait before the rest of an `END_FRAME`. -/
theorem endWait_frame {useq : EndStep} (hu : useq = .e2 ∨ useq = .e4 ∨ useq = .e6) {interval : Nat}
    {after : List Bool → List Action}
    (hf : ∀ (l : List Bool) (s : State), s.busyIn = l → EndFrameFrame s (perform (after l) s))
    (k : Nat) (l : List Bool) (s : State) (hb : s.busyIn = l) :
    EndFrameFrame s (perform (stand (.endFrame useq k) ::
      busyWait (.endFrame useq) interval after k l) s) := by
  simp only [perform_cons]
  obtain ⟨rest, es, lw, hr, hl, h⟩ := busyWait_cases (.endFrame useq) interval after l k
    (stand (.endFrame useq k) s) hb
  rw [← hb] at hr
  rcases h with ⟨k', h⟩ | ⟨r, _, h⟩ <;> rw [h]
  · exact ⟨⟨rfl, rfl, rfl, rfl, rfl, rfl, rfl, rfl, rfl, rfl, rfl, rfl, rfl, rfl, rfl, hr,
      List.prefix_append _ _, hl, .inr ⟨_, rfl, rfl⟩⟩, rfl, rfl, .inr ⟨⟨useq, k', rfl, hu⟩, rfl, rfl⟩⟩
  · obtain ⟨f, a, b, d⟩ := hf rest { stand (.endFrame useq k) s with
      running := r, busyIn := rest, trace := (stand (.endFrame useq k) s).trace ++ es, longwait := lw } rfl
    exact ⟨f.after rfl (List.prefix_append _ _) hl hr, a, b, d⟩

/-- A command before the rest of an `END_FRAME`. -/
theorem endCmd_frame {l : List Bool} {rest : List Action}
    (hf : ∀ s : State, s.busyIn = l → EndFrameFrame s (perform rest s)) (r : Running) (c : PanelCommand)
    (s : State) (hb : s.busyIn = l) :
    EndFrameFrame s (perform (stand r :: (panelCmd c ++ rest)) s) := by
  simp only [perform_cons, perform_append, perform_panelCmd]
  obtain ⟨f, a, b, d⟩ := hf { stand r s with trace := (stand r s).trace ++ cmdEvents c } hb
  exact ⟨f.after rfl (List.prefix_append _ _) id (List.suffix_refl _), a, b, d⟩

theorem endE6_frame (p : Params) (k : Nat) (l : List Bool) (s : State) (hb : s.busyIn = l) :
    EndFrameFrame s (perform (endE6 p k l) s) :=
  endWait_frame (.inr (.inr rfl)) (fun _ s _ => endE7_frame s) k l s hb

theorem endE5_frame (p : Params) (l : List Bool) (s : State) (hb : s.busyIn = l) :
    EndFrameFrame s (perform (endE5 p l) s) := endCmd_frame (endE6_frame p 0 l) _ _ s hb

theorem endE4_frame (p : Params) (k : Nat) (l : List Bool) (s : State) (hb : s.busyIn = l) :
    EndFrameFrame s (perform (endE4 p k l) s) := endWait_frame (.inr (.inl rfl)) (endE5_frame p) k l s hb

theorem endE3_frame (p : Params) (l : List Bool) (s : State) (hb : s.busyIn = l) :
    EndFrameFrame s (perform (endE3 p l) s) := endCmd_frame (endE4_frame p 0 l) _ _ s hb

theorem endE2_frame (p : Params) (k : Nat) (l : List Bool) (s : State) (hb : s.busyIn = l) :
    EndFrameFrame s (perform (endE2 p k l) s) := endWait_frame (.inl rfl) (endE3_frame p) k l s hb

theorem endE1_frame (p : Params) (l : List Bool) (s : State) (hb : s.busyIn = l) :
    EndFrameFrame s (perform (endE1 p l) s) := endCmd_frame (endE2_frame p 0 l) _ _ s hb

/-- A whole `END_FRAME` runs in `FrameClosed`. -/
theorem endE0_frame (p : Params) (l : List Bool) (s : State) (hb : s.busyIn = l) :
    EndFrameFrame { s with seqState := .frameClosed } (perform (endE0 p l) s) := by
  obtain ⟨f, a, b, d⟩ := endE1_frame p l (enter .frameClosed (stand (.endFrame .e0 0) s)) hb
  exact ⟨f.after rfl (List.prefix_refl _) id (List.suffix_refl _), a, b, d⟩

/-- A running `END_FRAME`, from whichever step after the first. -/
theorem endFrameFrom_frame {useq : EndStep} (k : Nat) (s : State) (h : useq ≠ .e0) :
    EndFrameFrame s (perform (endFrameFrom useq k s) s) := by
  cases useq
  · exact absurd rfl h
  · exact endE1_frame _ _ s rfl
  · exact endE2_frame _ k _ s rfl
  · exact endE3_frame _ _ s rfl
  · exact endE4_frame _ k _ s rfl
  · exact endE5_frame _ _ s rfl
  · exact endE6_frame _ k _ s rfl
  · exact endE7_frame s

end Sys2Proof.Machine
end

