-- ==== Sys2Proof/Laws/Vorgen.lean ====
section
/-! SUPPORT. The border test as a proposition (R186), the numbers of a drawn node (R33, R181, R182), and the
width of an entry of the node table (R20, R33, R60). -/

namespace Sys2Proof.Machine

/-- The border test (R186). -/
theorem isBorder_iff (n1 n2 : Near) :
    isBorder n1 n2 = true ↔
      (n2.dist - n1.dist) * (n2.dist - n1.dist) < 4 * nodeDist2 n1.node n2.node := by
  simp only [isBorder, decide_eq_true_eq]
  exact Iff.rfl

/-- A palette colour is a Color other than black (R181). -/
theorem palette_range (i : Fin 6) : 1 ≤ (palette i).toNat ∧ (palette i).toNat ≤ 6 := by
  revert i
  decide

/-- The colours of a drawn node are palette colours (R182). -/
theorem nodeOfDraws_colors (d : DrawTuple) :
    (∃ i, (nodeOfDraws d).primary = palette i) ∧ ∃ i, (nodeOfDraws d).alt = palette i := by
  refine ⟨⟨d.dp, rfl⟩, ?_⟩
  unfold nodeOfDraws
  simp only
  split
  · exact ⟨_, rfl⟩
  · exact ⟨_, rfl⟩

/-- The entries that R33's ranges allow can be told apart by 26 bits, the size R20 and R60 give an entry; the spec names
no layout of those bits, so this says only that there is one (log 19). -/
theorem nodes_in_range_fit_26_bits :
    ∃ f : Node → BitVec 26, ∀ a b, nodeInRange a = true → nodeInRange b = true → f a = f b → a = b := by
  refine ⟨fun n => BitVec.ofNat 26 (((n.x.toNat * 512 + n.y.toNat) * 8 + n.primary.toNat) * 8 + n.alt.toNat), ?_⟩
  rintro ⟨ax, ay, ap, aa⟩ ⟨bx, bY, bp, ba⟩ ha hb h
  simp only [nodeInRange, Config.width, Config.height, Bool.and_eq_true, decide_eq_true_eq] at ha hb
  have h := congrArg BitVec.toNat h
  simp only [BitVec.toNat_ofNat] at h
  simp only [Node.mk.injEq, BitVec.toNat_eq]
  omega

/-- R20 and R60: in a sound state a written node table is 40 entries of 26 bits, and nothing of it is lost in them. -/
theorem node_table_is_40_entries_of_26_bits :
    ∃ (pack : Node → BitVec 26) (unpack : BitVec 26 → Node), ∀ s : State, s.Inv → s.nodesValid = true →
      (s.nodes.map pack).length = 40 ∧ (s.nodes.map pack).map unpack = s.nodes := by
  obtain ⟨pack, inj⟩ := nodes_in_range_fit_26_bits
  classical
  let unpack (w : BitVec 26) : Node :=
    if h : ∃ n, nodeInRange n = true ∧ pack n = w then h.choose else ⟨0, 0, 0, 0⟩
  refine ⟨pack, unpack, fun s hs hv => ?_⟩
  obtain ⟨len, range⟩ := hs.nodesValid hv
  refine ⟨by rw [List.length_map, len], ?_⟩
  rw [List.map_map, List.map_congr_left (g := id), List.map_id]
  intro n hn
  have hn := List.all_eq_true.mp range n hn
  have h : ∃ m, nodeInRange m = true ∧ pack m = pack n := ⟨n, hn, rfl⟩
  simp only [Function.comp_apply, unpack, dif_pos h]
  exact inj _ _ h.choose_spec.1 hn h.choose_spec.2

/-- Five draws make one tuple. -/
theorem drawTuples_length : ∀ (n : Nat) (d : List Nat), d.length = 5 * n → (drawTuples d).length = n
  | 0, [], _ => rfl
  | n + 1, _ :: _ :: _ :: _ :: _ :: d, h => by
    simp only [drawTuples, List.length_cons, drawTuples_length n d (by simp at h; omega)]
  | n + 1, [], h => by simp only [List.length_nil] at h; omega
  | n + 1, [_], h => by simp only [List.length_cons, List.length_nil] at h; omega
  | n + 1, [_, _], h => by simp only [List.length_cons, List.length_nil] at h; omega
  | n + 1, [_, _, _], h => by simp only [List.length_cons, List.length_nil] at h; omega
  | n + 1, [_, _, _, _], h => by simp only [List.length_cons, List.length_nil] at h; omega

/-- The tuple of node `i` is made of the draws from `5 * i` on (R95, R182). -/
theorem drawTuples_get : ∀ (d : List Nat) (i : Nat), 5 * i + 4 < d.length →
    (drawTuples d)[i]? = some
      { dx := Fin.ofNat 800 (d.getD (5 * i) 0), dy := Fin.ofNat 480 (d.getD (5 * i + 1) 0),
        dp := Fin.ofNat 6 (d.getD (5 * i + 2) 0), dc := Fin.ofNat 2 (d.getD (5 * i + 3) 0),
        da := Fin.ofNat 6 (d.getD (5 * i + 4) 0) }
  | _ :: _ :: _ :: _ :: _ :: d, 0, _ => rfl
  | _ :: _ :: _ :: _ :: _ :: d, i + 1, h => by
    have := drawTuples_get d i (by simp at h; omega)
    simp only [drawTuples, List.getElem?_cons_succ, this, Nat.mul_add, Nat.mul_one, Nat.add_right_comm _ 5]
    rfl
  | [], i, h => by simp only [List.length_nil] at h; omega
  | [_], i, h => by simp only [List.length_cons, List.length_nil] at h; omega
  | [_, _], i, h => by simp only [List.length_cons, List.length_nil] at h; omega
  | [_, _, _], i, h => by simp only [List.length_cons, List.length_nil] at h; omega
  | [_, _, _, _], i, h => by simp only [List.length_cons, List.length_nil] at h; omega

end Sys2Proof.Machine
end

