-- ==== Sys2Proof/Machine/Assembler.lean ====
section
/-! DEFINITION. Reading an assembler line (R103): a name for an operation word and its input items. It adds nothing to the
block. -/

namespace Sys2Proof.Machine

/-- What a line stands for: an operation and the input items listed after the colon, in stream order (R103). -/
structure AsmLine where
  op    : Instr
  items : List Nat
  deriving DecidableEq, Repr

/-- The line without its comment, which a `;` starts (R103). -/
def stripComment : List Char → List Char
  | [] => []
  | c :: rest => if c = ';' then [] else c :: stripComment rest

/-- The words of a line; `word` is the word read so far. Blanks part words and a colon is a word of its own. -/
def splitWords : List Char → List Char → List (List Char)
  | word, [] => if word = [] then [] else [word]
  | word, c :: rest =>
    if c = ' ' then (if word = [] then [] else [word]) ++ splitWords [] rest
    else if c = ':' then (if word = [] then [] else [word]) ++ ([':'] :: splitWords [] rest)
    else splitWords (word ++ [c]) rest

/-- The value of a digit. -/
def digitValue (c : Char) : Option Nat :=
  if '0' ≤ c ∧ c ≤ '9' then some (c.toNat - 48)
  else if 'A' ≤ c ∧ c ≤ 'F' then some (c.toNat - 55)
  else if 'a' ≤ c ∧ c ≤ 'f' then some (c.toNat - 87)
  else none

/-- The number that digits of a base write, after `n`. -/
def readDigits (base : Nat) : Nat → List Char → Option Nat
  | n, [] => some n
  | n, c :: rest =>
    match digitValue c with
    | none => none
    | some d => if d < base then readDigits base (base * n + d) rest else none

/-- A number: decimal, or hexadecimal after `0x` (R103). -/
def readNumber : List Char → Option Nat
  | [] => none
  | ['0', 'x'] => none
  | '0' :: 'x' :: digits => readDigits 16 0 digits
  | digits => readDigits 10 0 digits

/-- A register number, or a register's name (R38, R103). -/
def readRegister (word : List Char) : Option Nat :=
  if word = "STATUS".toList then some 0
  else if word = "BYTES_SENT".toList then some 1
  else if word = "GEN_CURSOR".toList then some 2
  else readNumber word

/-- The twelve operations with a count of 0, the order of rule R99. -/
def allOps : List Instr :=
  [.nop 0, .rdReg 0, .pack 0, .unpack 0, .init 0, .beginFrame 0, .sendChunk 0, .endFrame 0, .turnOff 0,
   .genScatter 0, .genChunk 0, .genSend 0]

/-- The operation with another count. -/
def withCount (c : Nat) : Instr → Instr
  | .nop _ => .nop c
  | .rdReg _ => .rdReg c
  | .pack _ => .pack c
  | .unpack _ => .unpack c
  | .init _ => .init c
  | .beginFrame _ => .beginFrame c
  | .sendChunk _ => .sendChunk c
  | .endFrame _ => .endFrame c
  | .turnOff _ => .turnOff c
  | .genScatter _ => .genScatter c
  | .genChunk _ => .genChunk c
  | .genSend _ => .genSend c

/-- Whether the operation takes input items, which its line may list (R99, R103). -/
def takesItems : Instr → Bool
  | .pack _ => true
  | .unpack _ => true
  | .sendChunk _ => true
  | .genScatter _ => true
  | .nop _ => false
  | .rdReg _ => false
  | .init _ => false
  | .beginFrame _ => false
  | .endFrame _ => false
  | .turnOff _ => false
  | .genChunk _ => false
  | .genSend _ => false

/-- The listed items: nothing, or a colon and numbers. -/
def readItems (i : Instr) : List (List Char) → Option (List Nat)
  | [] => some []
  | word :: rest => if word = [':'] ∧ takesItems i then rest.mapM readNumber else none

/-- The count, when the operation has one, and what follows it. -/
def readCount (i : Instr) (words : List (List Char)) : Option (Instr × List (List Char)) :=
  if hasCount i then
    match words with
    | [] => none
    | word :: rest =>
      match (match i with
        | .rdReg _ => readRegister word
        | _ => readNumber word) with
      | some c => if (withCount c i).wellFormed then some (withCount c i, rest) else none
      | none => none
  else some (i, words)

/-- The line, if it is an operation's line; a blank line or a comment is none (R103, log 18). -/
def readLine (line : String) : Option AsmLine :=
  match splitWords [] (stripComment line.toList) with
  | [] => none
  | word :: rest =>
    match allOps.find? (fun i => decide ((mnemonic i).toList = word)) with
    | none => none
    | some i =>
      match readCount i rest with
      | none => none
      | some (j, rest') =>
        match readItems j rest' with
        | none => none
        | some items => some ⟨j, items⟩

end Sys2Proof.Machine
end

