-- ==== Sys2Proof/Tests/Slice0.lean ====
section
/-! SUPPORT. Tests: each check of WellFormed.lean refuses an ill-formed term, words written out from the spec's encodings
decode, single steps give the results of spec/95_test_vectors.md, and every statement with hypotheses has a state that meets
them (its witness). -/

namespace Sys2Proof.Tests

open Sys2Proof Sys2Proof.Machine

/-! ## States -/

/-- The test parameter set TENV of spec/95_test_vectors.md section 1, with a given `CHUNK_MAX - 1`. -/
def tenvWith (pred : Fin 524287) : Params where
  chunkMaxPred := pred
  cmdDataStart := ⟨0x10#8, []⟩
  cmdPowerOn := ⟨0x04#8, []⟩
  cmdRefresh := ⟨0x12#8, [0x00#8]⟩
  cmdPowerOff := ⟨0x02#8, [0x00#8]⟩
  initTable := [⟨0xA0#8, [0x01#8, 0x02#8]⟩, ⟨0xA1#8, []⟩]
  tRst0 := 20
  tRst1 := 2
  tRst2 := 20
  pollInterval := 1
  rstOuter := true
  busyActiveLevel := false

/-- Right after reset, with TENV: `CHUNK_MAX = 4000`. -/
def boot : State := { State.reset with params := tenvWith 3999 }

/-- Right after reset, with `CHUNK_MAX = 2`, so that limits are near. -/
def tiny : State := { State.reset with params := tenvWith 1 }

/-- `Configured`, panel powered. -/
def configured (s : State) : State := { s with seqState := .configured, pwrEn := true, rst := true }

/-- `FrameOpen`. -/
def frameOpen (s : State) : State :=
  { s with seqState := .frameOpen, pwrEn := true, rst := true, bufLive := true }

/-- The state after an outcome that has one. -/
def after (o : Host.Outcome State Fault Refusal) : State :=
  match o with
  | .next t => t
  | .fault _ => State.reset
  | .refused _ => State.reset

/-- The state after the block has taken the word and run it. -/
def ran (w : Nat) (s : State) : State := after (step (s.withFetchWord 32 w))

/-- Table NA of section 4.1: the bisector is the column `x = 5`. -/
def tableNA : List Node := [⟨0#10, 0#9, 1#4, 2#4⟩, ⟨10#10, 0#9, 3#4, 4#4⟩]

/-- Table NB of section 4.1: the bisector is `x = 5.5`. -/
def tableNB : List Node := [⟨0#10, 0#9, 1#4, 2#4⟩, ⟨11#10, 0#9, 3#4, 4#4⟩]

/-- A seeded generator with a table. -/
def seeded (t : List Node) (s : State) : State := { s with nodes := t, nodesValid := true }

/-- The draws for forty nodes, the first three those of NS40 (section 4.2). -/
def draws40 : List Nat :=
  [13, 7, 0, 1, 2, 151, 89, 1, 1, 1, 363, 277, 2, 0, 0] ++
    (List.replicate 37 [799, 479, 5, 1, 5]).flatten

/-! ## WellFormed: a count of 2^20 does not fit (R97) -/

theorem test_wf_nop : (Instr.nop 1048576).wellFormed = false := by decide
theorem test_wf_rdReg : (Instr.rdReg 1048576).wellFormed = false := by decide
theorem test_wf_pack : (Instr.pack 1048576).wellFormed = false := by decide
theorem test_wf_unpack : (Instr.unpack 1048576).wellFormed = false := by decide
theorem test_wf_init : (Instr.init 1048576).wellFormed = false := by decide
theorem test_wf_beginFrame : (Instr.beginFrame 1048576).wellFormed = false := by decide
theorem test_wf_sendChunk : (Instr.sendChunk 1048576).wellFormed = false := by decide
theorem test_wf_endFrame : (Instr.endFrame 1048576).wellFormed = false := by decide
theorem test_wf_turnOff : (Instr.turnOff 1048576).wellFormed = false := by decide
theorem test_wf_genScatter : (Instr.genScatter 1048576).wellFormed = false := by decide
theorem test_wf_genChunk : (Instr.genChunk 1048576).wellFormed = false := by decide
theorem test_wf_genSend : (Instr.genSend 1048576).wellFormed = false := by decide

/-! ## Decode: opcode, four reserved zeros, twenty count bits (R96, R99) -/

theorem test_decode_nop : decode 0b00000000000000000000000000000000#32 = .ok (.nop 0) := by decide
theorem test_decode_rdReg : decode 0b00000001000000000000000000000010#32 = .ok (.rdReg 2) := by decide
theorem test_decode_pack : decode 0b00010000000000000001111101000000#32 = .ok (.pack 8000) := by decide
theorem test_decode_unpack : decode 0b00010001000000000000111110100001#32 = .ok (.unpack 4001) := by decide
theorem test_decode_init : decode 0b00100000000000000000000000000001#32 = .ok (.init 1) := by decide
theorem test_decode_beginFrame :
    decode 0b00100001000000000000000000000000#32 = .ok (.beginFrame 0) := by decide
theorem test_decode_sendChunk :
    decode 0b00100010000000101110110111111111#32 = .ok (.sendChunk 191999) := by decide
theorem test_decode_endFrame : decode 0b00100011000000000000000000000000#32 = .ok (.endFrame 0) := by decide
theorem test_decode_turnOff : decode 0b00100100000000000000000000000000#32 = .ok (.turnOff 0) := by decide
theorem test_decode_genScatter :
    decode 0b00110000000000000000000000000001#32 = .ok (.genScatter 1) := by decide
theorem test_decode_genChunk :
    decode 0b00110001000011111111111111111111#32 = .ok (.genChunk 1048575) := by decide
theorem test_decode_genSend : decode 0b00110010000000000000000000011000#32 = .ok (.genSend 24) := by decide

/-- V67: a reserved field that is not 0 is refused also under an assigned opcode. -/
theorem test_decode_reserved : decode 0x22100001#32 = .error .reservedNotZero := by decide

/-- V67: opcodes that are not assigned. -/
theorem test_decode_unassigned :
    decode 0x7F000000#32 = .error .unassignedOpcode ∧ decode 0x02000000#32 = .error .unassignedOpcode ∧
    decode 0xFFFFFFFF#32 = .error .reservedNotZero := by decide

/-- The word an opcode-table row's bits give. -/
theorem test_decodeTableWord : decodeTableWord 32 0x10000004 = some (.pack 4) := by decide

/-- R103: lines of the spec's examples. -/
theorem test_readLine :
    readLine "PACK 4 : 1 2 3 4" = some ⟨.pack 4, [1, 2, 3, 4]⟩ ∧
    readLine "SEND_CHUNK 3 : 0x00 0x11 0x22 ; three bytes" = some ⟨.sendChunk 3, [0, 17, 34]⟩ ∧
    readLine "RD_REG GEN_CURSOR" = some ⟨.rdReg 2, []⟩ ∧ readLine "END_FRAME" = some ⟨.endFrame 0, []⟩ := by
  decide

/-- An operation with no count has none in its line, and its items are not listed. -/
theorem test_readLine_refused :
    readLine "NOP 1" = none ∧ readLine "PACK" = none ∧ readLine "GEN_SEND 1 : 3" = none ∧
    readLine "; PACK 2" = none := by decide

/-! ## Single steps, from the vectors of spec/95_test_vectors.md -/

/-- V67: the words of V67 end `IllegalOp` and set `ERR[1]`. -/
theorem test_illegal : (ran 0x22100001 boot).res = [⟨.err .illegalOp, 0#32⟩] ∧
    statusReg (ran 0x7F000000 boot) = 0x00020000#32 := by decide

/-- V68. -/
theorem test_nop : (ran 0x00000000 boot).res = [⟨.ok, 0#32⟩] ∧
    statusReg (ran 0x00000001 boot) = 0x00040000#32 := by decide

/-- V69. -/
theorem test_rdReg : (ran 0x01000000 (ran 0x01000003 boot)).res =
    [⟨.err .badCount, 0#32⟩, ⟨.ok, 0x00040000#32⟩] := by decide

/-- P2, line 51: `BYTES_SENT` after a frame. -/
theorem test_rdReg_bytesSent : (ran 0x01000001 { boot with bytesSent := 192000#18 }).res =
    [⟨.ok, 0x0002EE00#32⟩] := by decide

/-- V3. -/
theorem test_pack :
    (ran 0x1000000E { boot with pixIn := [0, 0, 0, 6, 6, 0, 6, 6, 1, 5, 5, 1, 3, 4] }).byteOut =
      [0x00, 0x06, 0x60, 0x66, 0x15, 0x51, 0x34] := by decide

/-- V7: no byte is given and all four pixels are taken. -/
theorem test_pack_invalid :
    ran 0x10000004 { boot with pixIn := [1, 2, 15, 3, 5] } =
      raise .invalidColor { boot with pixIn := [5] } := by decide

/-- V15. -/
theorem test_unpack : (ran 0x11000003 { boot with byteIn := [0x00, 0x66, 0x35, 0x77] }).pixOut =
    [0, 0, 6, 6, 3, 5] := by decide

/-- V13. -/
theorem test_unpack_invalid : ran 0x11000001 { boot with byteIn := [0x17] } = raise .invalidColor boot := by
  decide

/-- V51: the trace of an `INIT` whose panel reads busy twice, and `STATUS`. -/
theorem test_init : (ran 0x20000000 { boot with busyIn := [true, true, false] }).trace =
      [.pwr true, .rst true, .delay 20, .rst false, .delay 2, .rst true, .delay 20,
       .poll true, .delay 1, .poll true, .logLongwait, .delay 1, .poll false,
       .cmd 0xA0, .data [0x01, 0x02], .cmd 0xA1] ∧
    statusReg (ran 0x20000000 { boot with busyIn := [true, true, false] }) = 0x00000149#32 := by decide

/-- V52: one busy reading does not set `LONGWAIT`. -/
theorem test_init_one_busy :
    statusReg (ran 0x20000000 { boot with busyIn := [true, false] }) = 0x00000109#32 := by decide

/-- V53. -/
theorem test_beginFrame : (ran 0x21000000 (configured boot)).trace = [.cmd 0x10] ∧
    statusReg (ran 0x21000000 (configured boot)) = 0x0000011A#32 := by decide

/-- V60: after a `TURN_OFF`. -/
theorem test_beginFrame_unpowered :
    (ran 0x21000000 { boot with seqState := .poweredOff }).res = [⟨.err .panelUnpowered, 0#32⟩] := by decide

/-- V54. -/
theorem test_sendChunk :
    (ran 0x22000003 { frameOpen boot with byteIn := [0x01, 0x23, 0x45] }).trace =
      [.data [0x01, 0x23, 0x45]] ∧
    (ran 0x22000003 { frameOpen boot with byteIn := [0x01, 0x23, 0x45] }).bytesSent = 3#18 := by decide

/-- V55: the chunk is checked whole before it is sent. -/
theorem test_sendChunk_invalid :
    (ran 0x22000002 { frameOpen boot with byteIn := [0x01, 0x27] }).trace = [] ∧
    (ran 0x22000002 { frameOpen boot with byteIn := [0x01, 0x27] }).byteIn = [] ∧
    (ran 0x22000002 { frameOpen boot with byteIn := [0x01, 0x27] }).bytesSent = 0#18 := by decide

/-- V58. -/
theorem test_endFrame :
    (ran 0x23000000 { frameOpen boot with
        bytesSent := 192000#18, busyIn := [false, true, true, true, false, false] }).trace =
      [.cmd 0x04, .poll false, .cmd 0x12, .data [0x00], .poll true, .delay 1, .poll true, .logLongwait,
       .delay 1, .poll true, .delay 1, .poll false, .cmd 0x02, .data [0x00], .poll false] := by decide

/-- V57: a short frame; `STATUS` without the `ERR[4]` that V55 left. -/
theorem test_endFrame_short :
    statusReg (ran 0x23000000 { frameOpen boot with bytesSent := 3#18, busyIn := [false, false, false] }) =
      0x0000018C#32 := by decide

/-- V63. -/
theorem test_turnOff : (ran 0x24000000 (frameOpen boot)).trace = [.pwr false] ∧
    statusReg (ran 0x24000000 (frameOpen boot)) = 0x00000104#32 := by decide

/-- V25, its first three nodes. -/
theorem test_genScatter :
    (ran 0x30000000 { boot with rngIn := draws40 }).nodes.take 3 =
      [⟨13, 7, 1, 3⟩, ⟨151, 89, 2, 2⟩, ⟨363, 277, 3, 3⟩] ∧
    statusReg (ran 0x30000000 { boot with rngIn := draws40 }) = 0x00000020#32 := by decide +kernel

/-- V20: row 0 from `x = 3` reads 2 1 0 3 4 3. -/
theorem test_genChunk :
    (ran 0x3100000A (seeded tableNA boot)).pixOut.drop 3 = [2, 1, 0, 3, 4, 3, 4] ∧
    (ran 0x3100000A (seeded tableNA boot)).genCursor = 10#19 := by decide

/-- V36. -/
theorem test_genChunk_unseeded : statusReg (ran 0x31000002 boot) = 0x01000000#32 := by decide

/-- V21, row 0 packed: from `x = 3` it reads 2 1 0 0 4 3. -/
theorem test_genSend :
    (ran 0x32000006 (seeded tableNB (frameOpen boot))).trace =
      [.data [0x12, 0x12, 0x10, 0x04, 0x34, 0x34]] ∧
    (ran 0x32000006 (seeded tableNB (frameOpen boot))).bytesSent = 6#18 := by decide

/-- V18: `GenNotSeeded` comes before `FrameOverrun`. -/
theorem test_genSend_priority :
    (ran 0x3200000A { frameOpen boot with bytesSent := 191995#18 }).res =
      [⟨.err .genNotSeeded, 0#32⟩] := by decide

/-- V22b, V23c, V24a, V24b: a diagonal border, a three-way tie, and the tie for second place. -/
theorem test_vorPixel :
    vorPixel [⟨0, 0, 1, 2⟩, ⟨6, 6, 3, 4⟩] 2 3 = some 0#4 ∧
    vorPixel [⟨4, 4, 1, 1⟩, ⟨4, 4, 2, 2⟩, ⟨20, 4, 3, 3⟩] 12 4 = some 1#4 ∧
    vorPixel [⟨15, 10, 1, 2⟩, ⟨10, 16, 3, 3⟩, ⟨16, 10, 4, 4⟩] 10 10 = some 0#4 ∧
    vorPixel [⟨15, 10, 1, 2⟩, ⟨16, 10, 4, 4⟩, ⟨10, 16, 3, 3⟩] 10 10 = some 1#4 := by decide

/-- V17: a panel that stays busy. -/
theorem test_hang :
    (ran 0x23000000 { frameOpen boot with bytesSent := 192000#18, busyIn := [true, true, true] }).res = [] ∧
    (ran 0x23000000 { frameOpen boot with bytesSent := 192000#18, busyIn := [true, true, true] }).seqState =
      .frameClosed ∧
    (ran 0x23000000 { frameOpen boot with bytesSent := 192000#18, busyIn := [true, true, true] }).longwait =
      true := by decide

/-- A `BUSY_ACTIVE_LEVEL` of 0 (TENV of these tests): a low pin reads busy. -/
theorem test_busyPin : (deliver (.busyPin false) boot).busyIn = [true] := by decide

/-! ## Witnesses: a state and operands that meet the hypotheses of each statement that has some -/

/-- An operation in flight: `SEND_CHUNK 2` with one byte taken, the last bytes of a frame. -/
def sending : State :=
  { frameOpen tiny with
      bytesSent := 191998#18, byteIn := [0x66], running := some (.sendChunk 2 [0x11]) }

/-- A refresh in progress. -/
def refreshing : State :=
  { frameOpen tiny with
      seqState := .frameClosed, busyIn := [true, true], running := some (.endFrame .e4 1) }

/-- An `INIT` that has read busy once, with a clear answer to come. -/
def initialising : State :=
  { tiny with pwrEn := true, rst := true, busyIn := [false], running := some (.init .i4 1) }

/-- A word at the port of an idle block. -/
def waitingWord (w : Word) : State := { tiny with opIn := [w, 0x01000000#32] }

theorem test_witness_DecodeOfEncodeIsTheOperation : (Instr.genSend 1048575).wellFormed = true := by decide

theorem test_witness_EncodeOfDecodeIsTheWord : decode 0x320FFFFF#32 = .ok (.genSend 1048575) := by decide

theorem test_witness_EveryWordRunsOrEndsIllegalOp_runs :
    (waitingWord 0x320FFFFF#32).resetIn = none ∧ (waitingWord 0x320FFFFF#32).running = none ∧
    (waitingWord 0x320FFFFF#32).opIn = 0x320FFFFF#32 :: [0x01000000#32] ∧
    (0x320FFFFF#32).extractLsb' 20 4 = 0#4 ∧ ((0x320FFFFF#32).extractLsb' 24 8).toNat ∈
      [0x00, 0x01, 0x10, 0x11, 0x20, 0x21, 0x22, 0x23, 0x24, 0x30, 0x31, 0x32] := by decide

theorem test_witness_EveryWordRunsOrEndsIllegalOp_ends :
    (waitingWord 0x33000000#32).resetIn = none ∧ (waitingWord 0x33000000#32).running = none ∧
    (waitingWord 0x33000000#32).opIn = 0x33000000#32 :: [0x01000000#32] ∧
    ¬((0x33000000#32).extractLsb' 20 4 = 0#4 ∧ ((0x33000000#32).extractLsb' 24 8).toNat ∈
      [0x00, 0x01, 0x10, 0x11, 0x20, 0x21, 0x22, 0x23, 0x24, 0x30, 0x31, 0x32]) := by decide

theorem test_witness_StepRunsTheDecodedOperation :
    (waitingWord 0x10000004#32).resetIn = none ∧ (waitingWord 0x10000004#32).running = none ∧
    (waitingWord 0x10000004#32).opIn = 0x10000004#32 :: [0x01000000#32] ∧
    decode 0x10000004#32 = .ok (.pack 4) := by decide

theorem test_witness_IdleBlockDoesNothing : tiny.resetIn = none ∧ tiny.running = none ∧ tiny.opIn = [] := by decide

theorem test_witness_NoWordIsTakenWhileAnOperationRuns :
    sending.resetIn ≠ some 0 ∧ sending.running = some (.sendChunk 2 [0x11]) ∧
    step sending = .next (after (step sending)) :=
  ⟨by decide, rfl, rfl⟩

theorem test_witness_OneResultExactlyWhenTheOperationEnds :
    sending.resetIn = none ∧ (sending.running ≠ none ∨ sending.opIn ≠ []) ∧
    step sending = .next (after (step sending)) ∧
    refreshing.resetIn = none ∧ (refreshing.running ≠ none ∨ refreshing.opIn ≠ []) ∧
    step refreshing = .next (after (step refreshing)) :=
  ⟨rfl, by decide, rfl, rfl, by decide, rfl⟩

theorem test_witness_OnlyRdRegReturnsAValue_exec :
    exec (.nop 0) tiny = .next (after (exec (.nop 0) tiny)) ∧
    (after (exec (.nop 0) tiny)).res = tiny.res ++ [⟨.ok, 0#32⟩] ∧ (∀ n, Instr.nop 0 ≠ .rdReg n) :=
  ⟨rfl, rfl, fun _ h => nomatch h⟩

theorem test_witness_OnlyRdRegReturnsAValue_step :
    sending.running = some (.sendChunk 2 [0x11]) ∧ step sending = .next (after (step sending)) ∧
    (after (step sending)).res = sending.res ++ [⟨.ok, 0#32⟩] :=
  ⟨rfl, rfl, by decide⟩

theorem test_witness_NopFollowsItsRule : (1 : Nat) ≠ 0 := by decide

theorem test_witness_RdRegFollowsItsRule : 2 < 3 := by decide

theorem test_witness_PackSeqAndUnpackSeqItemByItem :
    ([6, 0] : List Pixel).length % 2 = 0 ∧ ([6, 0] : List Pixel)[2 * 0]? = some 6 ∧
    ([6, 0] : List Pixel)[2 * 0 + 1]? = some 0 ∧ ([0x60] : List Byte)[0]? = some 0x60 := by decide

theorem test_witness_PackFollowsItsRule_badCount : 5 > 2 * tiny.params.chunkMax := by decide
theorem test_witness_PackFollowsItsRule_oddLength : 3 ≤ 2 * tiny.params.chunkMax ∧ 3 % 2 = 1 := by decide
theorem test_witness_MissingItemsHoldTheOperation_pack :
    4 ≤ 2 * tiny.params.chunkMax ∧ 4 % 2 = 0 ∧
    { tiny with pixIn := [1, 2, 3] }.pixIn.length < 4 := by decide
theorem test_witness_PackFollowsItsRule_invalidColor :
    2 ≤ 2 * tiny.params.chunkMax ∧ 2 % 2 = 0 ∧ 2 ≤ { tiny with pixIn := [6, 7] }.pixIn.length ∧
    ∃ p ∈ { tiny with pixIn := [6, 7] }.pixIn.take 2, p.toNat > 6 := by decide
theorem test_witness_PackFollowsItsRule_ok :
    4 ≤ 2 * tiny.params.chunkMax ∧ 4 % 2 = 0 ∧ 4 ≤ { tiny with pixIn := [6, 0, 6, 6] }.pixIn.length ∧
    ∀ p ∈ { tiny with pixIn := [6, 0, 6, 6] }.pixIn.take 4, p.toNat ≤ 6 := by decide

theorem test_witness_UnpackFollowsItsRule_badCount : 3 > tiny.params.chunkMax := by decide
theorem test_witness_MissingItemsHoldTheOperation_unpack :
    2 ≤ tiny.params.chunkMax ∧ { tiny with byteIn := [0x11] }.byteIn.length < 2 := by decide
theorem test_witness_UnpackFollowsItsRule_invalidColor :
    1 ≤ tiny.params.chunkMax ∧ 1 ≤ { tiny with byteIn := [0x17] }.byteIn.length ∧
    ∃ b ∈ { tiny with byteIn := [0x17] }.byteIn.take 1,
      (b.extractLsb' 4 4).toNat > 6 ∨ (b.extractLsb' 0 4).toNat > 6 := by decide
theorem test_witness_UnpackFollowsItsRule_ok :
    2 ≤ tiny.params.chunkMax ∧ 2 ≤ { tiny with byteIn := [0x66, 0x00] }.byteIn.length ∧
    ∀ b ∈ { tiny with byteIn := [0x66, 0x00] }.byteIn.take 2,
      (b.extractLsb' 4 4).toNat ≤ 6 ∧ (b.extractLsb' 0 4).toNat ≤ 6 := by decide

theorem test_witness_PackAndUnpackUndoEachOther_pack :
    exec (.pack 2) { tiny with pixIn := [6, 0, 3] } =
      .next (after (exec (.pack 2) { tiny with pixIn := [6, 0, 3] })) ∧
    (after (exec (.pack 2) { tiny with pixIn := [6, 0, 3] })).res = tiny.res ++ [⟨.ok, 0#32⟩] ∧
    { tiny with byteIn := [0x60, 0x11] }.params = tiny.params ∧
    tiny.byteOut ++ { tiny with byteIn := [0x60, 0x11] }.byteIn =
      (after (exec (.pack 2) { tiny with pixIn := [6, 0, 3] })).byteOut ++ [0x11] :=
  ⟨rfl, rfl, rfl, rfl⟩
theorem test_witness_PackAndUnpackUndoEachOther_unpack :
    exec (.unpack 1) { tiny with byteIn := [0x60, 0x11] } =
      .next (after (exec (.unpack 1) { tiny with byteIn := [0x60, 0x11] })) ∧
    (after (exec (.unpack 1) { tiny with byteIn := [0x60, 0x11] })).res = tiny.res ++ [⟨.ok, 0#32⟩] ∧
    { tiny with pixIn := [6, 0, 3] }.params = tiny.params ∧
    tiny.pixOut ++ { tiny with pixIn := [6, 0, 3] }.pixIn =
      (after (exec (.unpack 1) { tiny with byteIn := [0x60, 0x11] })).pixOut ++ [3] :=
  ⟨rfl, rfl, rfl, rfl⟩

theorem test_witness_PackMayBeCutAtEvenIndices :
    ([6, 0] : List Pixel).length % 2 = 0 ∧ (∀ a ∈ ([6, 0] : List Pixel), a.toNat ≤ 6) ∧
    2 % 2 = 0 ∧
    exec (.pack (2 + 2)) { tiny with pixIn := [6, 0, 3, 4] } =
      .next (after (exec (.pack (2 + 2)) { tiny with pixIn := [6, 0, 3, 4] })) ∧
    (after (exec (.pack (2 + 2)) { tiny with pixIn := [6, 0, 3, 4] })).res = tiny.res ++ [⟨.ok, 0#32⟩] :=
  ⟨by decide, by decide, by decide, rfl, rfl⟩

theorem test_witness_ItemsMayArriveLate_pack :
    ({ tiny with pixIn := [1, 2, 3] }).resetIn = none ∧
    (after (exec (.pack 4) { tiny with pixIn := [1, 2, 3] })).running ≠ none ∧
    exec (.pack 4) { tiny with pixIn := [1, 2, 3] } = .next (after (exec (.pack 4) { tiny with pixIn := [1, 2, 3] })) :=
  ⟨rfl, by decide, rfl⟩
theorem test_witness_ItemsMayArriveLate_unpack :
    ({ tiny with byteIn := [0x11] }).resetIn = none ∧
    (after (exec (.unpack 2) { tiny with byteIn := [0x11] })).running ≠ none ∧
    exec (.unpack 2) { tiny with byteIn := [0x11] } = .next (after (exec (.unpack 2) { tiny with byteIn := [0x11] })) :=
  ⟨rfl, by decide, rfl⟩
theorem test_witness_ItemsMayArriveLate_sendChunk :
    ((frameOpen tiny)).resetIn = none ∧
    (after (exec (.sendChunk 1) (frameOpen tiny))).running ≠ none ∧
    exec (.sendChunk 1) (frameOpen tiny) = .next (after (exec (.sendChunk 1) (frameOpen tiny))) :=
  ⟨rfl, by decide, rfl⟩
theorem test_witness_ItemsMayArriveLate_genScatter :
    ({ tiny with rngIn := draws40.take 199 }).resetIn = none ∧
    (after (exec (.genScatter 0) { tiny with rngIn := draws40.take 199 })).running ≠ none ∧
    exec (.genScatter 0) { tiny with rngIn := draws40.take 199 } =
      .next (after (exec (.genScatter 0) { tiny with rngIn := draws40.take 199 })) :=
  ⟨rfl, by decide +kernel, rfl⟩
theorem test_witness_ItemsMayArriveLate_init :
    ({ tiny with busyIn := [true] }).resetIn = none ∧
    (after (exec (.init 0) { tiny with busyIn := [true] })).running ≠ none ∧
    exec (.init 0) { tiny with busyIn := [true] } = .next (after (exec (.init 0) { tiny with busyIn := [true] })) :=
  ⟨rfl, by decide, rfl⟩
theorem test_witness_ItemsMayArriveLate_endFrame :
    ({ frameOpen tiny with busyIn := [false, true] }).resetIn = none ∧
    (after (exec (.endFrame 0) { frameOpen tiny with busyIn := [false, true] })).running ≠ none ∧
    exec (.endFrame 0) { frameOpen tiny with busyIn := [false, true] } =
      .next (after (exec (.endFrame 0) { frameOpen tiny with busyIn := [false, true] })) :=
  ⟨rfl, by decide, rfl⟩

theorem test_witness_BusyWaitEndsAtTheFirstClearReading :
    { refreshing with running := some (.endFrame .e4 0) }.running = some (.endFrame .e4 0) ∧
    { refreshing with busyIn := [true, true, false, true] }.busyIn = busyTimes 2 [true] ∧
    refreshing.busyIn = List.replicate 2 true := by decide

theorem test_witness_InitFollowsItsRule :
    (1 : Nat) ≠ 0 ∧ (frameOpen tiny).seqState = .frameOpen ∧
    { tiny with busyIn := [true, true, false, true] }.seqState ≠ .frameOpen ∧
    { tiny with busyIn := [true, true, false, true] }.busyIn = busyTimes 2 [true] := by decide

theorem test_witness_BeginFrameFollowsItsRule :
    (1 : Nat) ≠ 0 ∧ (tiny.seqState ≠ .configured ∧ tiny.seqState ≠ .poweredOff) ∧
    ({ tiny with seqState := .poweredOff }.seqState = .poweredOff ∧
      { tiny with seqState := .poweredOff }.pwrEn = false) ∧
    ((configured tiny).seqState = .configured ∧ (configured tiny).pwrEn = true) := by decide

theorem test_witness_SendChunkFollowsItsRule_checks :
    3 > tiny.params.chunkMax ∧ (2 ≤ tiny.params.chunkMax ∧ tiny.seqState ≠ .frameOpen) ∧
    (2 ≤ tiny.params.chunkMax ∧ sending.seqState = .frameOpen ∧
      { sending with bytesSent := 191999#18 }.bytesSent.toNat + 2 > 192000) := by decide
theorem test_witness_MissingItemsHoldTheOperation_sendChunk :
    2 ≤ tiny.params.chunkMax ∧ sending.seqState = .frameOpen ∧ sending.bytesSent.toNat + 2 ≤ 192000 ∧
    sending.byteIn.length < 2 := by decide
theorem test_witness_SendChunkFollowsItsRule_invalidColor :
    2 ≤ tiny.params.chunkMax ∧ sending.seqState = .frameOpen ∧ sending.bytesSent.toNat + 2 ≤ 192000 ∧
    2 ≤ { sending with byteIn := [0x66, 0x70] }.byteIn.length ∧
    ∃ b ∈ { sending with byteIn := [0x66, 0x70] }.byteIn.take 2,
      (b.extractLsb' 4 4).toNat > 6 ∨ (b.extractLsb' 0 4).toNat > 6 := by decide
theorem test_witness_SendChunkFollowsItsRule_ok :
    2 ≤ tiny.params.chunkMax ∧ sending.seqState = .frameOpen ∧ sending.bytesSent.toNat + 2 ≤ 192000 ∧
    2 ≤ { sending with byteIn := [0x66, 0x06] }.byteIn.length ∧
    ∀ b ∈ { sending with byteIn := [0x66, 0x06] }.byteIn.take 2,
      (b.extractLsb' 4 4).toNat ≤ 6 ∧ (b.extractLsb' 0 4).toNat ≤ 6 := by decide

theorem test_witness_ChunkIsAllOrNothing :
    exec (.sendChunk 1) { frameOpen tiny with byteIn := [0x06] } =
      .next (after (exec (.sendChunk 1) { frameOpen tiny with byteIn := [0x06] })) ∧
    (([0x11] : List Byte).length ≤ 2 ∧ sending.resetIn = none ∧ sending.running = some (.sendChunk 2 [0x11]) ∧
      step sending = .next (after (step sending))) :=
  ⟨rfl, by decide, rfl, rfl, rfl⟩

theorem test_witness_EndFrameFollowsItsRule :
    (1 : Nat) ≠ 0 ∧ tiny.seqState ≠ .frameOpen ∧
    { frameOpen tiny with busyIn := [false, true, true, false, true, false, true] }.seqState = .frameOpen ∧
    { frameOpen tiny with busyIn := [false, true, true, false, true, false, true] }.busyIn =
      busyTimes 0 (busyTimes 2 (busyTimes 1 [true])) := by decide

theorem test_witness_DeadPanelHangsTheSequencer :
    ((frameOpen tiny).seqState = .frameOpen ∧
      { frameOpen tiny with busyIn := [true, true] }.busyIn = List.replicate 2 true) ∧
    (tiny.seqState ≠ .frameOpen ∧ { tiny with busyIn := [true] }.busyIn = List.replicate 1 true) ∧
    (refreshing.resetIn = none ∧ refreshing.running = some (.endFrame .e4 1) ∧
      refreshing.busyIn = List.replicate 2 true) := by decide

theorem test_witness_TurnOffFollowsItsRule :
    (1 : Nat) ≠ 0 ∧ exec (.turnOff 0) (frameOpen tiny) = .next (after (exec (.turnOff 0) (frameOpen tiny))) :=
  ⟨by decide, rfl⟩

theorem test_witness_SequencerTransitions_starts :
    (exec (.beginFrame 0) (configured tiny) = .next (after (exec (.beginFrame 0) (configured tiny))) ∧
      (after (exec (.beginFrame 0) (configured tiny))).res = tiny.res ++ [⟨.ok, 0#32⟩]) ∧
    (exec (.beginFrame 0) tiny = .next (after (exec (.beginFrame 0) tiny)) ∧
      (after (exec (.beginFrame 0) tiny)).res = tiny.res ++ [⟨.err .illegalState, 0#32⟩]) ∧
    (exec (.endFrame 0) (frameOpen tiny) = .next (after (exec (.endFrame 0) (frameOpen tiny))) ∧
      (after (exec (.endFrame 0) (frameOpen tiny))).running ≠ none) :=
  ⟨⟨rfl, rfl⟩, ⟨rfl, rfl⟩, rfl, by decide⟩
theorem test_witness_SequencerTransitions_goesOn :
    (refreshing.resetIn = none ∧ refreshing.running = some (.endFrame .e4 1) ∧
      step refreshing = .next (after (step refreshing)) ∧ EndStep.e4 ≠ .e0) ∧
    (initialising.resetIn = none ∧ initialising.running = some (.init .i4 1) ∧
      step initialising = .next (after (step initialising))) ∧
    (sending.resetIn = none ∧ sending.running = some (.sendChunk 2 [0x11]) ∧
      step sending = .next (after (step sending))) :=
  ⟨⟨rfl, rfl, rfl, by decide⟩, ⟨rfl, rfl, rfl⟩, rfl, rfl, rfl⟩

/-- Chunks of the largest and of other lengths that fill a frame exactly. -/
def chunkStart : State :=
  { frameOpen tiny with
      bytesSent := 191997#18, byteIn := [0x11, 0x22, 0x33, 0x44],
      opIn := [0x22000002#32, 0x22000000#32, 0x22000001#32, 0x00000000#32] }

theorem test_witness_AnyChunkingSendsTheSameBytes :
    chunkStart.resetIn = none ∧ chunkStart.running = none ∧ chunkStart.seqState = .frameOpen ∧
    (∀ c ∈ ([[0x11, 0x22], [], [0x33]] : List (List Byte)),
      c.length ≤ chunkStart.params.chunkMax ∧ ∀ b ∈ c, validPacked b = true) ∧
    chunkStart.bytesSent.toNat + ([[0x11, 0x22], [], [0x33]] : List (List Byte)).flatten.length ≤ 192000 ∧
    chunkStart.opIn = ([[0x11, 0x22], [], [0x33]] : List (List Byte)).map
      (fun c => encode (.sendChunk c.length)) ++ [0x00000000#32] ∧
    chunkStart.byteIn = ([[0x11, 0x22], [], [0x33]] : List (List Byte)).flatten ++ [0x44] := by decide

/-- A whole frame in one chunk, for a `CHUNK_MAX` of 192000. -/
def liveStart : State :=
  { State.reset with
      params := tenvWith 191999, byteIn := List.replicate 192000 0x11#8 ++ [0x22#8],
      busyIn := [false, false, true, false, false],
      opIn := [0x20000000#32, 0x21000000#32, 0x2202EE00#32, 0x23000000#32, 0x24000000#32] }

theorem test_witness_WholeLiveFrameReachesThePanel :
    liveStart.resetIn = none ∧ liveStart.running = none ∧ liveStart.seqState ≠ .frameOpen ∧
    (∀ c ∈ [List.replicate 192000 0x11#8],
      c.length ≤ liveStart.params.chunkMax ∧ ∀ b ∈ c, validPacked b = true) ∧
    [List.replicate 192000 0x11#8].flatten.length = 192000 ∧
    liveStart.opIn = encode (.init 0) :: encode (.beginFrame 0) ::
      ([List.replicate 192000 0x11#8].map (fun c => encode (.sendChunk c.length)) ++
        encode (.endFrame 0) :: encode (.turnOff 0) :: []) ∧
    liveStart.byteIn = [List.replicate 192000 0x11#8].flatten ++ [0x22#8] ∧
    liveStart.busyIn = busyTimes 0 (busyTimes 0 (busyTimes 1 (busyTimes 0 []))) := by
  refine ⟨rfl, rfl, by decide, ?_, ?_, ?_, ?_, rfl⟩
  · intro c hc
    rw [List.mem_singleton.mp hc, List.length_replicate]
    refine ⟨Nat.le_refl 192000, fun b hb => ?_⟩
    rw [List.eq_of_mem_replicate hb]
    decide
  · rw [List.flatten_singleton, List.length_replicate]
  · rw [List.map_singleton, List.length_replicate]
    decide
  · rw [List.flatten_singleton]
    rfl

theorem test_witness_GenScatterFollowsItsRule :
    (1 : Nat) ≠ 0 ∧ 200 ≤ { tiny with rngIn := draws40 }.rngIn.length := by decide +kernel
theorem test_witness_MissingItemsHoldTheOperation_genScatter :
    { tiny with rngIn := draws40.take 199 }.rngIn.length < 200 := by decide +kernel

/-- The generator near the end of the frame. -/
def lastPixels : State :=
  { seeded tableNA (frameOpen tiny) with genCursor := 383996#19, bytesSent := 191998#18 }

theorem test_witness_GenChunkFollowsItsRule :
    5 > 2 * tiny.params.chunkMax ∧ (3 ≤ 2 * tiny.params.chunkMax ∧ 3 % 2 = 1) ∧
    (4 ≤ 2 * tiny.params.chunkMax ∧ 4 % 2 = 0 ∧ tiny.nodesValid = false) ∧
    (4 ≤ 2 * tiny.params.chunkMax ∧ 4 % 2 = 0 ∧ lastPixels.nodesValid = true ∧
      { lastPixels with genCursor := 383998#19 }.genCursor.toNat + 4 > 384000) ∧
    (4 ≤ 2 * lastPixels.params.chunkMax ∧ lastPixels.nodesValid = true ∧
      lastPixels.genCursor.toNat + 4 ≤ 384000 ∧ 2 ≤ lastPixels.nodes.length) := by decide

theorem test_witness_GenSendFollowsItsRule :
    3 > tiny.params.chunkMax ∧ (2 ≤ tiny.params.chunkMax ∧ tiny.seqState ≠ .frameOpen) ∧
    (2 ≤ tiny.params.chunkMax ∧ sending.seqState = .frameOpen ∧ sending.nodesValid = false) ∧
    (2 ≤ tiny.params.chunkMax ∧ lastPixels.seqState = .frameOpen ∧ lastPixels.nodesValid = true ∧
      { lastPixels with genCursor := 383998#19 }.genCursor.toNat + 2 * 2 > 384000) ∧
    (2 ≤ tiny.params.chunkMax ∧ lastPixels.genCursor.toNat + 2 * 2 ≤ 384000 ∧
      { lastPixels with bytesSent := 191999#18 }.bytesSent.toNat + 2 > 192000) ∧
    (2 ≤ lastPixels.params.chunkMax ∧ lastPixels.genCursor.toNat + 2 * 2 ≤ 384000 ∧
      lastPixels.bytesSent.toNat + 2 ≤ 192000 ∧ 2 ≤ lastPixels.nodes.length) := by decide

theorem test_witness_ScanFindsTheTwoNearestNodes : 2 ≤ tableNA.length := by decide

/-- The two candidates of a pixel. -/
def nearest (nodes : List Node) (x y : Nat) : Near × Near :=
  (twoNearest nodes x y).getD (⟨0, 0, ⟨0, 0, 0, 0⟩⟩, ⟨0, 0, ⟨0, 0, 0, 0⟩⟩)

theorem test_witness_BorderTestDecidesTheRealDistance :
    (nearest tableNA 4 0).1.dist = dist2 4 0 (nearest tableNA 4 0).1.node ∧
    (nearest tableNA 4 0).2.dist = dist2 4 0 (nearest tableNA 4 0).2.node ∧
    ((nearest tableNA 4 0).1.node.x ≠ (nearest tableNA 4 0).2.node.x ∨
      (nearest tableNA 4 0).1.node.y ≠ (nearest tableNA 4 0).2.node.y) := by decide

theorem test_witness_PixelColourFollowsItsRule :
    twoNearest tableNA 5 0 = some ((nearest tableNA 5 0).1, (nearest tableNA 5 0).2) := by decide

theorem test_witness_EveryPixelIsAColour :
    tableNA.all nodeInRange = true ∧ 2 ≤ tableNA.length := by decide

theorem test_witness_GeneratorNumbersStayInRange :
    799 < 800 ∧ 479 < 480 ∧ tableNA.all nodeInRange = true ∧
    twoNearest tableNA 799 479 = some ((nearest tableNA 799 479).1, (nearest tableNA 799 479).2) := by decide

/-- Table NC of section 4.1. -/
def tableNC : List Node := [⟨4, 4, 1, 1⟩, ⟨4, 4, 2, 2⟩, ⟨20, 4, 3, 3⟩]

theorem test_witness_CoincidentNodesHaveNoBorder :
    twoNearest tableNC 12 4 = some ((nearest tableNC 12 4).1, (nearest tableNC 12 4).2) ∧
    (nearest tableNC 12 4).1.node.x = (nearest tableNC 12 4).2.node.x ∧
    (nearest tableNC 12 4).1.node.y = (nearest tableNC 12 4).2.node.y := by decide

theorem test_witness_ChunkingDoesNotChangeThePattern_chunk :
    2 % 2 = 0 ∧ exec (.genChunk (2 + 2)) lastPixels = .next (after (exec (.genChunk (2 + 2)) lastPixels)) ∧
    (after (exec (.genChunk (2 + 2)) lastPixels)).res = lastPixels.res ++ [⟨.ok, 0#32⟩] :=
  ⟨rfl, rfl, rfl⟩
theorem test_witness_ChunkingDoesNotChangeThePattern_send :
    2 ≠ 0 ∧ exec (.genSend 2) lastPixels = .next (after (exec (.genSend 2) lastPixels)) ∧
    (after (exec (.genSend 2) lastPixels)).res = lastPixels.res ++ [⟨.ok, 0#32⟩] :=
  ⟨by decide, rfl, rfl⟩

/-- `GEN_SEND` operations that end with the frame. -/
def generatorStart : State :=
  { lastPixels with
      genCursor := 383994#19, bytesSent := 191997#18,
      opIn := [0x32000002#32, 0x32000000#32, 0x32000001#32, 0x23000000#32] }

theorem test_witness_AnyGeneratorChunkingSendsThePattern :
    generatorStart.resetIn = none ∧ generatorStart.running = none ∧ generatorStart.seqState = .frameOpen ∧
    generatorStart.nodesValid = true ∧ 2 ≤ generatorStart.nodes.length ∧
    (∀ l ∈ [2, 0, 1], l ≤ generatorStart.params.chunkMax) ∧
    generatorStart.genCursor.toNat + 2 * [2, 0, 1].sum ≤ 384000 ∧
    generatorStart.bytesSent.toNat + [2, 0, 1].sum ≤ 192000 ∧
    generatorStart.opIn = [2, 0, 1].map (fun l => encode (.genSend l)) ++ [0x23000000#32] := by decide

theorem test_witness_FrameMacrosCoverTheFrame : 1 ≤ 1 := by decide

theorem test_witness_FirstCauseInOrderIsReported :
    firstCause (.sendChunk 3) tiny = some .badCount ∧
    firstCause (.sendChunk 1) { frameOpen tiny with byteIn := [0x07] } = none ∧
    exec (.sendChunk 1) { frameOpen tiny with byteIn := [0x07] } =
      .next (after (exec (.sendChunk 1) { frameOpen tiny with byteIn := [0x07] })) ∧
    (after (exec (.sendChunk 1) { frameOpen tiny with byteIn := [0x07] })).res =
      tiny.res ++ [⟨.err .invalidColor, 0#32⟩] :=
  ⟨by decide, by decide, rfl, rfl⟩

theorem test_witness_FailuresAreThoseOfTheTable :
    exec (.genSend 1) { lastPixels with genCursor := 384000#19 } =
      .next (after (exec (.genSend 1) { lastPixels with genCursor := 384000#19 })) ∧
    (after (exec (.genSend 1) { lastPixels with genCursor := 384000#19 })).res =
      lastPixels.res ++ [⟨.err .genOverrun, 0#32⟩] :=
  ⟨rfl, rfl⟩

theorem test_witness_FailuresArePrecise_check :
    exec (.pack 3) tiny = .next (after (exec (.pack 3) tiny)) ∧
    (after (exec (.pack 3) tiny)).res = tiny.res ++ [⟨.err .oddLength, 0#32⟩] ∧
    ErrCode.oddLength ≠ .invalidColor :=
  ⟨rfl, rfl, by decide⟩
theorem test_witness_FailuresArePrecise_data :
    exec (.unpack 1) { tiny with byteIn := [0x17] } =
      .next (after (exec (.unpack 1) { tiny with byteIn := [0x17] })) ∧
    (after (exec (.unpack 1) { tiny with byteIn := [0x17] })).res =
      tiny.res ++ [⟨.err .invalidColor, 0#32⟩] :=
  ⟨rfl, rfl⟩

theorem test_witness_FailuresArePrecise_goesOn :
    sending.resetIn = none ∧ { sending with byteIn := [0x77] }.running = some (.sendChunk 2 [0x11]) ∧
    step { sending with byteIn := [0x77] } = .next (after (step { sending with byteIn := [0x77] })) ∧
    (after (step { sending with byteIn := [0x77] })).res = sending.res ++ [⟨.err .invalidColor, 0#32⟩] ∧
    ([0x11] : List Byte).length ≤ 2 :=
  ⟨rfl, rfl, rfl, rfl, by decide⟩

theorem test_witness_ErrFlagsFollowTheStatus :
    (waitingWord 0x7F000000#32).resetIn ≠ some 0 ∧
    step (waitingWord 0x7F000000#32) = .next (after (step (waitingWord 0x7F000000#32))) := ⟨by decide, rfl⟩

theorem test_witness_StickyFlagsStaySet :
    refreshing.resetIn ≠ some 0 ∧
    step { refreshing with longwait := true, shortframe := true, err := 0x100#9 } =
      .next (after (step { refreshing with longwait := true, shortframe := true, err := 0x100#9 })) := ⟨by decide, rfl⟩

theorem test_witness_UnitsKeepTheirStateToThemselves_starts :
    (exec (.genChunk 4) lastPixels = .next (after (exec (.genChunk 4) lastPixels)) ∧
      Instr.genChunk 4 ∈ [.nop 0, .rdReg 0, .pack 0, .unpack 0, .genScatter 0, .genChunk 4]) ∧
    (exec (.sendChunk 2) chunkStart = .next (after (exec (.sendChunk 2) chunkStart)) ∧
      Instr.sendChunk 2 ∈ [.nop 0, .rdReg 0, .pack 0, .unpack 0, .init 0, .beginFrame 0, .sendChunk 2,
        .endFrame 0, .turnOff 0]) ∧
    (exec (.endFrame 0) chunkStart = .next (after (exec (.endFrame 0) chunkStart)) ∧
      Instr.endFrame 0 ∈ [.init 0, .beginFrame 0, .endFrame 0, .turnOff 0]) :=
  ⟨⟨rfl, by decide⟩, ⟨rfl, by decide⟩, rfl, by decide⟩
theorem test_witness_UnitsKeepTheirStateToThemselves_goesOn :
    (step { tiny with running := some (.pack 2 [1]) } =
        .next (after (step { tiny with running := some (.pack 2 [1]) })) ∧
      { tiny with running := some (.pack 2 [1]) }.running ∈
        [some (.pack 2 [1]), some (.unpack 0 []), some (.genScatter [])]) ∧
    (step refreshing = .next (after (step refreshing)) ∧
      refreshing.running ∈ [some (.init .i4 0), some (.endFrame .e4 1)]) :=
  ⟨⟨rfl, by decide⟩, rfl, by decide⟩

theorem test_witness_StreamsMoveForwardOnly :
    refreshing.resetIn ≠ some 0 ∧ step refreshing = .next (after (step refreshing)) := ⟨by decide, rfl⟩

theorem test_witness_ParametersNeverChange :
    step chunkStart = .next (after (step chunkStart)) := rfl

theorem test_witness_BufferReadsWhatWasWritten :
    0 + ([0x11, 0x22] : List Byte).length ≤ tiny.params.chunkMax ∧
    tiny.params.chunkMax < 1 + ([0x11, 0x22] : List Byte).length ∧ Memory.wf tiny.buf = true := by decide

/-- Reset in the second delay of an `INIT`, right after its level: the cut trace, with no result, and then the reset. -/
theorem test_reset_inside_init :
    (after (step { waitingWord 0x20000000#32 with resetIn := some 8 })).trace =
      [.pwr true, .rst true, .delay 20, .rst false] ∧
    (after (step { waitingWord 0x20000000#32 with resetIn := some 8 })).running = some (.init .i2 0) ∧
    (after (step { waitingWord 0x20000000#32 with resetIn := some 8 })).res = [] ∧
    after (step (after (step { waitingWord 0x20000000#32 with resetIn := some 8 }))) = tiny := by decide

theorem test_witness_ResetDiscardsEverything :
    tiny.resetIn = none ∧ { tiny with resetIn := some 3 }.resetIn = some 3 ∧
    { sending with resetIn := some 0 }.resetIn = some 0 ∧
    (sending.resetIn = none ∧ step sending = .next (after (step sending)) ∧
      sending.trace <+: sending.trace ∧ sending.trace <+: (after (step sending)).trace) :=
  ⟨rfl, rfl, rfl, rfl, rfl, List.prefix_refl _, by decide⟩

/-- An operation in flight that meets the invariant, at the end of a frame. -/
theorem test_witness_sending_inv : sending.Inv where
  bufCanonical := rfl
  bufWithin := rfl
  bytesSent := by decide
  genCursor := by decide
  cursorEven := by decide
  nodesValid := by decide
  idle := fun _ h => nomatch h
  inFlight := fun _ r h => by
    cases h
    exact ⟨⟨by decide, fun _ => ⟨rfl, rfl⟩, fun _ => rfl, (fun h => nomatch h), (fun h => nomatch h)⟩,
      rfl, by decide, by decide, by decide⟩

theorem test_witness_EveryStepKeepsTheInvariant :
    sending.Inv ∧ step sending = .next (after (step sending)) := ⟨test_witness_sending_inv, rfl⟩

theorem test_witness_EveryInputKeepsTheInvariant : sending.Inv := test_witness_sending_inv

/-- A refresh in progress meets the invariant. -/
theorem test_witness_InvariantStatesNeverStop : refreshing.Inv where
  bufCanonical := rfl
  bufWithin := rfl
  bytesSent := by decide
  genCursor := by decide
  cursorEven := by decide
  nodesValid := by decide
  idle := fun _ h => nomatch h
  inFlight := fun _ r h => by
    cases h
    exact ⟨.inr (.inl rfl), rfl, rfl, rfl⟩

/-- An idle open frame, for the clause on what a read of `STATUS` shows. -/
theorem test_witness_StatusRegisterLayout :
    { lastPixels with nodesValid := false }.Inv ∧ { lastPixels with nodesValid := false }.resetIn ≠ some 0 ∧
    { lastPixels with nodesValid := false }.running = none where
  right := ⟨by decide, rfl⟩
  left :=
    { bufCanonical := rfl
      bufWithin := rfl
      bytesSent := by decide
      genCursor := by decide
      cursorEven := by decide
      nodesValid := fun h => nomatch h
      idle := fun _ _ =>
        ⟨by decide, fun _ => ⟨rfl, rfl⟩, fun _ => rfl, (fun h => nomatch h), (fun h => nomatch h)⟩
      inFlight := fun _ r h => nomatch h }

end Sys2Proof.Tests
end

/-! The error flags and the results move together (R36, R98, R224), and the reset values (R46). -/

namespace Sys2Proof.Machine

/-! ### What a plan reports -/

/-- All that can happen to `ERR` and `res` together between `s` and `t`: at most one result is put, and exactly a failing
one sets its flag (R98, R224). -/
inductive Reports (s t : State) : Prop where
  | nothing (err : t.err = s.err) (res : t.res = s.res)
  | success (v : Word) (err : t.err = s.err) (res : t.res = s.res ++ [⟨.ok, v⟩])
  | failure (c : ErrCode) (err : t.err = s.err ||| errBit c) (res : t.res = s.res ++ [⟨.err c, 0#32⟩])

/-- A report looks at nothing of the two states but `ERR` and `res`. -/
theorem Reports.congr {s s' t t' : State} (h : Reports s t) (hse : s.err = s'.err) (hsr : s.res = s'.res)
    (hte : t'.err = t.err) (htr : t'.res = t.res) : Reports s' t' := by
  cases h with
  | nothing he hr => exact .nothing (hte.trans (he.trans hse)) (htr.trans (hr.trans hsr))
  | success v he hr => exact .success v (hte.trans (he.trans hse)) (htr.trans (hsr ▸ hr))
  | failure c he hr => exact .failure c (hte.trans (hse ▸ he)) (htr.trans (hsr ▸ hr))

theorem Onward.reports {s t : State} (h : Onward s t) : Reports s t := .nothing h.err h.res

/-- The last action of a plan puts a success, puts a failure with its flag, or waits. -/
theorem Stops.reports {a : Action} (h : Stops a) (s : State) : Reports s (a s) := by
  cases h with
  | complete v => exact .success v rfl rfl
  | raise c => exact .failure c rfl rfl
  | stand r => exact .nothing rfl rfl

/-- Only the last action of a plan touches `ERR` and `res`. -/
theorem Planned.reports {as : List Action} (h : Planned as) (s : State) : Reports s (perform as s) := by
  obtain ⟨before, last, rfl, hbefore, hlast⟩ := h
  have o := perform_onward hbefore s
  rw [perform_append]
  exact (hlast.reports _).congr o.err o.res rfl rfl

/-! ### What a step reports -/

/-- A step with no reset on its way. -/
theorem step_reports_of_no_reset {s t : State} (hs : s.resetIn = none) (h : step s = .next t) : Reports s t := by
  rw [step_eq_carryOut hs] at h
  cases hp : planStep s with
  | error f => rw [hp] at h; cases h
  | ok as =>
    rw [hp] at h
    cases h
    rcases planStep_cases hp with ⟨_, pl⟩ | ⟨_, _, rfl⟩ | ⟨w, _, bs, _, _, rfl, pl⟩
    · exact pl.reports s
    · exact .nothing rfl rfl
    · exact (pl.reports (takeWord w s)).congr rfl rfl rfl rfl

/-- Every step but the reset itself: a step that reset cuts reports what the whole step reports, or nothing. -/
theorem step_reports {s t : State} (hs : s.resetIn ≠ some 0) (h : step s = .next t) : Reports s t := by
  cases hn : s.resetIn with
  | none => exact step_reports_of_no_reset hn h
  | some n =>
    cases n with
    | zero => exact absurd hn hs
    | succ n =>
      rcases step_cut_cases hn h with ⟨u, hu, ht⟩ | ⟨_, _, ⟨_, o⟩ | ⟨w, _, _, _, o⟩⟩
      · have whole : Reports s u := (step_reports_of_no_reset rfl hu).congr rfl rfl rfl rfl
        exact whole.congr rfl rfl (by rw [ht]) (by rw [ht])
      · exact o.reports
      · exact o.reports.congr rfl rfl rfl rfl

/-- A flag is added only with its failing result. -/
theorem Reports.err_cases {s t : State} (h : Reports s t) :
    t.err = s.err ∨ ∃ c, t.err = s.err ||| errBit c ∧ t.res = s.res ++ [⟨.err c, 0#32⟩] := by
  cases h with
  | nothing he _ => exact .inl he
  | success _ he _ => exact .inl he
  | failure c he hr => exact .inr ⟨c, he, hr⟩

/-- A failing result comes only with its flag. -/
theorem Reports.err_of_res {s t : State} (h : Reports s t) {c : ErrCode} {v : Word}
    (hres : t.res = s.res ++ [⟨.err c, v⟩]) : t.err = s.err ||| errBit c := by
  cases h with
  | nothing _ hr => simp [hr] at hres
  | success _ _ hr => simp [hr] at hres
  | failure c' he hr =>
    have hc : c' = c := by
      rw [hr] at hres
      simp only [List.append_cancel_left_eq, List.cons.injEq, Result.mk.injEq, Status.err.injEq] at hres
      exact hres.1.1
    exact hc ▸ he

/-- Settles O48: every step but the reset itself reports nothing, a success, or a failure with its flag. -/
theorem errFlagsFollowTheStatus : Obligations.ErrFlagsFollowTheStatus := by
  intro s t hs h
  have r : Reports s t := step_reports hs h
  exact ⟨r.err_cases, fun _ _ => r.err_of_res⟩

/-! ### The reset values -/

/-- No address of the empty buffer has a value (R46, R47). -/
@[simp] theorem read_reset_buf (a : Nat) : Memory.read a State.reset.buf = none := rfl

@[simp] theorem statusReg_reset : statusReg State.reset = 0#32 := by decide

/-- Settles O55: the fields as `State.reset` gives them; the buffer and `STATUS` by their own lemmas. -/
theorem resetValues : Obligations.ResetValues :=
  ⟨rfl, rfl, rfl, rfl, rfl, rfl, rfl, rfl, rfl, rfl, rfl, read_reset_buf, rfl, statusReg_reset⟩

end Sys2Proof.Machine

/-! Encoding (spec/30_encoding.md): what the opcode table and the decoder answer (R99, R100), the step that takes a word
(R75, R100), and the chunks of the frame macros (R104). -/

namespace Sys2Proof.Machine

/-! ### The opcode table (R99) -/

/-- The twelve opcodes of rule R99. -/
def assignedOpcodes : List Nat :=
  [0x00, 0x01, 0x10, 0x11, 0x20, 0x21, 0x22, 0x23, 0x24, 0x30, 0x31, 0x32]

@[simp] theorem ofOpcode_opcodeOf (i : Instr) : ofOpcode (opcodeOf i).toNat i.count = some i := by
  cases i <;> rfl

theorem opcodeOf_mem_assignedOpcodes (i : Instr) : (opcodeOf i).toNat ∈ assignedOpcodes := by
  cases i <;> simp [opcodeOf, assignedOpcodes]

/-- The table read from the opcode to the operation is the table read the other way. -/
theorem ofOpcode_eq_some_iff {opcode count : Nat} {i : Instr} :
    ofOpcode opcode count = some i ↔ (opcodeOf i).toNat = opcode ∧ i.count = count := by
  constructor
  · intro h
    unfold ofOpcode at h
    split at h <;> cases h <;> exact ⟨rfl, rfl⟩
  · rintro ⟨rfl, rfl⟩
    exact ofOpcode_opcodeOf i

theorem exists_ofOpcode_eq_some_iff {opcode count : Nat} :
    (∃ i, ofOpcode opcode count = some i) ↔ opcode ∈ assignedOpcodes := by
  constructor
  · rintro ⟨i, h⟩
    obtain ⟨rfl, -⟩ := ofOpcode_eq_some_iff.mp h
    exact opcodeOf_mem_assignedOpcodes i
  · intro h
    simp only [assignedOpcodes, List.mem_cons, List.not_mem_nil, or_false] at h
    rcases h with rfl | rfl | rfl | rfl | rfl | rfl | rfl | rfl | rfl | rfl | rfl | rfl <;> exact ⟨_, rfl⟩

/-! ### The decoder (R100) -/

/-- The operation of a word is fixed by its opcode and its count. -/
theorem decode_eq_ok_iff {w : Word} {i : Instr} :
    decode w = .ok i ↔ rsvField w = 0#4 ∧ opcodeOf i = opcodeField w ∧ i.count = countField w := by
  rw [← BitVec.toNat_inj (x := opcodeOf i), ← ofOpcode_eq_some_iff]
  unfold decode
  by_cases hrsv : rsvField w = 0#4
  · cases ofOpcode (opcodeField w).toNat (countField w) <;> simp [hrsv]
  · simp [hrsv]

/-- The words that are operations: no reserved bit is set, and the opcode is assigned. -/
theorem exists_decode_eq_ok_iff {w : Word} :
    (∃ i, decode w = .ok i) ↔ rsvField w = 0#4 ∧ (opcodeField w).toNat ∈ assignedOpcodes := by
  simp only [decode_eq_ok_iff, exists_and_left]
  rw [← exists_ofOpcode_eq_some_iff (count := countField w)]
  simp only [ofOpcode_eq_some_iff, BitVec.toNat_inj]

/-! ### The step that takes a word (R75, R100) -/

/-- With no operation in flight and no reset on its way a step takes the next word and runs it. -/
theorem step_eq_runWord {s : State} {w : Word} {rest : List Word} (hs : s.resetIn = none)
    (hr : s.running = none) (ho : s.opIn = w :: rest) : step s = runWord w { s with opIn := rest } := by
  simp only [step, hs, hr, issue, fetch, ho]

theorem runWord_of_decode_ok {w : Word} {i : Instr} (h : decode w = .ok i) (s : State) :
    runWord w s = exec i s := by
  simp only [runWord, h]

theorem runWord_of_not_operation {w : Word} (h : ¬∃ i, decode w = .ok i) (s : State) :
    runWord w s = .next (raise .illegalOp s) := by
  cases hd : decode w with
  | ok i => exact absurd ⟨i, hd⟩ h
  | error e => simp only [runWord, hd]

/-- `IllegalOp` is the first flag of `ERR`, and on an idle block it leaves no other trace than its result. -/
theorem raise_illegalOp_of_idle {s : State} (hr : s.running = none) :
    raise .illegalOp s = { s with err := s.err ||| 1#9, res := s.res ++ [⟨.err .illegalOp, 0#32⟩] } := by
  have hbit : errBit .illegalOp = 1#9 := rfl
  rw [raise, setErr, hbit, ← hr]

/-- Settles O3: the word is taken, and the decoder answers an operation exactly for the words of the first clause. -/
theorem everyWordRunsOrEndsIllegalOp : Obligations.EveryWordRunsOrEndsIllegalOp := by
  intro s w rest hs hr ho
  rw [step_eq_runWord hs hr ho]
  constructor
  · intro hw
    obtain ⟨i, hi⟩ := exists_decode_eq_ok_iff.mpr hw
    obtain ⟨-, hopcode, hcount⟩ := decode_eq_ok_iff.mp hi
    exact ⟨i, hopcode, hcount, runWord_of_decode_ok hi _⟩
  · intro hw
    rw [runWord_of_not_operation (fun h => hw (exists_decode_eq_ok_iff.mp h))]
    exact congrArg _ (raise_illegalOp_of_idle hr)

/-! ### The frame macros (R104) -/

/-- The whole chunks and the short last one make up one frame: `c * q + r = NBYTES`. -/
theorem frameChunks_count_sum {op : Nat → Instr} (hop : ∀ n, (op n).count = n) (c : Nat) :
    ((frameChunks op c).map Instr.count).sum = Config.nbytes := by
  have hdiv : Config.nbytes / c * c + Config.nbytes % c = Config.nbytes := Nat.div_add_mod' _ _
  unfold frameChunks
  split
  case isTrue => simpa [hop] using hdiv
  case isFalse h => simpa [hop, Nat.eq_zero_of_not_pos h] using hdiv

/-- The chunks of a frame are chunks of the full size and then nothing or one short chunk, and they cover the frame. -/
theorem frameChunks_covers {op : Nat → Instr} (hop : ∀ n, (op n).count = n) (c : Nat) :
    ∃ q r : List Instr, frameChunks op c = q ++ r ∧ q = List.replicate (192000 / c) (op c) ∧
      (r = [] ∧ 192000 % c = 0 ∨ r = [op (192000 % c)] ∧ 192000 % c ≠ 0) ∧
      ((q ++ r).map Instr.count).sum = 192000 := by
  refine ⟨_, _, rfl, rfl, ?_, frameChunks_count_sum hop c⟩
  split
  case isTrue h => exact .inr ⟨rfl, h.ne'⟩
  case isFalse h => exact .inl ⟨rfl, Nat.eq_zero_of_not_pos h⟩

/-- Settles O43: both frame macros put the chunks of one frame between their first and last operations. -/
theorem frameMacrosCoverTheFrame : Obligations.FrameMacrosCoverTheFrame := by
  intro c _
  obtain ⟨q, r, hsend, hsendCovers⟩ := frameChunks_covers (op := .sendChunk) (fun _ => rfl) c
  obtain ⟨q', r', hgen, hgenCovers⟩ := frameChunks_covers (op := .genSend) (fun _ => rfl) c
  refine ⟨⟨q, r, ?_, hsendCovers⟩, ⟨q', r', ?_, hgenCovers⟩, rfl, rfl⟩
  · rw [sendFrame, hsend]
  · rw [genFrame, hgen]

end Sys2Proof.Machine

/-! PIXCODEC (spec/40_codec.md): the packing functions item by item (R120), and every outcome of `PACK` (R121) and
`UNPACK` (R123). -/

namespace Sys2Proof.Machine

/-! ### The packing functions, item by item (R120) -/

/-- The value of a packed byte (R92). -/
@[simp] theorem toNat_packPair (a b : Pixel) : (packPair a b).toNat = a.toNat * 16 + b.toNat := by
  revert a b; decide

/-- Byte `j` of `PackSeq` packs pixels `2j` and `2j + 1`. -/
theorem getElem?_packSeq {a b : Pixel} : ∀ {p : List Pixel} {j : Nat}, p[2 * j]? = some a →
    p[2 * j + 1]? = some b → (packSeq p)[j]? = some (packPair a b)
  | [], _, ha, _ => nomatch ha
  | [_], 0, _, hb => nomatch hb
  | [_], _ + 1, ha, _ => nomatch ha
  | _ :: _ :: _, 0, ha, hb => by cases ha; cases hb; rfl
  | _ :: _ :: rest, _ + 1, ha, hb => getElem?_packSeq (p := rest) ha hb

/-- Pixels `2j` and `2j + 1` of `UnpackSeq` are the high and the low nibble of byte `j`. -/
theorem getElem?_unpackSeq (b : List Byte) (j : Nat) :
    (unpackSeq b)[2 * j]? = b[j]?.map highNibble ∧ (unpackSeq b)[2 * j + 1]? = b[j]?.map lowNibble := by
  induction b generalizing j with
  | nil => exact ⟨rfl, rfl⟩
  | cons v b ih =>
    cases j with
    | zero => exact ⟨rfl, rfl⟩
    | succ j => exact ih j

/-- Settles O14: the lengths, and the items by the lemmas above. -/
theorem packSeqAndUnpackSeqItemByItem : Obligations.PackSeqAndUnpackSeqItemByItem := by
  refine ⟨fun p _ => ⟨packSeq_length p, fun j a b ha hb => ?_⟩,
    fun b => ⟨unpackSeq_length b, fun j v hv => ?_⟩, rfl, rfl⟩
  · exact ⟨packPair a b, getElem?_packSeq ha hb, toNat_packPair a b⟩
  · have items := getElem?_unpackSeq b j
    rw [hv] at items
    exact items

/-! ### Valid items (R91, R92) -/

theorem all_validColor_iff {p : List Pixel} : p.all validColor = true ↔ ∀ a ∈ p, a.toNat ≤ 6 := by
  simp only [List.all_eq_true, validColor_iff]

theorem not_all_validColor_iff {p : List Pixel} : ¬p.all validColor = true ↔ ∃ a ∈ p, a.toNat > 6 := by
  simp only [all_validColor_iff, not_forall, Nat.not_le, exists_prop]

theorem all_validPacked_iff {b : List Byte} : b.all validPacked = true ↔
    ∀ v ∈ b, (v.extractLsb' 4 4).toNat ≤ 6 ∧ (v.extractLsb' 0 4).toNat ≤ 6 := by
  simp only [List.all_eq_true, validPacked_iff]

theorem not_all_validPacked_iff {b : List Byte} : ¬b.all validPacked = true ↔
    ∃ v ∈ b, (v.extractLsb' 4 4).toNat > 6 ∨ (v.extractLsb' 0 4).toNat > 6 := by
  simp only [all_validPacked_iff, not_forall, not_and_or, Nat.not_le, exists_prop]

/-! ### `PACK` (R121) -/

theorem exec_pack_badCount {n : Nat} {s : State} (h : 2 * s.params.chunkMax < n) :
    exec (.pack n) s = .next (raise .badCount s) := by
  simp [exec_eq_carryOut, planOf, planPack, h]

theorem exec_pack_oddLength {n : Nat} {s : State} (h : n ≤ 2 * s.params.chunkMax) (hodd : n % 2 = 1) :
    exec (.pack n) s = .next (raise .oddLength s) := by
  simp [exec_eq_carryOut, planOf, planPack, Nat.not_lt.mpr h, hodd]

/-- A `PACK` that passes its checks starts taking pixels. -/
theorem exec_pack_accepted {n : Nat} {s : State} (h : n ≤ 2 * s.params.chunkMax) (heven : n % 2 = 0) :
    exec (.pack n) s = .next (perform (packFrom n [] s) s) := by
  simp [exec_eq_carryOut, planOf, planPack, Nat.not_lt.mpr h, heven]

/-- With its pixels there, a `PACK` that starts takes them, and ends as their colours say. -/
theorem perform_packFrom_nil {n : Nat} {s : State} (hn : n ≤ s.pixIn.length) :
    perform (packFrom n [] s) s =
      if (s.pixIn.take n).all validColor then
        put ⟨.ok, 0#32⟩ { s with pixIn := s.pixIn.drop n, byteOut := s.byteOut ++ packSeq (s.pixIn.take n) }
      else raise .invalidColor { s with pixIn := s.pixIn.drop n } := by
  obtain ⟨p, rest, hp, hrest, h⟩ := packFrom_cases n [] s
  rw [payload_nil] at hp
  rw [missing_nil] at hrest
  subst hp hrest
  rcases h with ⟨hlen, -⟩ | ⟨-, hvalid, h⟩ | ⟨-, hinvalid, h⟩
  · rw [List.length_take_of_le hn] at hlen
    exact absurd hlen (Nat.lt_irrefl n)
  · rw [h, hvalid]; rfl
  · rw [h, hinvalid]; rfl

/-- Settles O15: the two checks in their order, and then the colours of the pixels taken. -/
theorem packFollowsItsRule : Obligations.PackFollowsItsRule := by
  intro n s
  refine ⟨exec_pack_badCount, exec_pack_oddLength, fun hn heven hlen hbad => ?_, fun hn heven hlen hok => ?_⟩
  · rw [exec_pack_accepted hn heven, perform_packFrom_nil hlen, if_neg (not_all_validColor_iff.mpr hbad)]
  · rw [exec_pack_accepted hn heven, perform_packFrom_nil hlen, if_pos (all_validColor_iff.mpr hok)]

/-! ### `UNPACK` (R123) -/

theorem exec_unpack_badCount {m : Nat} {s : State} (h : s.params.chunkMax < m) :
    exec (.unpack m) s = .next (raise .badCount s) := by
  simp [exec_eq_carryOut, planOf, planUnpack, h]

/-- An `UNPACK` that passes its check starts taking bytes. -/
theorem exec_unpack_accepted {m : Nat} {s : State} (h : m ≤ s.params.chunkMax) :
    exec (.unpack m) s = .next (perform (unpackFrom m [] s) s) := by
  simp [exec_eq_carryOut, planOf, planUnpack, Nat.not_lt.mpr h]

/-- With its bytes there, an `UNPACK` that starts takes them, and ends as their nibbles say. -/
theorem perform_unpackFrom_nil {m : Nat} {s : State} (hm : m ≤ s.byteIn.length) :
    perform (unpackFrom m [] s) s =
      if (s.byteIn.take m).all validPacked then
        put ⟨.ok, 0#32⟩ { s with byteIn := s.byteIn.drop m, pixOut := s.pixOut ++ unpackSeq (s.byteIn.take m) }
      else raise .invalidColor { s with byteIn := s.byteIn.drop m } := by
  obtain ⟨b, rest, hb, hrest, h⟩ := unpackFrom_cases m [] s
  rw [payload_nil] at hb
  rw [missing_nil] at hrest
  subst hb hrest
  rcases h with ⟨hlen, -⟩ | ⟨-, hvalid, h⟩ | ⟨-, hinvalid, h⟩
  · rw [List.length_take_of_le hm] at hlen
    exact absurd hlen (Nat.lt_irrefl m)
  · rw [h, hvalid]; rfl
  · rw [h, hinvalid]; rfl

/-- Settles O16: the check of the count, and then the nibbles of the bytes taken. -/
theorem unpackFollowsItsRule : Obligations.UnpackFollowsItsRule := by
  intro m s
  refine ⟨exec_unpack_badCount, fun hm hlen hbad => ?_, fun hm hlen hok => ?_⟩
  · rw [exec_unpack_accepted hm, perform_unpackFrom_nil hlen, if_neg (not_all_validPacked_iff.mpr hbad)]
  · rw [exec_unpack_accepted hm, perform_unpackFrom_nil hlen, if_pos (all_validPacked_iff.mpr hok)]

end Sys2Proof.Machine

/-! EPDSEQ (spec/41_sequencer.md): the busy wait (R143), and every outcome of `INIT` (R144), `BEGIN_FRAME` (R147),
`SEND_CHUNK` (R148), `END_FRAME` (R150) and `TURN_OFF` (R152). -/

namespace Sys2Proof.Machine

/-! ### The busy wait (R143) -/

/-- The events of one more busy reading stand last; it is the second reading that logs the long wait. -/
theorem busyEvents_succ (interval j : Nat) : busyEvents interval (j + 1) =
    busyEvents interval j ++ .poll true :: ((if j = 1 then [.logLongwait] else []) ++ [.delay interval]) := by
  simp [busyEvents, List.range_succ]

/-- The state `s` after `j` busy readings of a wait, with the answers `left` still to come. -/
def afterBusy (standing : Nat → Running) (interval j : Nat) (left : List Bool) (s : State) : State :=
  { s with running := some (standing j), busyIn := left, longwait := s.longwait || decide (2 ≤ j),
           trace := s.trace ++ busyEvents interval j }

theorem afterBusy_zero {standing : Nat → Running} {s : State} (hr : s.running = some (standing 0)) (interval : Nat) :
    afterBusy standing interval 0 s.busyIn s = s := by
  simp [afterBusy, busyEvents, ← hr]

/-- One busy reading takes a wait from `j` readings to `j + 1`. -/
theorem perform_busyWait_true (standing : Nat → Running) (interval : Nat) (after : List Bool → List Action) (j : Nat)
    (left : List Bool) (s : State) :
    perform (busyWait standing interval after j (true :: left)) (afterBusy standing interval j (true :: left) s) =
      perform (busyWait standing interval after (j + 1) left) (afterBusy standing interval (j + 1) left s) := by
  by_cases hj : j = 1
  · subst hj
    simp [busyWait, afterBusy, poll, stand, logLongwait, delay, emit, busyEvents_succ]
  · have hlong : (2 ≤ j) ↔ (2 ≤ j + 1) := by omega
    simp [busyWait, afterBusy, poll, stand, delay, emit, busyEvents_succ, hj, hlong]

/-- A clear reading ends the wait, and the operation goes on with the answers that are left. -/
theorem perform_busyWait_false (standing : Nat → Running) (interval : Nat) (after : List Bool → List Action) (j : Nat)
    (rest : List Bool) (s : State) :
    perform (busyWait standing interval after j (false :: rest)) (afterBusy standing interval j (false :: rest) s) =
      perform (after rest)
        { s with running := some (standing j), busyIn := rest, longwait := s.longwait || decide (2 ≤ j),
                 trace := s.trace ++ waitEvents interval j } := by
  simp [busyWait, afterBusy, poll, waitEvents]

/-- As long as the panel reads busy, a wait only counts the readings. -/
theorem perform_busyWait_replicate_true (standing : Nat → Running) (interval : Nat) (after : List Bool → List Action)
    (j : Nat) (left : List Bool) {s : State} (hr : s.running = some (standing 0))
    (hb : s.busyIn = List.replicate j true ++ left) :
    perform (busyWait standing interval after 0 (List.replicate j true ++ left)) s =
      perform (busyWait standing interval after j left) (afterBusy standing interval j left s) := by
  induction j generalizing left with
  | zero =>
    have hs := afterBusy_zero hr interval
    rw [hb] at hs
    exact congrArg (perform (busyWait standing interval after 0 left)) hs.symm
  | succ j ih =>
    rw [List.replicate_succ', List.append_assoc] at hb ⊢
    rw [List.singleton_append, ih (true :: left) hb]
    exact perform_busyWait_true standing interval after j left s

/-- A wait that reads busy `j` times and then clear goes on after `waitEvents`. -/
theorem perform_busyWait_busyTimes {standing : Nat → Running} {interval : Nat} {after : List Bool → List Action}
    {j : Nat} {rest : List Bool} {s : State} (hr : s.running = some (standing 0)) (hb : s.busyIn = busyTimes j rest) :
    perform (busyWait standing interval after 0 (busyTimes j rest)) s =
      perform (after rest)
        { s with running := some (standing j), busyIn := rest, longwait := s.longwait || decide (2 ≤ j),
                 trace := s.trace ++ waitEvents interval j } :=
  (perform_busyWait_replicate_true standing interval after j (false :: rest) hr hb).trans
    (perform_busyWait_false standing interval after j rest s)

/-- A wait that has read busy `j` times and has no further answer stands where it was. -/
theorem perform_busyWait_all_busy {standing : Nat → Running} {interval : Nat} {after : List Bool → List Action}
    {j : Nat} {s : State} (hr : s.running = some (standing 0)) (hb : s.busyIn = List.replicate j true) :
    perform (busyWait standing interval after 0 (List.replicate j true)) s = afterBusy standing interval j [] s := by
  have h := perform_busyWait_replicate_true standing interval after j [] hr (by rw [hb, List.append_nil])
  rw [List.append_nil] at h
  exact h

/-- Settles O21: a clear reading goes on, and busy readings alone do not. -/
theorem busyWaitEndsAtTheFirstClearReading : Obligations.BusyWaitEndsAtTheFirstClearReading := by
  intro standing after s j hr
  refine ⟨fun rest hb => ?_, fun hb => ?_⟩
  · rw [hb, perform_busyWait_busyTimes hr hb]
  · rw [hb, perform_busyWait_all_busy hr hb, afterBusy]

/-- A step that waits, for a panel that is busy for `j` readings and then clear. -/
theorem perform_stand_busyWait {standing : Nat → Running} {interval : Nat} {after : List Bool → List Action}
    {j : Nat} {rest : List Bool} {s : State} (hb : s.busyIn = busyTimes j rest) :
    perform (stand (standing 0) :: busyWait standing interval after 0 (busyTimes j rest)) s =
      perform (after rest)
        { s with running := some (standing j), busyIn := rest, longwait := s.longwait || decide (2 ≤ j),
                 trace := s.trace ++ waitEvents interval j } :=
  perform_busyWait_busyTimes (s := stand (standing 0) s) rfl hb

/-! ### `INIT` (R144) -/

theorem exec_init_badCount {c : Nat} (s : State) (hc : c ≠ 0) : exec (.init c) s = .next (raise .badCount s) := by
  simp [exec_eq_carryOut, planOf, planInit, hc]

theorem exec_init_illegalState {s : State} (hq : s.seqState = .frameOpen) :
    exec (.init 0) s = .next (raise .illegalState s) := by
  simp [exec_eq_carryOut, planOf, planInit, hq]

/-- An `INIT` that passes its checks starts at I0. -/
theorem exec_init_accepted {s : State} (hq : s.seqState ≠ .frameOpen) :
    exec (.init 0) s = .next (perform (initI0 s.params s.busyIn) s) := by
  simp [exec_eq_carryOut, planOf, planInit, initFrom, hq]

/-- Steps I0 to I3 power the panel and pulse its reset line; I4 comes next. -/
theorem perform_initI0 (p : Params) (answers : List Bool) (s : State) :
    perform (initI0 p answers) s = perform (initI4 p 0 answers)
      { s with running := some (.init .i3 0), pwrEn := true, rst := p.rstOuter,
               trace := s.trace ++ [.pwr true, .rst p.rstOuter, .delay p.tRst0, .rst (!p.rstOuter), .delay p.tRst1,
                 .rst p.rstOuter, .delay p.tRst2] } := by
  simp [initI0, initI1, initI2, initI3, stand, drivePwr, driveRst, delay, emit, Params.rstInner]

/-- I4, for a panel that is busy for `j` readings and then clear. -/
theorem perform_initI4_busyTimes {p : Params} {j : Nat} {rest : List Bool} {s : State}
    (hb : s.busyIn = busyTimes j rest) :
    perform (initI4 p 0 (busyTimes j rest)) s = perform (initI5 p)
      { s with running := some (.init .i4 j), busyIn := rest, longwait := s.longwait || decide (2 ≤ j),
               trace := s.trace ++ waitEvents p.pollInterval j } :=
  perform_stand_busyWait hb

/-- I5 and I6: the register writes, and the operation ends in `Configured`. -/
theorem perform_initI5 (p : Params) (s : State) :
    perform (initI5 p) s = put ⟨.ok, 0#32⟩
      { s with seqState := .configured, trace := s.trace ++ p.initTable.flatMap cmdEvents } := by
  simp [initI5, initI6, stand, enter, complete, put]

theorem cmdEvents_eq_cons (c : PanelCommand) :
    cmdEvents c = .cmd c.cmd :: (if c.data = [] then [] else [.data c.data]) := by
  unfold cmdEvents
  split <;> rfl

theorem initEvents_eq (p : Params) (j : Nat) : initEvents p j =
    [.pwr true, .rst p.rstOuter, .delay p.tRst0, .rst (!p.rstOuter), .delay p.tRst1, .rst p.rstOuter, .delay p.tRst2] ++
      waitEvents p.pollInterval j ++ p.initTable.flatMap cmdEvents := by
  rw [initEvents, funext cmdEvents_eq_cons]

/-- Settles O22: the two checks, and then the steps I0 to I6 with their one wait. -/
theorem initFollowsItsRule : Obligations.InitFollowsItsRule := by
  intro s
  refine ⟨fun _ => exec_init_badCount s, exec_init_illegalState, fun j rest hq hb => ?_⟩
  rw [exec_init_accepted hq, hb, perform_initI0, perform_initI4_busyTimes, perform_initI5]
  · simp [put, initEvents_eq]
  · exact hb

/-! ### `SEND_CHUNK` (R148) -/

theorem exec_sendChunk_badCount {l : Nat} {s : State} (hl : s.params.chunkMax < l) :
    exec (.sendChunk l) s = .next (raise .badCount s) := by
  simp [exec_eq_carryOut, planOf, planSendChunk, hl]

theorem exec_sendChunk_illegalState {l : Nat} {s : State} (hl : l ≤ s.params.chunkMax)
    (hq : s.seqState ≠ .frameOpen) : exec (.sendChunk l) s = .next (raise .illegalState s) := by
  simp [exec_eq_carryOut, planOf, planSendChunk, Nat.not_lt.mpr hl, hq]

theorem exec_sendChunk_frameOverrun {l : Nat} {s : State} (hl : l ≤ s.params.chunkMax)
    (hq : s.seqState = .frameOpen) (hn : 192000 < s.bytesSent.toNat + l) :
    exec (.sendChunk l) s = .next (raise .frameOverrun s) := by
  simp [exec_eq_carryOut, planOf, planSendChunk, Nat.not_lt.mpr hl, hq, hn]

/-- A `SEND_CHUNK` that passes its checks starts taking bytes. -/
theorem exec_sendChunk_accepted {l : Nat} {s : State} (hl : l ≤ s.params.chunkMax) (hq : s.seqState = .frameOpen)
    (hn : s.bytesSent.toNat + l ≤ 192000) :
    exec (.sendChunk l) s = carryOut (sendChunkFrom l [] s) s := by
  simp [exec_eq_carryOut, planOf, planSendChunk, Nat.not_lt.mpr hl, hq, Nat.not_lt.mpr hn]

/-- With its bytes there, a `SEND_CHUNK` that starts takes and stores them, and ends as their nibbles say. -/
theorem carryOut_sendChunkFrom_nil {l : Nat} {s : State} (hl : l ≤ s.params.chunkMax) (hb : l ≤ s.byteIn.length) :
    carryOut (sendChunkFrom l [] s) s = .next (
      if (s.byteIn.take l).all validPacked then
        put ⟨.ok, 0#32⟩
          { s with byteIn := s.byteIn.drop l, buf := Memory.writeAll 0 (s.byteIn.take l) s.buf,
                   bytesSent := BitVec.ofNat 18 (s.bytesSent.toNat + l),
                   trace := s.trace ++ (if l = 0 then [] else [.data (s.byteIn.take l)]) }
      else raise .invalidColor
        { s with byteIn := s.byteIn.drop l, buf := Memory.writeAll 0 (s.byteIn.take l) s.buf }) := by
  have hlen : (s.byteIn.take l).length = l := List.length_take_of_le hb
  have hempty : s.byteIn.take l = [] ↔ l = 0 := by rw [← List.length_eq_zero_iff, hlen]
  obtain ⟨v, rest, hv, hrest, h⟩ := sendChunkFrom_cases l [] s
  rw [payload_nil] at hv
  rw [missing_nil] at hrest
  subst hv hrest
  rw [hlen] at h
  rcases h with ⟨hshort, -⟩ | ⟨-, -, hvalid, h⟩ | ⟨-, -, hinvalid, h⟩ | ⟨-, hlong, -⟩
  · exact absurd hshort (Nat.lt_irrefl l)
  · rw [h, hvalid]; simp only [hempty]; rfl
  · rw [h, hinvalid]; rfl
  · exact absurd hl (Nat.not_le.mpr hlong)

/-- Each byte of a `MemWrite` is read back at its own address (R61). -/
theorem read_writeAll_inside (vs : List Byte) :
    ∀ (a i : Nat) (m : Memory), i < vs.length → Memory.read (a + i) (Memory.writeAll a vs m) = vs[i]? := by
  induction vs with
  | nil => intro a i m hi; exact absurd hi (Nat.not_lt_zero i)
  | cons v vs ih =>
    intro a i m hi
    cases i with
    | zero => exact (read_writeAll_outside vs (a + 1) _ (.inl (Nat.lt_succ_self a))).trans (read_write_same a v m)
    | succ i =>
      rw [show a + (i + 1) = a + 1 + i by omega]
      exact ih (a + 1) i _ (Nat.lt_of_succ_lt_succ hi)

/-- What `buf` holds after `MemWrite(0, n, v)` (R61). -/
theorem read_writeAll_zero (a : Nat) (vs : List Byte) (m : Memory) :
    Memory.read a (Memory.writeAll 0 vs m) = if a < vs.length then vs[a]? else Memory.read a m := by
  split
  · have h := read_writeAll_inside vs 0 a m ‹_›
    rwa [Nat.zero_add] at h
  · exact read_writeAll_outside vs 0 m (by omega)

/-- Settles O24: the three checks in their order, and then the nibbles of the bytes taken and stored. -/
theorem sendChunkFollowsItsRule : Obligations.SendChunkFollowsItsRule := by
  intro l s
  refine ⟨exec_sendChunk_badCount, exec_sendChunk_illegalState, exec_sendChunk_frameOverrun,
    fun hl hq hn hb => ⟨Memory.writeAll 0 (s.byteIn.take l) s.buf, fun a => ?_, fun hbad => ?_, fun hok => ?_⟩⟩
  · rw [read_writeAll_zero, List.length_take_of_le hb]
  · rw [exec_sendChunk_accepted hl hq hn, carryOut_sendChunkFrom_nil hl hb,
      if_neg (not_all_validPacked_iff.mpr hbad)]
  · rw [exec_sendChunk_accepted hl hq hn, carryOut_sendChunkFrom_nil hl hb, if_pos (all_validPacked_iff.mpr hok)]

/-! ### `END_FRAME` (R150) -/

theorem exec_endFrame_badCount {c : Nat} (s : State) (hc : c ≠ 0) :
    exec (.endFrame c) s = .next (raise .badCount s) := by
  simp [exec_eq_carryOut, planOf, planEndFrame, hc]

theorem exec_endFrame_illegalState {s : State} (hq : s.seqState ≠ .frameOpen) :
    exec (.endFrame 0) s = .next (raise .illegalState s) := by
  simp [exec_eq_carryOut, planOf, planEndFrame, hq]

/-- An `END_FRAME` that passes its checks marks a short frame and starts at E0. -/
theorem exec_endFrame_accepted {s : State} (hq : s.seqState = .frameOpen) :
    exec (.endFrame 0) s = .next (perform (endE0 s.params s.busyIn) (markShortFrame s)) := by
  simp [exec_eq_carryOut, planOf, planEndFrame, endFrameFrom, hq]

/-- A command and the wait after it, for a panel that is busy for `j` readings and then clear. -/
theorem perform_endCmd_busyTimes {standing : Nat → Running} {interval : Nat} {after : List Bool → List Action}
    {j : Nat} {rest : List Bool} {s : State} (r : Running) (c : PanelCommand) (hb : s.busyIn = busyTimes j rest) :
    perform (stand r :: (panelCmd c ++ stand (standing 0) :: busyWait standing interval after 0 (busyTimes j rest))) s =
      perform (after rest)
        { s with running := some (standing j), busyIn := rest, longwait := s.longwait || decide (2 ≤ j),
                 trace := s.trace ++ cmdEvents c ++ waitEvents interval j } := by
  rw [perform_cons, perform_append, perform_panelCmd]
  exact perform_stand_busyWait hb

/-- E0: the frame is closed; E1 comes next. -/
theorem perform_endE0 (p : Params) (answers : List Bool) (s : State) : perform (endE0 p answers) s =
    perform (endE1 p answers) { s with running := some (.endFrame .e0 0), seqState := .frameClosed } := rfl

/-- E1 and E2: the power-on command and its wait. -/
theorem perform_endE1_busyTimes {p : Params} {j : Nat} {rest : List Bool} {s : State}
    (hb : s.busyIn = busyTimes j rest) :
    perform (endE1 p (busyTimes j rest)) s = perform (endE3 p rest)
      { s with running := some (.endFrame .e2 j), busyIn := rest, longwait := s.longwait || decide (2 ≤ j),
               trace := s.trace ++ cmdEvents p.cmdPowerOn ++ waitEvents p.pollInterval j } :=
  perform_endCmd_busyTimes _ _ hb

/-- E3 and E4: the refresh command and its wait. -/
theorem perform_endE3_busyTimes {p : Params} {j : Nat} {rest : List Bool} {s : State}
    (hb : s.busyIn = busyTimes j rest) :
    perform (endE3 p (busyTimes j rest)) s = perform (endE5 p rest)
      { s with running := some (.endFrame .e4 j), busyIn := rest, longwait := s.longwait || decide (2 ≤ j),
               trace := s.trace ++ cmdEvents p.cmdRefresh ++ waitEvents p.pollInterval j } :=
  perform_endCmd_busyTimes _ _ hb

/-- E5 and E6: the power-off command and its wait. -/
theorem perform_endE5_busyTimes {p : Params} {j : Nat} {rest : List Bool} {s : State}
    (hb : s.busyIn = busyTimes j rest) :
    perform (endE5 p (busyTimes j rest)) s = perform endE7
      { s with running := some (.endFrame .e6 j), busyIn := rest, longwait := s.longwait || decide (2 ≤ j),
               trace := s.trace ++ cmdEvents p.cmdPowerOff ++ waitEvents p.pollInterval j } :=
  perform_endCmd_busyTimes _ _ hb

/-- E7: the buffer is freed, and the operation ends in `PoweredOff`. -/
theorem perform_endE7 (s : State) :
    perform endE7 s = put ⟨.ok, 0#32⟩ { s with bufLive := false, seqState := .poweredOff } := rfl

/-- Settles O26: the two checks, and then the steps E0 to E7 with their three waits. -/
theorem endFrameFollowsItsRule : Obligations.EndFrameFollowsItsRule := by
  intro s
  refine ⟨fun _ => exec_endFrame_badCount s, exec_endFrame_illegalState, fun j1 j2 j3 rest hq hb => ?_⟩
  rw [exec_endFrame_accepted hq, hb, perform_endE0, perform_endE1_busyTimes, perform_endE3_busyTimes,
    perform_endE5_busyTimes, perform_endE7]
  · simp [put, endEvents]
  · rfl
  · rfl
  · exact hb

/-! ### `BEGIN_FRAME` (R147) -/

theorem exec_beginFrame_badCount {c : Nat} (s : State) (hc : c ≠ 0) :
    exec (.beginFrame c) s = .next (raise .badCount s) := by
  simp [exec_eq_carryOut, planOf, planBeginFrame, hc]

theorem exec_beginFrame_illegalState {s : State} (hc : s.seqState ≠ .configured) (ho : s.seqState ≠ .poweredOff) :
    exec (.beginFrame 0) s = .next (raise .illegalState s) := by
  simp [exec_eq_carryOut, planOf, planBeginFrame, hc, ho]

/-- A `BEGIN_FRAME` in one of its two states needs the panel powered; then it sends the data-start command. -/
theorem exec_beginFrame_of_state {s : State} (hq : s.seqState = .configured ∨ s.seqState = .poweredOff) :
    exec (.beginFrame 0) s = .next (
      if s.pwrEn = false then raise .panelUnpowered s
      else put ⟨.ok, 0#32⟩
        { s with bufLive := true, bytesSent := 0#18, seqState := .frameOpen,
                 trace := s.trace ++ cmdEvents s.params.cmdDataStart }) := by
  have hallowed : ¬(s.seqState ≠ .configured ∧ s.seqState ≠ .poweredOff) := fun ⟨hc, ho⟩ => hq.elim hc ho
  rw [exec_eq_carryOut, planOf, planBeginFrame, if_neg (not_not.mpr rfl), if_neg hallowed, carryOut_ok]
  split
  · rfl
  · rw [perform_append, perform_panelCmd]; rfl

/-- Settles O23: the three checks in their order, and then the data-start command. -/
theorem beginFrameFollowsItsRule : Obligations.BeginFrameFollowsItsRule := by
  intro s
  refine ⟨fun _ => exec_beginFrame_badCount s, exec_beginFrame_illegalState, fun hq hp => ?_, fun hq hp => ?_⟩
  · rw [exec_beginFrame_of_state hq, if_pos hp]
  · rw [exec_beginFrame_of_state hq, if_neg (by simp [hp])]

/-! ### `TURN_OFF` (R152) -/

theorem exec_turnOff_badCount {c : Nat} (s : State) (hc : c ≠ 0) :
    exec (.turnOff c) s = .next (raise .badCount s) := by
  simp [exec_eq_carryOut, planOf, planTurnOff, hc]

theorem exec_turnOff_accepted (s : State) : exec (.turnOff 0) s = .next (put ⟨.ok, 0#32⟩
    { s with pwrEn := false, bufLive := false, seqState := .poweredOff, trace := s.trace ++ [.pwr false] }) := rfl

/-- Settles O28: the state a `TURN_OFF` leaves is one that a second `TURN_OFF` only reports on. -/
theorem turnOffFollowsItsRule : Obligations.TurnOffFollowsItsRule := by
  intro s
  refine ⟨fun _ => exec_turnOff_badCount s, exec_turnOff_accepted s, fun t ht => ?_⟩
  rw [exec_turnOff_accepted] at ht
  cases ht
  exact exec_turnOff_accepted _

end Sys2Proof.Machine

/-! VORGEN (spec/42_vorgen.md): the scan for the two nearest nodes (R184), the border test and the colour of a pixel
(R186 to R191), and every outcome of `GEN_CHUNK` (R192) and `GEN_SEND` (R193). -/

namespace Sys2Proof.Machine

/-! ### The nearest node among some of those seen (R184) -/

/-- `n` is the candidate of the scan for the pixel `(x, y)` that R184 asks for among the nodes `seen` whose index meets
`P`: at the smallest distance, and with the smallest index there. -/
structure IsNearest (x y : Nat) (seen : List Node) (P : Nat → Prop) (n : Near) : Prop where
  node  : seen[n.idx]? = some n.node
  dist  : n.dist = dist2 x y n.node
  meets : P n.idx
  least : ∀ j nd, seen[j]? = some nd → P j → n.dist ≤ dist2 x y nd ∧ (dist2 x y nd = n.dist → n.idx ≤ j)

section
variable {x y : Nat} {seen : List Node} {nd : Node} {P Q : Nat → Prop} {n n1 n2 : Near}

/-- A node of a list with one more at its end is a node of the list or that one. -/
theorem getElem?_concat_cases {j : Nat} {nd' : Node} (h : (seen ++ [nd])[j]? = some nd') :
    seen[j]? = some nd' ∨ (j = seen.length ∧ nd' = nd) := by
  rcases Nat.lt_trichotomy j seen.length with hj | rfl | hj
  · exact .inl (by rwa [List.getElem?_append_left hj] at h)
  · rw [List.getElem?_concat_length] at h
    exact .inr ⟨rfl, (Option.some.inj h).symm⟩
  · rw [List.getElem?_eq_none (by simp; omega)] at h
    cases h

theorem IsNearest.idx_lt (h : IsNearest x y seen P n) : n.idx < seen.length :=
  (List.getElem?_eq_some_iff.mp h.node).1

/-- One more node that is not nearer leaves the nearest node as it is, also where the new condition `Q` leaves fewer of
the nodes seen before. -/
theorem IsNearest.concat (h : IsNearest x y seen P n) (hn : Q n.idx) (hPQ : ∀ j < seen.length, Q j → P j)
    (hnew : Q seen.length → n.dist ≤ dist2 x y nd) : IsNearest x y (seen ++ [nd]) Q n where
  node := by rw [List.getElem?_append_left h.idx_lt, h.node]
  dist := h.dist
  meets := hn
  least j nd' hj hQ := by
    rcases getElem?_concat_cases hj with hj | ⟨rfl, rfl⟩
    · exact h.least j nd' hj (hPQ j (List.getElem?_eq_some_iff.mp hj).1 hQ)
    · exact ⟨hnew hQ, fun _ => Nat.le_of_lt h.idx_lt⟩

/-- One more node that is nearer than all of those seen is the nearest. -/
theorem isNearest_concat (hP : P seen.length)
    (hless : ∀ j nd', seen[j]? = some nd' → P j → dist2 x y nd < dist2 x y nd') :
    IsNearest x y (seen ++ [nd]) P ⟨seen.length, dist2 x y nd, nd⟩ where
  node := List.getElem?_concat_length
  dist := rfl
  meets := hP
  least j nd' hj hPj := by
    rcases getElem?_concat_cases hj with hj | ⟨rfl, rfl⟩
    · have hlt := hless j nd' hj hPj
      exact ⟨Int.le_of_lt hlt, fun heq => absurd heq (Int.ne_of_gt hlt)⟩
    · exact ⟨Int.le_refl _, fun _ => Nat.le_refl _⟩

/-! ### The scan (R184) -/

theorem scanOne_of_lt {c : Near} {o : Option Near} (h : c.dist < n1.dist) :
    scanOne c ⟨some n1, o⟩ = ⟨some c, some n1⟩ := if_pos h

theorem scanOne_second_none {c : Near} (h : ¬c.dist < n1.dist) :
    scanOne c ⟨some n1, none⟩ = ⟨some n1, some c⟩ := if_neg h

theorem scanOne_second_some {c : Near} (h : ¬c.dist < n1.dist) :
    scanOne c ⟨some n1, some n2⟩ = ⟨some n1, some (if c.dist < n2.dist then c else n2)⟩ := by
  refine (if_neg h).trans ?_
  split <;> rfl

/-- What the scan's variables hold once the nodes `seen` are scanned: the invariant of its loop. -/
inductive Scanned (x y : Nat) : List Node → Scan → Prop where
  | start : Scanned x y [] ⟨none, none⟩
  | one {nd : Node} {n1 : Near} (first : IsNearest x y [nd] (fun _ => True) n1) :
      Scanned x y [nd] ⟨some n1, none⟩
  | two {seen : List Node} {n1 n2 : Near} (first : IsNearest x y seen (fun _ => True) n1)
      (second : IsNearest x y seen (· ≠ n1.idx) n2) : Scanned x y seen ⟨some n1, some n2⟩

/-- A node nearer than the nearest takes its place, and the nearest becomes the second. -/
theorem IsNearest.scanned_first (h : IsNearest x y seen (fun _ => True) n1) (hlt : dist2 x y nd < n1.dist) :
    Scanned x y (seen ++ [nd]) ⟨some ⟨seen.length, dist2 x y nd, nd⟩, some n1⟩ := by
  refine .two (isNearest_concat trivial fun j nd' hj _ => ?_)
    (h.concat (Nat.ne_of_lt h.idx_lt) (fun _ _ _ => trivial) fun hne => absurd rfl hne)
  exact Int.lt_of_lt_of_le hlt (h.least j nd' hj trivial).1

/-- A node that is not nearer than the nearest, but nearer than all others, is the second. -/
theorem IsNearest.scanned_second (h : IsNearest x y seen (fun _ => True) n1) (hle : ¬dist2 x y nd < n1.dist)
    (hless : ∀ j nd', seen[j]? = some nd' → j ≠ n1.idx → dist2 x y nd < dist2 x y nd') :
    Scanned x y (seen ++ [nd]) ⟨some n1, some ⟨seen.length, dist2 x y nd, nd⟩⟩ :=
  .two (h.concat trivial (fun _ _ _ => trivial) fun _ => Int.not_lt.mp hle)
    (isNearest_concat (Nat.ne_of_gt h.idx_lt) hless)

/-- Each turn of the scan keeps its invariant. -/
theorem scanned_scanOne {a : Scan} (h : Scanned x y seen a) (nd : Node) :
    Scanned x y (seen ++ [nd]) (scanOne ⟨seen.length, dist2 x y nd, nd⟩ a) := by
  cases h with
  | start => exact .one (isNearest_concat (seen := []) trivial fun j nd' hj _ => nomatch hj)
  | @one _ n1 first =>
    by_cases hlt : dist2 x y nd < n1.dist
    · rw [scanOne_of_lt hlt]
      exact first.scanned_first hlt
    · rw [scanOne_second_none hlt]
      refine first.scanned_second hlt fun j nd' hj hne => absurd ?_ hne
      have hj0 : j < 1 := (List.getElem?_eq_some_iff.mp hj).1
      have hn0 : n1.idx < 1 := first.idx_lt
      omega
  | @two _ n1 n2 first second =>
    by_cases hlt : dist2 x y nd < n1.dist
    · rw [scanOne_of_lt hlt]
      exact first.scanned_first hlt
    · rw [scanOne_second_some hlt]
      split
      case isTrue hlt2 =>
        exact first.scanned_second hlt fun j nd' hj hne => Int.lt_of_lt_of_le hlt2 (second.least j nd' hj hne).1
      case isFalse hle2 =>
        exact .two (first.concat trivial (fun _ _ _ => trivial) fun _ => Int.not_lt.mp hlt)
          (second.concat second.meets (fun _ _ hne => hne) fun _ => Int.not_lt.mp hle2)

theorem scanned_scanFrom (l : List Node) : ∀ {seen : List Node} {a : Scan}, Scanned x y seen a →
    Scanned x y (seen ++ l) (scanFrom x y seen.length l a) := by
  induction l with
  | nil => intro seen a h; rwa [List.append_nil]
  | cons nd l ih =>
    intro seen a h
    have hrest := ih (scanned_scanOne h nd)
    rwa [List.append_assoc, List.length_append] at hrest

/-- The two nodes of `TwoNearest` are the nearest, and the nearest of the others (R184). -/
theorem isNearest_of_twoNearest {nodes : List Node} (h : twoNearest nodes x y = some (n1, n2)) :
    IsNearest x y nodes (fun _ => True) n1 ∧ IsNearest x y nodes (· ≠ n1.idx) n2 := by
  have hscan : Scanned x y nodes (scanFrom x y 0 nodes ⟨none, none⟩) := scanned_scanFrom nodes .start
  simp only [twoNearest] at h
  generalize scanFrom x y 0 nodes ⟨none, none⟩ = a at h hscan
  cases hscan with
  | start => cases h
  | one => cases h
  | two first second => cases h; exact ⟨first, second⟩

/-- Of two nearest nodes at the same distance the first has the smaller index. -/
theorem idx_lt_of_twoNearest {nodes : List Node} (h : twoNearest nodes x y = some (n1, n2))
    (hdist : n1.dist = n2.dist) : n1.idx < n2.idx := by
  obtain ⟨first, second⟩ := isNearest_of_twoNearest h
  have hle : n1.idx ≤ n2.idx := (first.least _ _ second.node trivial).2 (by rw [← second.dist, hdist])
  exact Nat.lt_of_le_of_ne hle second.meets.symm

end

/-- Settles O35: the loop invariant at the end of the scan. -/
theorem scanFindsTheTwoNearestNodes : Obligations.ScanFindsTheTwoNearestNodes := by
  intro nodes x y hlen
  obtain ⟨n1, n2, h⟩ := twoNearest_isSome x y hlen
  obtain ⟨first, second⟩ := isNearest_of_twoNearest h
  have hle : n1.dist ≤ n2.dist := second.dist ▸ (first.least _ _ second.node trivial).1
  exact ⟨n1, n2, h, first.node, first.dist, second.node, second.dist, fun j nd hj => first.least j nd hj trivial,
    second.least, hle, second.meets.symm, idx_lt_of_twoNearest h⟩

/-! ### The colour of a pixel (R186 to R191) -/

theorem vorPixel_of_twoNearest {nodes : List Node} {x y : Nat} {n1 n2 : Near}
    (h : twoNearest nodes x y = some (n1, n2)) :
    vorPixel nodes x y = some (if isBorder n1 n2 then 0#4 else fillColor x y n1.node) := by
  rw [vorPixel, h]

/-- Settles O37: the border test and the fill, written out. -/
theorem pixelColourFollowsItsRule : Obligations.PixelColourFollowsItsRule := by
  intro nodes x y n1 n2 h
  rw [vorPixel_of_twoNearest h]
  simp only [isBorder_iff]
  rfl

theorem dist2_congr {a b : Node} (hx : a.x = b.x) (hy : a.y = b.y) (x y : Nat) : dist2 x y a = dist2 x y b := by
  rw [dist2, dist2, hx, hy]

theorem nodeDist2_eq_zero {a b : Node} (hx : a.x = b.x) (hy : a.y = b.y) : nodeDist2 a b = 0 := by
  simp [nodeDist2, square, hx, hy]

/-- Settles O40: two nodes at one point are equally far from every pixel, so the border test reads `0 < 0`. -/
theorem coincidentNodesHaveNoBorder : Obligations.CoincidentNodesHaveNoBorder := by
  intro nodes x y n1 n2 h hx hy
  obtain ⟨first, second⟩ := isNearest_of_twoNearest h
  have hdd : nodeDist2 n1.node n2.node = 0 := nodeDist2_eq_zero hx hy
  have hdist : n1.dist = n2.dist := by rw [first.dist, second.dist, dist2_congr hx hy]
  have hborder : isBorder n1 n2 = false := by simp [isBorder, square, hdd, hdist]
  refine ⟨hdd, by rw [hdist, Int.sub_self], hborder, idx_lt_of_twoNearest h hdist, ?_⟩
  rw [vorPixel_of_twoNearest h, hborder]
  rfl

/-- `|a / sqrt q| < 1` with both sides squared and cleared of the denominator. -/
theorem abs_div_sqrt_lt_one_iff {a q : ℝ} (hq : 0 < q) : |a / √q| < 1 ↔ a ^ 2 < q := by
  rw [abs_div, abs_of_nonneg (Real.sqrt_nonneg q), div_lt_one (Real.sqrt_pos.mpr hq),
    Real.lt_sqrt (abs_nonneg a), sq_abs]

theorem square_pos_of_ne {m n : Nat} (h : m ≠ n) : 0 < square ((n : Int) - m) :=
  mul_self_pos.mpr (by omega)

/-- `|D|^2` is positive for two different points. -/
theorem nodeDist2_pos {a b : Node} (h : a.x ≠ b.x ∨ a.y ≠ b.y) : 0 < nodeDist2 a b := by
  rcases h with hx | hy
  · exact add_pos_of_pos_of_nonneg (square_pos_of_ne (mt BitVec.eq_of_toNat_eq hx)) (mul_self_nonneg _)
  · exact add_pos_of_nonneg_of_pos (mul_self_nonneg _) (square_pos_of_ne (mt BitVec.eq_of_toNat_eq hy))

theorem cast_nodeDist2 (a b : Node) : ((nodeDist2 a b : Int) : ℝ) =
    ((b.x.toNat : ℝ) - a.x.toNat) ^ 2 + ((b.y.toNat : ℝ) - a.y.toNat) ^ 2 := by
  simp only [nodeDist2, square]
  push_cast
  ring

/-- `(P - M) . D` for the pixel `P = (x, y)`, the midpoint `M` of the two nodes and the way `D` between them (R185). -/
noncomputable def bisectorDot (x y : Nat) (a b : Node) : ℝ :=
  ((x : ℝ) - ((a.x.toNat : ℝ) + b.x.toNat) / 2) * ((b.x.toNat : ℝ) - a.x.toNat) +
    ((y : ℝ) - ((a.y.toNat : ℝ) + b.y.toNat) / 2) * ((b.y.toNat : ℝ) - a.y.toNat)

/-- The difference of the squared distances is twice that product, up to its sign (R186). -/
theorem cast_dist2_sub (x y : Nat) (a b : Node) :
    ((dist2 x y b - dist2 x y a : Int) : ℝ) = -2 * bisectorDot x y a b := by
  simp only [dist2, square, bisectorDot]
  push_cast
  ring

/-- The border test, with the factor 4 taken out. -/
theorem isBorder_iff_bisectorDot {x y : Nat} {n1 n2 : Near} (h1 : n1.dist = dist2 x y n1.node)
    (h2 : n2.dist = dist2 x y n2.node) : isBorder n1 n2 = true ↔
      bisectorDot x y n1.node n2.node ^ 2 < ((nodeDist2 n1.node n2.node : Int) : ℝ) := by
  rw [isBorder_iff, h1, h2, ← Int.cast_lt (R := ℝ), Int.cast_mul, Int.cast_mul, cast_dist2_sub]
  push_cast
  constructor <;> intro h <;> linarith

/-- Settles O36: `|s| < 1` for `s = ((P - M) . D) / |D|` is the border test with both sides squared. -/
theorem borderTestDecidesTheRealDistance : Obligations.BorderTestDecidesTheRealDistance := by
  intro x y n1 n2 h1 h2 hne
  have hpos : (0 : ℝ) < (nodeDist2 n1.node n2.node : Int) := Int.cast_pos.mpr (nodeDist2_pos hne)
  rw [isBorder_iff_bisectorDot h1 h2, ← abs_div_sqrt_lt_one_iff hpos, cast_nodeDist2]
  rfl

/-! ### The pixels of a generated run (R64, R192) -/

/-- Pixel `i` of a run from index `k` on is the pixel of index `k + i`. -/
theorem getElem?_genPixels {nodes : List Node} (n : Nat) : ∀ {k i : Nat} {p : List Pixel},
    genPixels nodes k n = some p → i < n → p[i]? = framePixel nodes (k + i) := by
  induction n with
  | zero => intro k i p _ hi; exact absurd hi (Nat.not_lt_zero i)
  | succ n ih =>
    intro k i p h hi
    simp only [genPixels] at h
    split at h
    next q qs hq hqs =>
      cases h
      cases i with
      | zero => exact hq.symm
      | succ i =>
        rw [List.getElem?_cons_succ, ih hqs (Nat.lt_of_succ_lt_succ hi), Nat.add_assoc, Nat.add_comm 1]
    next => cases h

/-! ### `GEN_CHUNK` (R192) -/

section
variable {n : Nat} {s : State}

theorem exec_genChunk_badCount (hn : 2 * s.params.chunkMax < n) :
    exec (.genChunk n) s = .next (raise .badCount s) := by
  simp [exec_eq_carryOut, planOf, planGenChunk, hn]

theorem exec_genChunk_oddLength (hn : n ≤ 2 * s.params.chunkMax) (hodd : n % 2 = 1) :
    exec (.genChunk n) s = .next (raise .oddLength s) := by
  simp [exec_eq_carryOut, planOf, planGenChunk, Nat.not_lt.mpr hn, hodd]

theorem exec_genChunk_genNotSeeded (hn : n ≤ 2 * s.params.chunkMax) (heven : n % 2 = 0)
    (hv : s.nodesValid = false) : exec (.genChunk n) s = .next (raise .genNotSeeded s) := by
  simp [exec_eq_carryOut, planOf, planGenChunk, Nat.not_lt.mpr hn, heven, hv]

theorem exec_genChunk_genOverrun (hn : n ≤ 2 * s.params.chunkMax) (heven : n % 2 = 0) (hv : s.nodesValid = true)
    (hc : 384000 < s.genCursor.toNat + n) : exec (.genChunk n) s = .next (raise .genOverrun s) := by
  simp [exec_eq_carryOut, planOf, planGenChunk, Nat.not_lt.mpr hn, heven, hv, hc]

/-- A `GEN_CHUNK` that passes its checks gives the pixels of its run. -/
theorem exec_genChunk_accepted {p : List Pixel} (hn : n ≤ 2 * s.params.chunkMax) (heven : n % 2 = 0)
    (hv : s.nodesValid = true) (hc : s.genCursor.toNat + n ≤ 384000)
    (hp : genPixels s.nodes s.genCursor.toNat n = some p) :
    exec (.genChunk n) s = .next (put ⟨.ok, 0#32⟩
      { s with pixOut := s.pixOut ++ p, genCursor := BitVec.ofNat 19 (s.genCursor.toNat + n) }) := by
  simp [exec_eq_carryOut, planOf, planGenChunk, Nat.not_lt.mpr hn, heven, hv, Nat.not_lt.mpr hc, hp,
    advanceCursor, complete, put]

end

/-- Settles O33: the four checks in their order, and then the run from `gen_cursor` on. -/
theorem genChunkFollowsItsRule : Obligations.GenChunkFollowsItsRule := by
  intro n s
  refine ⟨exec_genChunk_badCount, exec_genChunk_oddLength, exec_genChunk_genNotSeeded, exec_genChunk_genOverrun,
    fun hn heven hv hc hnodes => ?_⟩
  obtain ⟨p, hp⟩ := genPixels_isSome hnodes n s.genCursor.toNat
  exact ⟨p, genPixels_length n _ hp, fun i hi => getElem?_genPixels n hp hi,
    exec_genChunk_accepted hn heven hv hc hp⟩

/-! ### `GEN_SEND` (R193) -/

section
variable {l : Nat} {s : State}

theorem exec_genSend_badCount (hl : s.params.chunkMax < l) :
    exec (.genSend l) s = .next (raise .badCount s) := by
  simp [exec_eq_carryOut, planOf, planGenSend, hl]

theorem exec_genSend_illegalState (hl : l ≤ s.params.chunkMax) (hq : s.seqState ≠ .frameOpen) :
    exec (.genSend l) s = .next (raise .illegalState s) := by
  simp [exec_eq_carryOut, planOf, planGenSend, Nat.not_lt.mpr hl, hq]

theorem exec_genSend_genNotSeeded (hl : l ≤ s.params.chunkMax) (hq : s.seqState = .frameOpen)
    (hv : s.nodesValid = false) : exec (.genSend l) s = .next (raise .genNotSeeded s) := by
  simp [exec_eq_carryOut, planOf, planGenSend, Nat.not_lt.mpr hl, hq, hv]

theorem exec_genSend_genOverrun (hl : l ≤ s.params.chunkMax) (hq : s.seqState = .frameOpen)
    (hv : s.nodesValid = true) (hc : 384000 < s.genCursor.toNat + 2 * l) :
    exec (.genSend l) s = .next (raise .genOverrun s) := by
  simp [exec_eq_carryOut, planOf, planGenSend, Nat.not_lt.mpr hl, hq, hv, hc]

theorem exec_genSend_frameOverrun (hl : l ≤ s.params.chunkMax) (hq : s.seqState = .frameOpen)
    (hv : s.nodesValid = true) (hc : s.genCursor.toNat + 2 * l ≤ 384000) (hb : 192000 < s.bytesSent.toNat + l) :
    exec (.genSend l) s = .next (raise .frameOverrun s) := by
  simp [exec_eq_carryOut, planOf, planGenSend, Nat.not_lt.mpr hl, hq, hv, Nat.not_lt.mpr hc, hb]

/-- A `GEN_SEND` that passes its checks sends the packed pixels of its run. -/
theorem exec_genSend_accepted {p : List Pixel} (hl : l ≤ s.params.chunkMax) (hq : s.seqState = .frameOpen)
    (hv : s.nodesValid = true) (hc : s.genCursor.toNat + 2 * l ≤ 384000) (hb : s.bytesSent.toNat + l ≤ 192000)
    (hp : genPixels s.nodes s.genCursor.toNat (2 * l) = some p) :
    exec (.genSend l) s = carryOut (sendGenerated (packSeq p) s) s := by
  simp [exec_eq_carryOut, planOf, planGenSend, Nat.not_lt.mpr hl, hq, hv, Nat.not_lt.mpr hc, Nat.not_lt.mpr hb, hp]

/-- Bytes that fit into `buf` are stored there, sent and counted. -/
theorem carryOut_sendGenerated {b : List Byte} (hlen : b.length = l) (hl : l ≤ s.params.chunkMax) :
    carryOut (sendGenerated b s) s = .next (put ⟨.ok, 0#32⟩
      { s with buf := Memory.writeAll 0 b s.buf, genCursor := BitVec.ofNat 19 (s.genCursor.toNat + 2 * l),
               bytesSent := BitVec.ofNat 18 (s.bytesSent.toNat + l),
               trace := s.trace ++ (if l = 0 then [] else [.data b]) }) := by
  subst hlen
  rcases sendGenerated_cases b s with ⟨-, h⟩ | ⟨hlong, -⟩
  · rw [h]
    simp only [List.length_eq_zero_iff]
    rfl
  · exact absurd hl (Nat.not_le.mpr hlong)

end

/-- Settles O34: the five checks in their order, and then the packed run from `gen_cursor` on. -/
theorem genSendFollowsItsRule : Obligations.GenSendFollowsItsRule := by
  intro l s
  refine ⟨exec_genSend_badCount, exec_genSend_illegalState, exec_genSend_genNotSeeded, exec_genSend_genOverrun,
    exec_genSend_frameOverrun, fun hl hq hv hc hb hnodes => ?_⟩
  obtain ⟨p, hp⟩ := genPixels_isSome hnodes (2 * l) s.genCursor.toNat
  have hlen : p.length = 2 * l := genPixels_length _ _ hp
  have hbytes : (packSeq p).length = l := by rw [packSeq_length, hlen]; omega
  refine ⟨p, Memory.writeAll 0 (packSeq p) s.buf, hlen, fun i hi => getElem?_genPixels _ hp hi, fun a => ?_, ?_⟩
  · rw [read_writeAll_zero, hbytes]
  · rw [exec_genSend_accepted hl hq hv hc hb hp, carryOut_sendGenerated hbytes hl]

end Sys2Proof.Machine

/-! System operations (spec/43_system.md): the control registers by their numbers (R38), and every outcome of `NOP`
(R210) and `RD_REG` (R211). -/

namespace Sys2Proof.Machine

/-! ### `NOP` (R210) -/

theorem exec_nop_badCount {c : Nat} (s : State) (hc : c ≠ 0) : exec (.nop c) s = .next (raise .badCount s) := by
  simp [exec_eq_carryOut, planOf, planNop, hc]

theorem exec_nop_accepted (s : State) : exec (.nop 0) s = .next (put ⟨.ok, 0#32⟩ s) := rfl

/-- Settles O10: the check of the count, and then the result alone. -/
theorem nopFollowsItsRule : Obligations.NopFollowsItsRule :=
  fun s => ⟨exec_nop_accepted s, fun _ hc => exec_nop_badCount s hc⟩

/-! ### The control registers (R38) -/

@[simp] theorem controlReg_zero (s : State) : controlReg 0 s = some (statusReg s) := rfl

@[simp] theorem controlReg_one (s : State) : controlReg 1 s = some (BitVec.ofNat 32 s.bytesSent.toNat) := by
  rw [BitVec.ofNat_toNat, controlReg]

@[simp] theorem controlReg_two (s : State) : controlReg 2 s = some (BitVec.ofNat 32 s.genCursor.toNat) := by
  rw [BitVec.ofNat_toNat, controlReg]

/-- The numbers above 2 name no register. -/
theorem controlReg_reserved {r : Nat} (s : State) (hr : 2 < r) : controlReg r s = none := by
  match r, hr with
  | _ + 3, _ => rfl

/-! ### `RD_REG` (R211) -/

/-- A register's value is the result; nothing else changes. -/
theorem exec_rdReg_of_some {r : Nat} {s : State} {v : Word} (h : controlReg r s = some v) :
    exec (.rdReg r) s = .next (put ⟨.ok, v⟩ s) := by
  simp [exec_eq_carryOut, planOf, planRdReg, h, complete, put]

theorem exec_rdReg_of_none {r : Nat} {s : State} (h : controlReg r s = none) :
    exec (.rdReg r) s = .next (raise .badCount s) := by
  simp [exec_eq_carryOut, planOf, planRdReg, h]

/-- Settles O11: what the register number names decides the outcome. -/
theorem rdRegFollowsItsRule : Obligations.RdRegFollowsItsRule :=
  fun s => ⟨exec_rdReg_of_some (controlReg_zero s), exec_rdReg_of_some (controlReg_one s),
    exec_rdReg_of_some (controlReg_two s), fun _ hr => exec_rdReg_of_none (controlReg_reserved s hr)⟩

end Sys2Proof.Machine

/-! Encoding (spec/30_encoding.md): the fields of a word as numbers (R96, R103), that decode and encode undo each other
(R100), and the steps of an idle block (R75, R251). -/

namespace Sys2Proof.Machine

/-! ### The fields of a word (R96) -/

theorem toNat_opcodeField (w : Word) : (opcodeField w).toNat = w.toNat / 16777216 := by
  rw [opcodeField, BitVec.extractLsb'_toNat, Nat.shiftRight_eq_div_pow]
  omega

theorem toNat_rsvField (w : Word) : (rsvField w).toNat = w.toNat / 1048576 % 16 := by
  rw [rsvField, BitVec.extractLsb'_toNat, Nat.shiftRight_eq_div_pow]

theorem countField_eq_mod (w : Word) : countField w = w.toNat % 1048576 := by
  rw [countField, BitVec.extractLsb'_toNat, Nat.shiftRight_eq_div_pow, Nat.pow_zero, Nat.div_one]

theorem wellFormed_iff {i : Instr} : i.wellFormed = true ↔ i.count < 1048576 := decide_eq_true_iff

/-- The fields of an encoded word are those it was made of. -/
theorem fields_encode {i : Instr} (h : i.wellFormed = true) :
    rsvField (encode i) = 0#4 ∧ opcodeOf i = opcodeField (encode i) ∧ i.count = countField (encode i) := by
  have hw := Laws.EncodedFields.encode_toNat i h
  have hcount := wellFormed_iff.mp h
  refine ⟨BitVec.eq_of_toNat_eq ?_, BitVec.eq_of_toNat_eq ?_, ?_⟩
  · rw [toNat_rsvField, hw, BitVec.toNat_zero]; omega
  · rw [toNat_opcodeField, hw]; omega
  · rw [countField_eq_mod, hw]; omega

/-! ### Decoding and encoding (R100) -/

theorem decode_encode {i : Instr} (h : i.wellFormed = true) : decode (encode i) = .ok i :=
  decode_eq_ok_iff.mpr (fields_encode h)

/-- Settles O1: the decoder reads the fields that the encoder has put together. -/
theorem decodeOfEncodeIsTheOperation : Obligations.DecodeOfEncodeIsTheOperation :=
  fun _ => decode_encode

/-- A count that has been read from a word fits its field. -/
theorem wellFormed_of_decode {w : Word} {i : Instr} (h : decode w = .ok i) : i.wellFormed = true := by
  obtain ⟨-, -, hcount⟩ := decode_eq_ok_iff.mp h
  rw [wellFormed_iff, hcount, countField_eq_mod]
  exact Nat.mod_lt _ (by decide)

/-- An operation's word is the sum of its fields, and so is the word it was decoded from. -/
theorem encode_of_decode {w : Word} {i : Instr} (h : decode w = .ok i) : encode i = w := by
  have hw := Laws.EncodedFields.encode_toNat i (wellFormed_of_decode h)
  obtain ⟨hrsv, hopcode, hcount⟩ := decode_eq_ok_iff.mp h
  have hzero := congrArg BitVec.toNat hrsv
  rw [toNat_rsvField, BitVec.toNat_zero] at hzero
  rw [hopcode, toNat_opcodeField, hcount, countField_eq_mod] at hw
  exact BitVec.eq_of_toNat_eq (by omega)

/-- Settles O2: the two lemmas above. -/
theorem encodeOfDecodeIsTheWord : Obligations.EncodeOfDecodeIsTheWord :=
  fun _ _ h => ⟨wellFormed_of_decode h, encode_of_decode h⟩

/-- Settles O4: the decoder run on each of the words. -/
theorem wordsOfTheSpecDecode : Obligations.WordsOfTheSpecDecode := by
  unfold Obligations.WordsOfTheSpecDecode
  decide

/-! ### The steps of an idle block (R75, R251) -/

/-- With no operation in flight and no reset on its way a step runs the operation that the next word decodes to. -/
theorem step_eq_exec {s : State} {w : Word} {rest : List Word} {i : Instr} (hs : s.resetIn = none)
    (hr : s.running = none) (ho : s.opIn = w :: rest) (hw : decode w = .ok i) :
    step s = exec i { s with opIn := rest } :=
  (step_eq_runWord hs hr ho).trans (runWord_of_decode_ok hw _)

/-- Settles O5: `step_eq_exec`, for a word that has been read from 32 bits. -/
theorem stepRunsTheDecodedOperation : Obligations.StepRunsTheDecodedOperation :=
  fun _ _ _ _ hs hr ho hw => ⟨wellFormed_of_decode hw, step_eq_exec hs hr ho hw⟩

/-- Settles O6: with no word to take, `issue` changes nothing. -/
theorem idleBlockDoesNothing : Obligations.IdleBlockDoesNothing := by
  intro s hs hr ho
  simp only [step, hs, hr, issue, fetch, ho]

end Sys2Proof.Machine

/-! What an operation is when it starts: it fails with the first cause in the order of rule R222, or it has passed the
checks and its plan is one of those below. -/

namespace Sys2Proof.Machine

/-! ### An operation passes its checks or fails (R222) -/

/-- The plans of the operations that have passed their checks, with what the checks have established. -/
inductive Accepted (s : State) : Instr → Plan → Prop where
  | nop : Accepted s (.nop 0) (.ok [complete 0#32])
  | rdReg {r : Nat} {v : Word} (register : controlReg r s = some v) : Accepted s (.rdReg r) (.ok [complete v])
  | pack {n : Nat} (fits : n ≤ 2 * s.params.chunkMax) (even : n % 2 = 0) :
      Accepted s (.pack n) (.ok (packFrom n [] s))
  | unpack {m : Nat} (fits : m ≤ s.params.chunkMax) : Accepted s (.unpack m) (.ok (unpackFrom m [] s))
  | init (state : s.seqState ≠ .frameOpen) : Accepted s (.init 0) (.ok (initI0 s.params s.busyIn))
  | beginFrame (state : s.seqState = .configured ∨ s.seqState = .poweredOff) (powered : s.pwrEn = true) :
      Accepted s (.beginFrame 0) (.ok (panelCmd s.params.cmdDataStart ++
        [setBufLive true, clearBytesSent, enter .frameOpen, complete 0#32]))
  | sendChunk {l : Nat} (fits : l ≤ s.params.chunkMax) (state : s.seqState = .frameOpen)
      (room : s.bytesSent.toNat + l ≤ 192000) : Accepted s (.sendChunk l) (sendChunkFrom l [] s)
  | endFrame (state : s.seqState = .frameOpen) :
      Accepted s (.endFrame 0) (.ok (markShortFrame :: endE0 s.params s.busyIn))
  | turnOff : Accepted s (.turnOff 0)
      (.ok [drivePwr false, setBufLive false, enter .poweredOff, complete 0#32])
  | genScatter : Accepted s (.genScatter 0) (.ok (scatterFrom [] s))
  | genChunk {n : Nat} {p : List Pixel} (fits : n ≤ 2 * s.params.chunkMax) (even : n % 2 = 0)
      (seeded : s.nodesValid = true) (run : s.genCursor.toNat + n ≤ 384000)
      (pixels : genPixels s.nodes s.genCursor.toNat n = some p) :
      Accepted s (.genChunk n) (.ok (p.map givePixel ++ [advanceCursor n, complete 0#32]))
  | genSend {l : Nat} {p : List Pixel} (fits : l ≤ s.params.chunkMax) (state : s.seqState = .frameOpen)
      (seeded : s.nodesValid = true) (run : s.genCursor.toNat + 2 * l ≤ 384000)
      (room : s.bytesSent.toNat + l ≤ 192000)
      (pixels : genPixels s.nodes s.genCursor.toNat (2 * l) = some p) :
      Accepted s (.genSend l) (sendGenerated (packSeq p) s)
  | noPixels {i : Instr} {n : Nat} (seeded : s.nodesValid = true)
      (pixels : genPixels s.nodes s.genCursor.toNat n = none) : Accepted s i (.error .nodeNoValue)

/-- The plan `p` of the operation `i`: it fails, with the first cause present, or it is accepted. -/
inductive Checked (i : Instr) (s : State) (p : Plan) : Prop where
  | fails (c : ErrCode) (cause : firstCause i s = some c) (plan : p = .ok [raise c])
  | passes (cause : firstCause i s = none) (plan : Accepted s i p)

/-- The search for the first cause, written out. -/
theorem firstCause_eq (i : Instr) (s : State) : firstCause i s =
    if causeApplies i s .badCount then some .badCount
    else if causeApplies i s .oddLength then some .oddLength
    else if causeApplies i s .illegalState then some .illegalState
    else if causeApplies i s .panelUnpowered then some .panelUnpowered
    else if causeApplies i s .genNotSeeded then some .genNotSeeded
    else if causeApplies i s .genOverrun then some .genOverrun
    else if causeApplies i s .frameOverrun then some .frameOverrun
    else none := by
  simp only [firstCause, checkOrder, List.find?_cons, List.find?_nil]
  repeat' split
  all_goals simp_all

/-- Every operation makes its checks in the order of rule R222. -/
theorem planOf_checked (i : Instr) (s : State) : Checked i s (planOf i s) := by
  have first := firstCause_eq i s
  cases i <;> simp only [causeApplies, countAllowed, stateAllows, Bool.not_eq_true', decide_eq_true_eq,
    decide_eq_false_iff_not, Nat.not_le, Bool.not_true, Bool.false_eq_true, if_false] at first
  case nop c =>
    by_cases hc : c = 0
    · subst hc; exact .passes (by simpa using first) .nop
    · exact .fails .badCount (by simpa [hc] using first) (by simp [planOf, planNop, hc])
  case rdReg r =>
    match r with
    | 0 | 1 | 2 => exact .passes (by simpa using first) (.rdReg rfl)
    | r + 3 => exact .fails .badCount (by simpa using first) rfl
  case pack n =>
    simp only [planOf, planPack, pixelLimit]
    split_ifs with hn hodd
    · exact .fails .badCount (by simp [first, hn]) rfl
    · exact .fails .oddLength (by simp [first, hn, hodd]) rfl
    · exact .passes (by simp [first, hn, hodd]) (.pack (Nat.le_of_not_lt hn) (by omega))
  case unpack m =>
    simp only [planOf, planUnpack, byteLimit]
    split_ifs with hm
    · exact .fails .badCount (by simp [first, hm]) rfl
    · exact .passes (by simp [first, hm]) (.unpack (Nat.le_of_not_lt hm))
  case init c =>
    simp only [planOf, planInit]
    split_ifs with hc hq
    · exact .fails .badCount (by simp [first, hc]) rfl
    · exact .fails .illegalState (by simp [first, hc, hq]) rfl
    · cases not_not.mp hc; exact .passes (by simp [first, hq]) (.init hq)
  case beginFrame c =>
    simp only [planOf, planBeginFrame]
    split_ifs with hc hq hp
    · exact .fails .badCount (by simp [first, hc]) rfl
    · exact .fails .illegalState (by simp [first, hc, hq]) rfl
    · have hq := or_iff_not_and_not.mpr hq
      exact .fails .panelUnpowered (by simp [first, hc, hq, hp]) rfl
    · cases not_not.mp hc
      have hq := or_iff_not_and_not.mpr hq
      exact .passes (by simp [first, hq, hp]) (.beginFrame hq (Bool.not_eq_false _ ▸ hp))
  case sendChunk l =>
    simp only [planOf, planSendChunk, byteLimit, Config.nbytes]
    split_ifs with hl hq hb
    · exact .fails .badCount (by simp [first, hl]) rfl
    · exact .fails .illegalState (by simp [first, hl, hq]) rfl
    · exact .fails .frameOverrun (by simp [first, hl, hq, hb]) rfl
    · exact .passes (by simp [first, hl, hq, hb])
        (.sendChunk (Nat.le_of_not_lt hl) (not_not.mp hq) (Nat.le_of_not_lt hb))
  case endFrame c =>
    simp only [planOf, planEndFrame]
    split_ifs with hc hq
    · exact .fails .badCount (by simp [first, hc]) rfl
    · exact .fails .illegalState (by simp [first, hc, hq]) rfl
    · cases not_not.mp hc; exact .passes (by simp [first, hq]) (.endFrame (not_not.mp hq))
  case turnOff c =>
    by_cases hc : c = 0
    · subst hc; exact .passes (by simpa using first) .turnOff
    · exact .fails .badCount (by simpa [hc] using first) (by simp [planOf, planTurnOff, hc])
  case genScatter c =>
    by_cases hc : c = 0
    · subst hc; exact .passes (by simpa using first) .genScatter
    · exact .fails .badCount (by simpa [hc] using first) (by simp [planOf, planGenScatter, hc])
  case genChunk n =>
    simp only [planOf, planGenChunk, pixelLimit, Config.npix]
    split_ifs with hn hodd hv hc
    · exact .fails .badCount (by simp [first, hn]) rfl
    · exact .fails .oddLength (by simp [first, hn, hodd]) rfl
    · exact .fails .genNotSeeded (by simp [first, hn, hodd, hv]) rfl
    · exact .fails .genOverrun (by simp [first, hn, hodd, hv, hc]) rfl
    · have hv := Bool.not_eq_false _ ▸ hv
      refine .passes (by simp [first, hn, hodd, hv, hc]) ?_
      split
      next hp => exact .noPixels hv hp
      next hp => exact .genChunk (Nat.le_of_not_lt hn) (by omega) hv (Nat.le_of_not_lt hc) hp
  case genSend l =>
    simp only [planOf, planGenSend, byteLimit, Config.npix, Config.nbytes]
    split_ifs with hl hq hv hc hb
    · exact .fails .badCount (by simp [first, hl]) rfl
    · exact .fails .illegalState (by simp [first, hl, hq]) rfl
    · exact .fails .genNotSeeded (by simp [first, hl, hq, hv]) rfl
    · exact .fails .genOverrun (by simp [first, hl, hq, hv, hc]) rfl
    · exact .fails .frameOverrun (by simp [first, hl, hq, hv, hc, hb]) rfl
    · have hv := Bool.not_eq_false _ ▸ hv
      refine .passes (by simp [first, hl, hq, hv, hc, hb]) ?_
      split
      next hp => exact .noPixels hv hp
      next hp => exact .genSend (Nat.le_of_not_lt hl) (not_not.mp hq) hv (Nat.le_of_not_lt hc) (Nat.le_of_not_lt hb) hp

end Sys2Proof.Machine

/-! The invariant (R25): the ranges of counts, nodes and buffer hold after every action of a step, so also where reset
cuts it; what rule R25 says of the sequencer holds after the whole step (R22, R37, log 10). -/

namespace Sys2Proof.Machine

/-! ### The two halves of the invariant -/

/-- The half of the invariant that no single action breaks: the form of `buf` (R61) and the ranges of the counts and
the nodes (R28, R33, R35). -/
structure State.Ranges (s : State) : Prop where
  bufCanonical : Memory.wf s.buf = true
  bufWithin    : Memory.within s.params.chunkMax s.buf = true
  bytesSent    : s.bytesSent.toNat ≤ Config.nbytes
  genCursor    : s.genCursor.toNat ≤ Config.npix
  cursorEven   : s.genCursor.toNat % 2 = 0
  nodesValid   : s.nodesValid = true → s.nodes.length = Config.nNodes ∧ s.nodes.all nodeInRange = true

/-- The half of the invariant that holds between two steps (R25, R37). -/
structure State.Settled (s : State) : Prop where
  idle     : s.running = none → s.SequencerQuiet
  inFlight : ∀ r, s.running = some r → r.Fits s

theorem inv_iff (s : State) : s.Inv ↔ s.Ranges ∧ (s.resetIn ≠ some 0 → s.Settled) :=
  ⟨fun h => ⟨⟨h.bufCanonical, h.bufWithin, h.bytesSent, h.genCursor, h.cursorEven, h.nodesValid⟩,
      fun hs => ⟨h.idle hs, h.inFlight hs⟩⟩,
    fun ⟨h, k⟩ => ⟨h.bufCanonical, h.bufWithin, h.bytesSent, h.genCursor, h.cursorEven, h.nodesValid,
      fun hs => (k hs).idle, fun hs => (k hs).inFlight⟩⟩

/-! ### What the ranges look at -/

/-- The fields that the ranges speak of are the same. -/
structure SameRanges (s t : State) : Prop where
  params     : t.params = s.params
  buf        : t.buf = s.buf
  bytesSent  : t.bytesSent = s.bytesSent
  genCursor  : t.genCursor = s.genCursor
  nodes      : t.nodes = s.nodes
  nodesValid : t.nodesValid = s.nodesValid

theorem SameRanges.ranges {s t : State} (same : SameRanges s t) (h : s.Ranges) : t.Ranges := by
  obtain ⟨hp, hbuf, hsent, hcursor, hnodes, hvalid⟩ := same
  obtain ⟨canonical, within, sent, cursor, even, valid⟩ := h
  rw [← hbuf] at canonical within
  rw [← hp] at within
  rw [← hsent] at sent
  rw [← hcursor] at cursor even
  rw [← hnodes, ← hvalid] at valid
  exact ⟨canonical, within, sent, cursor, even, valid⟩

/-- The actions that move no count and no node, and store no byte. -/
inductive Quiet : Action → Prop where
  | stand (r : Running) : Quiet (stand r)
  | complete (v : Word) : Quiet (complete v)
  | raise (c : ErrCode) : Quiet (raise c)
  | takeWord (w : Word) : Quiet (takeWord w)
  | takePixels (n : Nat) : Quiet (takePixels n)
  | takeBytes (n : Nat) : Quiet (takeBytes n)
  | takeDraws (n : Nat) : Quiet (takeDraws n)
  | givePixel (p : Pixel) : Quiet (givePixel p)
  | giveByte (b : Byte) : Quiet (giveByte b)
  | emit (e : Event) : Quiet (emit e)
  | drivePwr (b : Bool) : Quiet (drivePwr b)
  | driveRst (b : Bool) : Quiet (driveRst b)
  | poll (b : Bool) : Quiet (poll b)
  | logLongwait : Quiet logLongwait
  | enter (q : SeqState) : Quiet (enter q)
  | setBufLive (b : Bool) : Quiet (setBufLive b)
  | markShortFrame : Quiet markShortFrame

theorem Quiet.sameRanges {a : Action} (h : Quiet a) (s : State) : SameRanges s (a s) := by
  cases h <;> exact ⟨rfl, rfl, rfl, rfl, rfl, rfl⟩

theorem Stops.quiet {a : Action} (h : Stops a) : Quiet a := by
  cases h with
  | complete v => exact .complete v
  | raise c => exact .raise c
  | stand r => exact .stand r

/-- Actions look at no field but their own: what they make of the ranges does not hang on the others. -/
theorem GoesOn.sameRanges {a : Action} (h : GoesOn a) {s t : State} (same : SameRanges s t) :
    SameRanges (a s) (a t) := by
  obtain ⟨hp, hbuf, hsent, hcursor, hnodes, hvalid⟩ := same
  cases h
  case storeBuf a v => exact ⟨hp, congrArg (Memory.writeAll a v) hbuf, hsent, hcursor, hnodes, hvalid⟩
  case addBytesSent n =>
    exact ⟨hp, hbuf, congrArg (fun b : BitVec 18 => BitVec.ofNat 18 (b.toNat + n)) hsent, hcursor, hnodes, hvalid⟩
  case advanceCursor n =>
    exact ⟨hp, hbuf, hsent, congrArg (fun b : BitVec 19 => BitVec.ofNat 19 (b.toNat + n)) hcursor, hnodes, hvalid⟩
  case clearBytesSent => exact ⟨hp, hbuf, rfl, hcursor, hnodes, hvalid⟩
  case seed nodes => exact ⟨hp, hbuf, hsent, rfl, rfl, rfl⟩
  all_goals exact ⟨hp, hbuf, hsent, hcursor, hnodes, hvalid⟩

/-! ### The ranges hold all along a plan -/

/-- The ranges hold wherever in these actions a reset falls. -/
def KeepsRanges (as : List Action) (s : State) : Prop := ∀ n, (perform (as.take n) s).Ranges

theorem keepsRanges_nil {s : State} (h : s.Ranges) : KeepsRanges [] s := fun n => by
  rw [List.take_nil]; exact h

theorem keepsRanges_cons {a : Action} {as : List Action} {s : State} (h : s.Ranges) (hrest : KeepsRanges as (a s)) :
    KeepsRanges (a :: as) s := by
  intro n
  cases n with
  | zero => exact h
  | succ n => exact hrest n

theorem KeepsRanges.whole {as : List Action} {s : State} (h : KeepsRanges as s) : (perform as s).Ranges := by
  have := h as.length
  rwa [List.take_length] at this

/-- Quiet actions, before some that keep the ranges. -/
theorem keepsRanges_append {as bs : List Action} (has : ∀ a ∈ as, Quiet a) {s : State} (h : s.Ranges)
    (hbs : (perform as s).Ranges → KeepsRanges bs (perform as s)) : KeepsRanges (as ++ bs) s := by
  induction as generalizing s with
  | nil => exact hbs h
  | cons a as ih =>
    have ha : (a s).Ranges := ((has a List.mem_cons_self).sameRanges s).ranges h
    exact keepsRanges_cons h (ih (fun x hx => has x (List.mem_cons_of_mem a hx)) ha hbs)

theorem keepsRanges_cons_of_quiet {a : Action} {as : List Action} (ha : Quiet a) {s : State} (h : s.Ranges)
    (hrest : (a s).Ranges → KeepsRanges as (a s)) : KeepsRanges (a :: as) s :=
  keepsRanges_cons h (hrest ((ha.sameRanges s).ranges h))

theorem keepsRanges_of_quiet {as : List Action} (has : ∀ a ∈ as, Quiet a) {s : State} (h : s.Ranges) :
    KeepsRanges as s := by
  have := keepsRanges_append (bs := []) has h keepsRanges_nil
  rwa [List.append_nil] at this

/-- A plan keeps the ranges also from a state that differs in other fields. -/
theorem Planned.keepsRanges_congr {as : List Action} (h : Planned as) {s t : State} (same : SameRanges s t)
    (keeps : KeepsRanges as s) : KeepsRanges as t := by
  obtain ⟨before, last, rfl, hbefore, hlast⟩ := h
  induction before generalizing s t with
  | nil =>
    refine keepsRanges_of_quiet (fun a ha => ?_) (same.ranges (keeps 0))
    exact List.mem_singleton.mp ha ▸ hlast.quiet
  | cons a before ih =>
    exact keepsRanges_cons (same.ranges (keeps 0)) (ih ((hbefore a List.mem_cons_self).sameRanges same)
      (fun n => keeps (n + 1)) fun x hx => hbefore x (List.mem_cons_of_mem a hx))

/-! ### The actions that move the ranges -/

theorem ranges_storeBuf {s : State} (h : s.Ranges) {v : List Byte} (hv : v.length ≤ s.params.chunkMax) :
    (storeBuf 0 v s).Ranges :=
  { h with
    bufCanonical := writeAll_keeps_wf v 0 h.bufCanonical
    bufWithin := writeAll_keeps_within v 0 (by rwa [Nat.zero_add]) h.bufWithin }

theorem ranges_clearBytesSent {s : State} (h : s.Ranges) : (clearBytesSent s).Ranges :=
  { h with bytesSent := Nat.zero_le _ }

theorem ranges_addBytesSent {s : State} (h : s.Ranges) {n : Nat} (hn : s.bytesSent.toNat + n ≤ Config.nbytes) :
    (addBytesSent n s).Ranges := by
  have hsent : (addBytesSent n s).bytesSent.toNat ≤ Config.nbytes := by
    rw [addBytesSent_bytesSent, BitVec.toNat_ofNat]
    exact (Nat.mod_le _ _).trans hn
  exact { h with bytesSent := hsent }

theorem ranges_advanceCursor {s : State} (h : s.Ranges) {n : Nat} (hn : s.genCursor.toNat + n ≤ Config.npix)
    (heven : n % 2 = 0) : (advanceCursor n s).Ranges := by
  have hcursor : (advanceCursor n s).genCursor.toNat = s.genCursor.toNat + n := by
    rw [advanceCursor_genCursor, BitVec.toNat_ofNat]
    exact Nat.mod_eq_of_lt (Nat.lt_of_le_of_lt hn (by decide))
  have hold := h.cursorEven
  exact { h with genCursor := by rw [hcursor]; exact hn, cursorEven := by rw [hcursor]; omega }

/-- A drawn node is in its ranges (R33, R182). -/
theorem nodeInRange_nodeOfDraws (d : DrawTuple) : nodeInRange (nodeOfDraws d) = true := by
  have hx : (nodeOfDraws d).x.toNat < 800 := by
    rw [nodeOfDraws, BitVec.toNat_ofNat]; exact (Nat.mod_le _ _).trans_lt d.dx.isLt
  have hy : (nodeOfDraws d).y.toNat < 480 := by
    rw [nodeOfDraws, BitVec.toNat_ofNat]; exact (Nat.mod_le _ _).trans_lt d.dy.isLt
  obtain ⟨⟨i, hi⟩, ⟨j, hj⟩⟩ := nodeOfDraws_colors d
  obtain ⟨hlow, hhigh⟩ := palette_range i
  obtain ⟨hlow', hhigh'⟩ := palette_range j
  simp [nodeInRange, hx, hy, hi, hj, hlow, hhigh, hlow', hhigh']

theorem ranges_seed {s : State} (h : s.Ranges) {d : List Nat} (hd : d.length = 5 * Config.nNodes) :
    (seed ((drawTuples d).map nodeOfDraws) s).Ranges := by
  have hlen : ((drawTuples d).map nodeOfDraws).length = Config.nNodes := by
    rw [List.length_map, drawTuples_length _ d hd]
  have hrange : ((drawTuples d).map nodeOfDraws).all nodeInRange = true := by
    rw [List.all_map]; exact List.all_eq_true.mpr fun t _ => nodeInRange_nodeOfDraws t
  exact { h with
    genCursor := Nat.zero_le _, cursorEven := rfl, nodesValid := fun _ => ⟨hlen, hrange⟩ }

end Sys2Proof.Machine

namespace Sys2Proof.Machine

/-! ### Every plan keeps the ranges -/

theorem quiet_panelCmd {c : PanelCommand} : ∀ a ∈ panelCmd c, Quiet a :=
  List.forall_mem_map.mpr fun e _ => .emit e

theorem quiet_panelData {d : List Byte} : ∀ a ∈ panelData d, Quiet a := by
  unfold panelData
  split
  · exact List.forall_mem_nil _
  · exact List.forall_mem_singleton.mpr (.emit _)

theorem quiet_busyWait {standing : Nat → Running} {interval : Nat} {after : List Bool → List Action}
    (h : ∀ rest, ∀ a ∈ after rest, Quiet a) :
    ∀ (answers : List Bool) (k : Nat), ∀ a ∈ busyWait standing interval after k answers, Quiet a := by
  intro answers
  induction answers with
  | nil => exact fun k => List.forall_mem_singleton.mpr (.stand _)
  | cons b answers ih =>
    intro k
    cases b with
    | false => exact List.forall_mem_cons.mpr ⟨.poll _, h answers⟩
    | true =>
      have hlog : ∀ a ∈ (if k + 1 = 2 then [logLongwait] else []), Quiet a := by
        split
        · exact List.forall_mem_singleton.mpr .logLongwait
        · exact List.forall_mem_nil _
      exact List.forall_mem_cons.mpr ⟨.poll _, List.forall_mem_cons.mpr ⟨.stand _,
        List.forall_mem_append.mpr ⟨hlog, List.forall_mem_cons.mpr ⟨.emit _, ih (k + 1)⟩⟩⟩⟩

theorem quiet_initFrom (useq : InitStep) (k : Nat) (s : State) : ∀ a ∈ initFrom useq k s, Quiet a := by
  have h6 : ∀ a ∈ initI6, Quiet a := by
    simp [initI6, Quiet.stand, Quiet.enter, Quiet.complete]
  have h5 : ∀ a ∈ initI5 s.params, Quiet a :=
    List.forall_mem_cons.mpr ⟨.stand _, List.forall_mem_append.mpr
      ⟨List.forall_mem_flatMap.mpr fun _ _ => quiet_panelCmd, h6⟩⟩
  have h4 : ∀ k, ∀ a ∈ initI4 s.params k s.busyIn, Quiet a := fun k =>
    List.forall_mem_cons.mpr ⟨.stand _, quiet_busyWait (fun _ => h5) _ k⟩
  have pulse : ∀ (r : Running) (b : Bool) (ms : Nat) {as : List Action}, (∀ a ∈ as, Quiet a) →
      ∀ a ∈ stand r :: driveRst b :: delay ms :: as, Quiet a := fun r b ms as has =>
    List.forall_mem_cons.mpr ⟨.stand _, List.forall_mem_cons.mpr ⟨.driveRst _,
      List.forall_mem_cons.mpr ⟨.emit _, has⟩⟩⟩
  have h3 := pulse (.init .i3 0) s.params.rstOuter s.params.tRst2 (h4 0)
  have h2 := pulse (.init .i2 0) s.params.rstInner s.params.tRst1 h3
  have h1 := pulse (.init .i1 0) s.params.rstOuter s.params.tRst0 h2
  cases useq
  case i0 => exact List.forall_mem_cons.mpr ⟨.stand _, List.forall_mem_cons.mpr ⟨.drivePwr _, h1⟩⟩
  case i1 => exact h1
  case i2 => exact h2
  case i3 => exact h3
  case i4 => exact h4 k
  case i5 => exact h5
  case i6 => exact h6

theorem quiet_endFrameFrom (useq : EndStep) (k : Nat) (s : State) : ∀ a ∈ endFrameFrom useq k s, Quiet a := by
  have h7 : ∀ a ∈ endE7, Quiet a := by
    simp [endE7, Quiet.stand, Quiet.setBufLive, Quiet.enter, Quiet.complete]
  have wait : ∀ (e : EndStep) {after : List Bool → List Action}, (∀ l, ∀ a ∈ after l, Quiet a) → ∀ k l,
      ∀ a ∈ stand (.endFrame e k) :: busyWait (.endFrame e) s.params.pollInterval after k l, Quiet a :=
    fun e after h k l => List.forall_mem_cons.mpr ⟨.stand _, quiet_busyWait h l k⟩
  have cmd : ∀ (r : Running) (c : PanelCommand) {as : List Action}, (∀ a ∈ as, Quiet a) →
      ∀ a ∈ stand r :: (panelCmd c ++ as), Quiet a :=
    fun r c as h => List.forall_mem_cons.mpr ⟨.stand _, List.forall_mem_append.mpr ⟨quiet_panelCmd, h⟩⟩
  have h6 := wait .e6 fun _ => h7
  have h5 := fun l => cmd (.endFrame .e5 0) s.params.cmdPowerOff (h6 0 l)
  have h4 := wait .e4 h5
  have h3 := fun l => cmd (.endFrame .e3 0) s.params.cmdRefresh (h4 0 l)
  have h2 := wait .e2 h3
  have h1 := fun l => cmd (.endFrame .e1 0) s.params.cmdPowerOn (h2 0 l)
  cases useq
  case e0 => exact List.forall_mem_cons.mpr ⟨.stand _, List.forall_mem_cons.mpr ⟨.enter _, h1 _⟩⟩
  case e1 => exact h1 _
  case e2 => exact h2 k _
  case e3 => exact h3 _
  case e4 => exact h4 k _
  case e5 => exact h5 _
  case e6 => exact h6 k _
  case e7 => exact h7

theorem quiet_packFrom (n : Nat) (taken : List Pixel) (s : State) : ∀ a ∈ packFrom n taken s, Quiet a := by
  refine List.forall_mem_cons.mpr ⟨.takePixels _, ?_⟩
  split_ifs
  · exact List.forall_mem_singleton.mpr (.stand _)
  · exact List.forall_mem_append.mpr
      ⟨List.forall_mem_map.mpr fun b _ => .giveByte b, List.forall_mem_singleton.mpr (.complete _)⟩
  · exact List.forall_mem_singleton.mpr (.raise _)

theorem quiet_unpackFrom (m : Nat) (taken : List Byte) (s : State) : ∀ a ∈ unpackFrom m taken s, Quiet a := by
  refine List.forall_mem_cons.mpr ⟨.takeBytes _, ?_⟩
  split_ifs
  · exact List.forall_mem_singleton.mpr (.stand _)
  · exact List.forall_mem_append.mpr
      ⟨List.forall_mem_map.mpr fun p _ => .givePixel p, List.forall_mem_singleton.mpr (.complete _)⟩
  · exact List.forall_mem_singleton.mpr (.raise _)

theorem quiet_singleton {a : Action} (h : Quiet a) : ∀ x ∈ [a], Quiet x := List.forall_mem_singleton.mpr h

theorem keepsRanges_scatterFrom {taken : List Nat} {s : State} (h : s.Ranges)
    (htaken : taken.length ≤ 5 * Config.nNodes) : KeepsRanges (scatterFrom taken s) s := by
  refine keepsRanges_cons_of_quiet (.takeDraws _) h fun h => ?_
  split
  next => exact keepsRanges_of_quiet (quiet_singleton (.stand _)) h
  next hlen =>
    have hd := Nat.le_antisymm (payload_length_le s.rngIn htaken) (Nat.le_of_not_lt hlen)
    exact keepsRanges_cons h (keepsRanges_of_quiet (quiet_singleton (.complete _)) (ranges_seed h hd))

/-- The plan of a `SEND_CHUNK`, for bytes that fit into `buf`. -/
theorem sendChunkFrom_eq {len : Nat} {taken : List Byte} {s : State} (htaken : taken.length ≤ len)
    (hlen : len ≤ s.params.chunkMax) : sendChunkFrom len taken s =
      .ok (takeBytes (missing len taken) ::
        if (payload len taken s.byteIn).length < len then [stand (.sendChunk len (payload len taken s.byteIn))]
        else storeBuf 0 (payload len taken s.byteIn) ::
          if (payload len taken s.byteIn).all validPacked then
            panelData (payload len taken s.byteIn) ++ [addBytesSent len, complete 0#32]
          else [raise .invalidColor]) := by
  have hle := payload_length_le s.byteIn htaken
  unfold sendChunkFrom sendChunk
  simp only [throughBuf_eq, if_pos (hle.trans hlen)]
  split
  · rfl
  · rw [Nat.le_antisymm hle (Nat.le_of_not_lt ‹_›)]; rfl

theorem keepsRanges_sendChunkFrom {len : Nat} {taken : List Byte} {s : State} {as : List Action} (h : s.Ranges)
    (htaken : taken.length ≤ len) (hlen : len ≤ s.params.chunkMax)
    (hroom : s.bytesSent.toNat + len ≤ Config.nbytes) (has : sendChunkFrom len taken s = .ok as) :
    KeepsRanges as s := by
  rw [sendChunkFrom_eq htaken hlen] at has
  cases has
  have hbytes := (payload_length_le s.byteIn htaken).trans hlen
  refine keepsRanges_cons_of_quiet (.takeBytes _) h fun h => ?_
  split_ifs
  · exact keepsRanges_of_quiet (quiet_singleton (.stand _)) h
  · refine keepsRanges_cons h (keepsRanges_append quiet_panelData (ranges_storeBuf h hbytes) fun h => ?_)
    refine keepsRanges_cons h (keepsRanges_of_quiet (quiet_singleton (.complete _)) (ranges_addBytesSent h ?_))
    rw [perform_panelData]
    exact hroom
  · exact keepsRanges_cons h (keepsRanges_of_quiet (quiet_singleton (.raise _)) (ranges_storeBuf h hbytes))

/-- The plan of a `GEN_SEND`, for bytes that fit into `buf`. -/
theorem sendGenerated_eq {b : List Byte} {s : State} (hb : b.length ≤ s.params.chunkMax) : sendGenerated b s =
    .ok (storeBuf 0 b :: (panelData b ++ [advanceCursor (2 * b.length), addBytesSent b.length, complete 0#32])) := by
  unfold sendGenerated
  rw [throughBuf_eq, if_pos hb]

theorem keepsRanges_sendGenerated {b : List Byte} {s : State} {as : List Action} (h : s.Ranges)
    (hb : b.length ≤ s.params.chunkMax) (hroom : s.bytesSent.toNat + b.length ≤ Config.nbytes)
    (hrun : s.genCursor.toNat + 2 * b.length ≤ Config.npix) (has : sendGenerated b s = .ok as) :
    KeepsRanges as s := by
  rw [sendGenerated_eq hb] at has
  cases has
  refine keepsRanges_cons h (keepsRanges_append quiet_panelData (ranges_storeBuf h hb) fun h => ?_)
  rw [perform_panelData] at h ⊢
  have hcursor := ranges_advanceCursor h (n := 2 * b.length) hrun (by omega)
  exact keepsRanges_cons h (keepsRanges_cons hcursor (keepsRanges_of_quiet (quiet_singleton (.complete _))
    (ranges_addBytesSent hcursor hroom)))

/-- `GEN_SEND` packs the pixels of its run into as many bytes as its count says. -/
theorem length_packSeq_genPixels {nodes : List Node} {k l : Nat} {p : List Pixel}
    (hp : genPixels nodes k (2 * l) = some p) : (packSeq p).length = l := by
  rw [packSeq_length, genPixels_length _ _ hp]
  omega

theorem Accepted.keepsRanges {i : Instr} {s : State} {p : Plan} {as : List Action} (acc : Accepted s i p)
    (has : p = .ok as) (h : s.Ranges) : KeepsRanges as s := by
  cases acc
  case nop => cases has; exact keepsRanges_of_quiet (quiet_singleton (.complete _)) h
  case rdReg => cases has; exact keepsRanges_of_quiet (quiet_singleton (.complete _)) h
  case pack => cases has; exact keepsRanges_of_quiet (quiet_packFrom _ _ _) h
  case unpack => cases has; exact keepsRanges_of_quiet (quiet_unpackFrom _ _ _) h
  case init => cases has; exact keepsRanges_of_quiet (quiet_initFrom .i0 0 s) h
  case beginFrame =>
    cases has
    refine keepsRanges_append quiet_panelCmd h fun h => ?_
    refine keepsRanges_cons_of_quiet (.setBufLive _) h fun h => ?_
    refine keepsRanges_cons h (keepsRanges_of_quiet ?_ (ranges_clearBytesSent h))
    exact List.forall_mem_cons.mpr ⟨.enter _, quiet_singleton (.complete _)⟩
  case sendChunk fits state room => exact keepsRanges_sendChunkFrom h (Nat.zero_le _) fits room has
  case endFrame =>
    cases has
    exact keepsRanges_of_quiet (List.forall_mem_cons.mpr ⟨.markShortFrame, quiet_endFrameFrom .e0 0 s⟩) h
  case turnOff =>
    cases has
    refine keepsRanges_of_quiet ?_ h
    simp [Quiet.drivePwr, Quiet.setBufLive, Quiet.enter, Quiet.complete]
  case genScatter => cases has; exact keepsRanges_scatterFrom h (Nat.zero_le _)
  case genChunk p fits even seeded run pixels =>
    cases has
    refine keepsRanges_append (List.forall_mem_map.mpr fun q _ => .givePixel q) h fun h => ?_
    rw [perform_givePixel] at h ⊢
    exact keepsRanges_cons h (keepsRanges_of_quiet (quiet_singleton (.complete _)) (ranges_advanceCursor h run even))
  case genSend fits state seeded run room pixels =>
    have hlen := length_packSeq_genPixels pixels
    refine keepsRanges_sendGenerated h ?_ ?_ ?_ has <;> rw [hlen] <;> assumption
  case noPixels => cases has

theorem planOf_keepsRanges {i : Instr} {s : State} {as : List Action} (h : s.Ranges) (has : planOf i s = .ok as) :
    KeepsRanges as s := by
  cases planOf_checked i s with
  | fails c _ plan =>
    rw [plan] at has
    cases has
    exact keepsRanges_of_quiet (quiet_singleton (.raise c)) h
  | passes _ plan => exact plan.keepsRanges has h

theorem planResume_keepsRanges {r : Running} {s : State} {as : List Action} (h : s.Ranges) (fits : r.Fits s)
    (has : planResume r s = .ok as) : KeepsRanges as s := by
  cases r
  case begun => exact fits.elim
  case pack => cases has; exact keepsRanges_of_quiet (quiet_packFrom _ _ _) h
  case unpack => cases has; exact keepsRanges_of_quiet (quiet_unpackFrom _ _ _) h
  case sendChunk len taken =>
    obtain ⟨-, -, hlen, hroom, htaken⟩ := fits
    exact keepsRanges_sendChunkFrom h (Nat.le_of_lt htaken) hlen hroom has
  case genScatter taken =>
    obtain ⟨-, htaken⟩ := fits
    cases has
    exact keepsRanges_scatterFrom h (Nat.le_of_lt htaken)
  case init => cases has; exact keepsRanges_of_quiet (quiet_initFrom _ _ _) h
  case endFrame => cases has; exact keepsRanges_of_quiet (quiet_endFrameFrom _ _ _) h

end Sys2Proof.Machine

namespace Sys2Proof.Machine

/-! ### What rule R25 looks at -/

theorem State.SequencerQuiet.congr {s t : State} (h : s.SequencerQuiet) (hq : t.seqState = s.seqState)
    (hp : t.pwrEn = s.pwrEn) (hb : t.bufLive = s.bufLive) : t.SequencerQuiet := by
  obtain ⟨notClosed, openPowered, liveIsOpen, configured, unpowered⟩ := h
  rw [← hq] at notClosed openPowered liveIsOpen configured unpowered
  rw [← hp] at openPowered configured unpowered
  rw [← hb] at openPowered liveIsOpen
  exact ⟨notClosed, openPowered, liveIsOpen, configured, unpowered⟩

theorem sequencerQuiet_poweredOff {s : State} (hq : s.seqState = .poweredOff) (hb : s.bufLive = false) :
    s.SequencerQuiet := by
  constructor <;> simp [hq, hb]

theorem sequencerQuiet_configured {s : State} (hq : s.seqState = .configured) (hp : s.pwrEn = true)
    (hb : s.bufLive = false) : s.SequencerQuiet := by
  constructor <;> simp [hq, hp, hb]

theorem sequencerQuiet_frameOpen {s : State} (hq : s.seqState = .frameOpen) (hp : s.pwrEn = true)
    (hb : s.bufLive = true) : s.SequencerQuiet := by
  constructor <;> simp [hq, hp, hb]

/-- An operation that has ended leaves the sequencer quiet. -/
theorem settled_of_ended {s : State} (hr : s.running = none) (h : s.SequencerQuiet) : s.Settled :=
  ⟨fun _ => h, fun r hr' => by simp [hr] at hr'⟩

theorem settled_of_waiting {s : State} {r : Running} (hr : s.running = some r) (h : r.Fits s) : s.Settled :=
  ⟨fun hr' => by simp [hr] at hr', fun r' hr' => by cases hr.symm.trans hr'; exact h⟩

/-- What an operation in flight has been promised, in a state that differs only in what it does not look at. -/
theorem Running.Fits.congr {r : Running} {s t : State} (fits : r.Fits s) (same : SameRanges s t)
    (hq : t.seqState = s.seqState) (hp : t.pwrEn = s.pwrEn) (hb : t.bufLive = s.bufLive) (hrst : t.rst = s.rst) :
    r.Fits t := by
  have quiet : s.SequencerQuiet → t.SequencerQuiet := fun h => h.congr hq hp hb
  cases r <;> simp only [Running.Fits, same.params, same.bytesSent, hq, hp, hb, hrst] at fits ⊢
  case pack => exact fits.imp_left quiet
  case unpack => exact fits.imp_left quiet
  case sendChunk => exact fits.imp_left quiet
  case genScatter => exact fits.imp_left quiet
  case init => exact fits
  case endFrame => exact fits

theorem State.Settled.congr {s t : State} (h : s.Settled) (same : SameRanges s t) (hq : t.seqState = s.seqState)
    (hp : t.pwrEn = s.pwrEn) (hb : t.bufLive = s.bufLive) (hrst : t.rst = s.rst) (hrun : t.running = s.running) :
    t.Settled :=
  ⟨fun hr => (h.idle (hrun ▸ hr)).congr hq hp hb, fun r hr => (h.inFlight r (hrun ▸ hr)).congr same hq hp hb hrst⟩

/-! ### After a whole step the block is settled -/

theorem settled_packFrom {n : Nat} {taken : List Pixel} {s : State} (h : s.SequencerQuiet)
    (hn : n ≤ 2 * s.params.chunkMax) (heven : n % 2 = 0) : (perform (packFrom n taken s) s).Settled := by
  obtain ⟨p, rest, -, -, ⟨hlen, e⟩ | ⟨-, -, e⟩ | ⟨-, -, e⟩⟩ := packFrom_cases n taken s <;> rw [e]
  · exact settled_of_waiting rfl ⟨h.congr rfl rfl rfl, hn, heven, hlen⟩
  · exact settled_of_ended rfl (h.congr rfl rfl rfl)
  · exact settled_of_ended rfl (h.congr rfl rfl rfl)

theorem settled_unpackFrom {m : Nat} {taken : List Byte} {s : State} (h : s.SequencerQuiet)
    (hm : m ≤ s.params.chunkMax) : (perform (unpackFrom m taken s) s).Settled := by
  obtain ⟨b, rest, -, -, ⟨hlen, e⟩ | ⟨-, -, e⟩ | ⟨-, -, e⟩⟩ := unpackFrom_cases m taken s <;> rw [e]
  · exact settled_of_waiting rfl ⟨h.congr rfl rfl rfl, hm, hlen⟩
  · exact settled_of_ended rfl (h.congr rfl rfl rfl)
  · exact settled_of_ended rfl (h.congr rfl rfl rfl)

theorem settled_sendChunkFrom {len : Nat} {taken : List Byte} {s t : State} (h : s.SequencerQuiet)
    (hq : s.seqState = .frameOpen) (hlen : len ≤ s.params.chunkMax) (hroom : s.bytesSent.toNat + len ≤ Config.nbytes)
    (ht : carryOut (sendChunkFrom len taken s) s = .next t) : t.Settled := by
  obtain ⟨v, rest, -, -, ⟨hv, e⟩ | ⟨-, -, -, e⟩ | ⟨-, -, -, e⟩ | ⟨-, -, e⟩⟩ := sendChunkFrom_cases len taken s <;>
    rw [e] at ht <;> cases ht
  · exact settled_of_waiting rfl ⟨h.congr rfl rfl rfl, hq, hlen, hroom, hv⟩
  · exact settled_of_ended rfl (h.congr rfl rfl rfl)
  · exact settled_of_ended rfl (h.congr rfl rfl rfl)

theorem settled_scatterFrom {taken : List Nat} {s : State} (h : s.SequencerQuiet) :
    (perform (scatterFrom taken s) s).Settled := by
  obtain ⟨d, rest, -, -, ⟨hd, e⟩ | ⟨-, e⟩⟩ := scatterFrom_cases taken s <;> rw [e]
  · exact settled_of_waiting rfl ⟨h.congr rfl rfl rfl, hd⟩
  · exact settled_of_ended rfl (h.congr rfl rfl rfl)

/-- A stretch of `INIT` that ends or waits with the panel powered and its reset line at rest. -/
theorem InitFrame.settled {s t : State} (h : InitFrame s t) (hp : t.pwrEn = true) (hrst : t.rst = s.params.rstOuter)
    (hb : s.bufLive = false) (hopen : s.seqState ≠ .frameOpen) (hclosed : s.seqState ≠ .frameClosed) :
    t.Settled := by
  have hb' : t.bufLive = false := h.bufLive.trans hb
  rcases h.stands with ⟨hr, hq⟩ | ⟨⟨k, hr⟩, hq⟩
  · exact settled_of_ended hr (sequencerQuiet_configured hq hp hb')
  · refine settled_of_waiting hr ⟨rfl, hp, ?_, hb', ?_, ?_⟩
    · rw [hrst, h.params]
    · rwa [hq]
    · rwa [hq]

/-- A stretch of `END_FRAME`, from `FrameClosed` with the panel powered and the buffer live. -/
theorem EndFrameFrame.settled {s t : State} (h : EndFrameFrame s t) (hq : s.seqState = .frameClosed)
    (hp : s.pwrEn = true) (hb : s.bufLive = true) : t.Settled := by
  rcases h.stands with ⟨hr, hq', hb'⟩ | ⟨⟨useq, k, hr, hu⟩, hq', hb'⟩
  · exact settled_of_ended hr (sequencerQuiet_poweredOff hq' hb')
  · exact settled_of_waiting hr ⟨hu, h.pwrEn.trans hp, hb'.trans hb, hq'.trans hq⟩

theorem Accepted.settled {i : Instr} {s t : State} {p : Plan} (acc : Accepted s i p) (h : s.SequencerQuiet)
    (ht : carryOut p s = .next t) : t.Settled := by
  cases acc
  case nop => cases ht; exact settled_of_ended rfl (h.congr rfl rfl rfl)
  case rdReg => cases ht; exact settled_of_ended rfl (h.congr rfl rfl rfl)
  case pack fits even => cases ht; exact settled_packFrom h fits even
  case unpack fits => cases ht; exact settled_unpackFrom h fits
  case init state =>
    cases ht
    obtain ⟨frame, hp, hrst⟩ := initI0_frame s.params s.busyIn s rfl
    have hb : s.bufLive = false := Bool.eq_false_iff.mpr fun hb => state (h.liveIsOpen hb)
    exact frame.settled hp hrst hb state h.notClosed
  case beginFrame powered =>
    cases ht
    rw [perform_append, perform_panelCmd]
    exact settled_of_ended rfl (sequencerQuiet_frameOpen rfl powered rfl)
  case sendChunk fits state room => exact settled_sendChunkFrom h state fits room ht
  case endFrame state =>
    cases ht
    obtain ⟨hp, hb⟩ := h.openPowered state
    exact (endE0_frame s.params s.busyIn (markShortFrame s) rfl).settled rfl hp hb
  case turnOff => cases ht; exact settled_of_ended rfl (sequencerQuiet_poweredOff rfl rfl)
  case genScatter => cases ht; exact settled_scatterFrom h
  case genChunk =>
    cases ht
    rw [perform_append, perform_givePixel]
    exact settled_of_ended rfl (h.congr rfl rfl rfl)
  case genSend pixels =>
    rcases sendGenerated_cases (packSeq _) s with ⟨-, e⟩ | ⟨-, e⟩ <;> rw [e] at ht <;> cases ht
    exact settled_of_ended rfl (h.congr rfl rfl rfl)
  case noPixels => cases ht

theorem planOf_settled {i : Instr} {s t : State} (h : s.SequencerQuiet) (ht : carryOut (planOf i s) s = .next t) :
    t.Settled := by
  cases planOf_checked i s with
  | fails c _ plan =>
    rw [plan] at ht
    cases ht
    exact settled_of_ended rfl (h.congr rfl rfl rfl)
  | passes _ plan => exact plan.settled h ht

theorem planResume_settled {r : Running} {s t : State} (fits : r.Fits s)
    (ht : carryOut (planResume r s) s = .next t) : t.Settled := by
  cases r
  case begun => exact fits.elim
  case pack =>
    obtain ⟨h, hn, heven, -⟩ := fits
    cases ht
    exact settled_packFrom h hn heven
  case unpack =>
    obtain ⟨h, hm, -⟩ := fits
    cases ht
    exact settled_unpackFrom h hm
  case sendChunk =>
    obtain ⟨h, hq, hlen, hroom, -⟩ := fits
    exact settled_sendChunkFrom h hq hlen hroom ht
  case genScatter =>
    obtain ⟨h, -⟩ := fits
    cases ht
    exact settled_scatterFrom h
  case init useq k =>
    obtain ⟨rfl, hp, hrst, hb, hopen, hclosed⟩ := fits
    cases ht
    obtain ⟨frame, hp', hrst'⟩ := initI4_frame s.params k s.busyIn s rfl
    exact frame.settled (hp'.trans hp) (hrst'.trans hrst) hb hopen hclosed
  case endFrame useq k =>
    obtain ⟨hu, hp, hb, hq⟩ := fits
    cases ht
    have hu : useq ≠ .e0 := by rintro rfl; simp at hu
    exact (endFrameFrom_frame k s hu).settled hq hp hb

/-! ### No plan of a sound state is a fault -/

theorem exists_sendChunkFrom_ok {len : Nat} {taken : List Byte} {s : State} (htaken : taken.length ≤ len)
    (hlen : len ≤ s.params.chunkMax) : ∃ as, sendChunkFrom len taken s = .ok as :=
  ⟨_, sendChunkFrom_eq htaken hlen⟩

theorem Accepted.exists_ok {i : Instr} {s : State} {p : Plan} (acc : Accepted s i p) (h : s.Ranges) :
    ∃ as, p = .ok as := by
  cases acc
  case sendChunk fits _ _ => exact exists_sendChunkFrom_ok (Nat.zero_le _) fits
  case genSend fits _ _ _ _ pixels => exact ⟨_, sendGenerated_eq ((length_packSeq_genPixels pixels).trans_le fits)⟩
  case noPixels n seeded pixels =>
    obtain ⟨hlen, -⟩ := h.nodesValid seeded
    obtain ⟨p, hp⟩ := genPixels_isSome (nodes := s.nodes) (by rw [hlen]; decide) n s.genCursor.toNat
    rw [pixels] at hp
    cases hp
  all_goals exact ⟨_, rfl⟩

theorem exists_planOf_ok (i : Instr) {s : State} (h : s.Ranges) : ∃ as, planOf i s = .ok as := by
  cases planOf_checked i s with
  | fails c _ plan => exact ⟨_, plan⟩
  | passes _ plan => exact plan.exists_ok h

theorem exists_planResume_ok {r : Running} {s : State} (fits : r.Fits s) : ∃ as, planResume r s = .ok as := by
  cases r
  case sendChunk =>
    obtain ⟨-, -, hlen, -, htaken⟩ := fits
    exact exists_sendChunkFrom_ok (Nat.le_of_lt htaken) hlen
  all_goals exact ⟨_, rfl⟩

/-! ### A step from a sound state -/

/-- A word's plan, in a state in which the ranges hold and the sequencer is quiet. -/
theorem planWord_sound (w : Word) {s : State} (h : s.Ranges) (hq : s.SequencerQuiet) :
    ∃ as, planWord w s = .ok as ∧ KeepsRanges as s ∧ (perform as s).Settled := by
  cases hw : decode w with
  | error e =>
    refine ⟨[raise .illegalOp], by simp only [planWord, hw], keepsRanges_of_quiet (quiet_singleton (.raise _)) h, ?_⟩
    exact settled_of_ended rfl (hq.congr rfl rfl rfl)
  | ok i =>
    obtain ⟨as, has⟩ := exists_planOf_ok i h
    refine ⟨as, by simp only [planWord, hw, has], planOf_keepsRanges h has, planOf_settled (i := i) hq ?_⟩
    rw [has, carryOut_ok]

/-- A step's plan, in a state that meets the invariant, unless the step is the reset itself. -/
theorem planStep_sound {s : State} (h : s.Inv) (hs : s.resetIn ≠ some 0) :
    ∃ as, planStep s = .ok as ∧ KeepsRanges as s ∧ (perform as s).Settled := by
  obtain ⟨ranges, settled⟩ := (inv_iff s).mp h
  have settled := settled hs
  unfold planStep
  cases hr : s.running with
  | some r =>
    have fits := settled.inFlight r hr
    obtain ⟨as, has⟩ := exists_planResume_ok fits
    exact ⟨as, has, planResume_keepsRanges ranges fits has, planResume_settled fits (by rw [has, carryOut_ok])⟩
  | none =>
    cases ho : s.opIn with
    | nil =>
      simp only [fetch, ho]
      refine ⟨[id], rfl, keepsRanges_cons ranges (keepsRanges_nil ranges), settled⟩
    | cons w rest =>
      have quiet : { s with opIn := rest }.SequencerQuiet := (settled.idle hr).congr rfl rfl rfl
      have same : SameRanges s { s with opIn := rest } := ⟨rfl, rfl, rfl, rfl, rfl, rfl⟩
      obtain ⟨as, has, keeps, hset⟩ := planWord_sound w (same.ranges ranges) quiet
      have taken : takeWord w s = { { s with opIn := rest } with running := some (.begun w) } := by
        simp [takeWord, ho]
      simp only [fetch, ho, has]
      refine ⟨takeWord w :: as, rfl, ?_, ?_⟩
      · have same : SameRanges { s with opIn := rest } (takeWord w s) := ⟨rfl, rfl, rfl, rfl, rfl, rfl⟩
        exact keepsRanges_cons_of_quiet (.takeWord w) ranges fun _ =>
          (planned_planWord has).keepsRanges_congr same keeps
      · rw [perform_cons, taken, (planned_planWord has).running]
        exact hset

/-- Reset meets the invariant, for every value of the parameters. -/
theorem inv_hardReset (s : State) : (hardReset s).Inv := by
  have quiet : (hardReset s).SequencerQuiet := by constructor <;> simp [hardReset, State.reset]
  have ranges : (hardReset s).Ranges := by constructor <;> simp [hardReset, State.reset, Memory.wf, Memory.risingFrom,
    Memory.within]
  exact (inv_iff _).mpr ⟨ranges, fun _ => settled_of_ended rfl quiet⟩

theorem step_keeps_inv {s t : State} (h : s.Inv) (ht : step s = .next t) : t.Inv := by
  have sound := planStep_sound h
  cases hs : s.resetIn with
  | none =>
    obtain ⟨as, has, keeps, settled⟩ := sound (by simp [hs])
    rw [step_eq_carryOut hs, has] at ht
    cases ht
    exact (inv_iff _).mpr ⟨keeps.whole, fun _ => settled⟩
  | some n =>
    rcases step_reset_cases hs ht with ⟨-, rfl⟩ | ⟨hn, as, has, rfl⟩
    · exact inv_hardReset s
    · obtain ⟨as', has', keeps, settled⟩ := sound (by rw [hs]; simp; omega)
      cases has.symm.trans has'
      have same (u : State) (m : Option Nat) : SameRanges u { u with resetIn := m } := ⟨rfl, rfl, rfl, rfl, rfl, rfl⟩
      refine (inv_iff _).mpr ⟨(same _ _).ranges (keeps n), fun hcut => ?_⟩
      · have hlen : as.length ≤ n := by
          by_contra hlen
          exact hcut (congrArg some (by omega))
        rw [List.take_of_length_le hlen]
        exact settled.congr (same _ _) rfl rfl rfl rfl rfl

/-- Settles O58: the ranges hold after every action of the step, and after the whole of it the block is settled. -/
theorem everyStepKeepsTheInvariant : Obligations.EveryStepKeepsTheInvariant :=
  fun _ _ => step_keeps_inv

/-- Settles O57: reset gives the reset state its own parameters. -/
theorem resetMeetsTheInvariant : Obligations.ResetMeetsTheInvariant := inv_hardReset State.reset

/-- Settles O60: the plan of a step from a sound state is no fault, with a reset on its way or without. -/
theorem invariantStatesNeverStop : Obligations.InvariantStatesNeverStop := by
  intro s h
  cases hs : s.resetIn with
  | none =>
    obtain ⟨as, has, -, -⟩ := planStep_sound h (by simp [hs])
    exact ⟨_, by rw [step_eq_carryOut hs, has, carryOut_ok]⟩
  | some n =>
    cases n with
    | zero => exact ⟨hardReset s, by simp only [step, hs]⟩
    | succ n =>
      obtain ⟨as, has, -, -⟩ := planStep_sound h (by simp [hs])
      exact ⟨_, by simp only [step, hs, has, carryOutUntilReset]; rfl⟩

/-! ### The moves of the outside -/

theorem State.Inv.congr {s t : State} (h : s.Inv) (same : SameRanges s t) (hq : t.seqState = s.seqState)
    (hp : t.pwrEn = s.pwrEn) (hb : t.bufLive = s.bufLive) (hrst : t.rst = s.rst) (hrun : t.running = s.running)
    (hreset : s.resetIn = some 0 → t.resetIn = some 0) : t.Inv := by
  obtain ⟨ranges, settled⟩ := (inv_iff s).mp h
  exact (inv_iff t).mpr
    ⟨same.ranges ranges, fun ht => (settled (mt hreset ht)).congr same hq hp hb hrst hrun⟩

/-- Settles O59: an item that joins its queue is in none of the fields that the invariant speaks of; a reset gives the
reset state, and one on its way comes no later than one that is due. -/
theorem everyInputKeepsTheInvariant : Obligations.EveryInputKeepsTheInvariant := by
  intro i s h
  cases i with
  | reset => exact inv_hardReset s
  | resetAfter n =>
    refine h.congr ⟨rfl, rfl, rfl, rfl, rfl, rfl⟩ rfl rfl rfl rfl rfl fun hs => ?_
    simp [deliver, earlierReset, hs]
  | opWord w => exact h.congr ⟨rfl, rfl, rfl, rfl, rfl, rfl⟩ rfl rfl rfl rfl rfl id
  | pixel p => exact h.congr ⟨rfl, rfl, rfl, rfl, rfl, rfl⟩ rfl rfl rfl rfl rfl id
  | byte b => exact h.congr ⟨rfl, rfl, rfl, rfl, rfl, rfl⟩ rfl rfl rfl rfl rfl id
  | draw v => exact h.congr ⟨rfl, rfl, rfl, rfl, rfl, rfl⟩ rfl rfl rfl rfl rfl id
  | busyPin level => exact h.congr ⟨rfl, rfl, rfl, rfl, rfl, rfl⟩ rfl rfl rfl rfl rfl id

end Sys2Proof.Machine

/-! What every step has in common (R66, R67, R74, R75, R98, R212), and a reset at any moment of it (R80, R250 to
R252). -/

namespace Sys2Proof.Machine

/-! ### Streams and flags only move forward (R23, R66, R67, R74) -/

/-- `t` comes after `s`: no parameter is written, input is taken from the front, what has been given stays given, and
no sticky flag is cleared. -/
structure Forward (s t : State) : Prop where
  params     : t.params = s.params
  opIn       : t.opIn <:+ s.opIn
  pixIn      : t.pixIn <:+ s.pixIn
  byteIn     : t.byteIn <:+ s.byteIn
  rngIn      : t.rngIn <:+ s.rngIn
  busyIn     : t.busyIn <:+ s.busyIn
  res        : s.res <+: t.res
  pixOut     : s.pixOut <+: t.pixOut
  byteOut    : s.byteOut <+: t.byteOut
  trace      : s.trace <+: t.trace
  longwait   : s.longwait = true → t.longwait = true
  shortframe : s.shortframe = true → t.shortframe = true
  err        : ∀ k, s.err.getLsbD k = true → t.err.getLsbD k = true

theorem Forward.refl (s : State) : Forward s s :=
  ⟨rfl, List.suffix_refl _, List.suffix_refl _, List.suffix_refl _, List.suffix_refl _, List.suffix_refl _,
    List.prefix_refl _, List.prefix_refl _, List.prefix_refl _, List.prefix_refl _, id, id, fun _ => id⟩

theorem Forward.trans {s u t : State} (h : Forward s u) (k : Forward u t) : Forward s t :=
  ⟨k.params.trans h.params, k.opIn.trans h.opIn, k.pixIn.trans h.pixIn, k.byteIn.trans h.byteIn,
    k.rngIn.trans h.rngIn, k.busyIn.trans h.busyIn, h.res.trans k.res, h.pixOut.trans k.pixOut,
    h.byteOut.trans k.byteOut, h.trace.trans k.trace, k.longwait ∘ h.longwait, k.shortframe ∘ h.shortframe,
    fun i => k.err i ∘ h.err i⟩

theorem Onward.forward {s t : State} (h : Onward s t) : Forward s t :=
  { h with
    opIn := h.opIn ▸ List.suffix_refl _
    res := h.res ▸ List.prefix_refl _
    err := fun k hk => by rw [h.err]; exact hk }

theorem forward_complete (v : Word) (s : State) : Forward s (complete v s) :=
  { Forward.refl s with res := List.prefix_append _ _ }

theorem forward_raise (c : ErrCode) (s : State) : Forward s (raise c s) :=
  { Forward.refl s with
    res := List.prefix_append _ _
    err := fun k hk => by simp [setErr, hk] }

theorem forward_takeWord (w : Word) (s : State) : Forward s (takeWord w s) :=
  { Forward.refl s with opIn := List.drop_suffix _ _ }

theorem Stops.forward {a : Action} (h : Stops a) (s : State) : Forward s (a s) := by
  cases h with
  | complete v => exact forward_complete v s
  | raise c => exact forward_raise c s
  | stand r => exact (goesOn_onward (.stand r) s).1.forward

theorem GoesOn.forward {a : Action} (h : GoesOn a) (s : State) : Forward s (a s) := (goesOn_onward h s).1.forward

theorem forward_perform {as : List Action} (h : ∀ a ∈ as, ∀ u, Forward u (a u)) (s : State) :
    Forward s (perform as s) := by
  induction as generalizing s with
  | nil => exact Forward.refl s
  | cons a as ih =>
    exact (h a List.mem_cons_self s).trans (ih (fun x hx => h x (List.mem_cons_of_mem a hx)) (a s))

/-! ### The actions of a step -/

/-- The actions that a step is made of: those of operations, and the taking of a word. -/
inductive StepAction : Action → Prop where
  | goesOn {a : Action} (h : GoesOn a) : StepAction a
  | stops {a : Action} (h : Stops a) : StepAction a
  | takeWord (w : Word) : StepAction (takeWord w)
  | wait : StepAction id

theorem Planned.cases_mem {as : List Action} (h : Planned as) : ∀ a ∈ as, GoesOn a ∨ Stops a := by
  obtain ⟨before, last, rfl, hbefore, hlast⟩ := h
  exact List.forall_mem_append.mpr
    ⟨fun a ha => .inl (hbefore a ha), List.forall_mem_singleton.mpr (.inr hlast)⟩

theorem Planned.stepAction {as : List Action} (h : Planned as) : ∀ a ∈ as, StepAction a :=
  fun a ha => (h.cases_mem a ha).elim .goesOn .stops

theorem planStep_stepAction {s : State} {as : List Action} (h : planStep s = .ok as) : ∀ a ∈ as, StepAction a := by
  rcases planStep_cases h with ⟨_, pl⟩ | ⟨_, _, rfl⟩ | ⟨w, _, bs, _, _, rfl, pl⟩
  · exact pl.stepAction
  · exact List.forall_mem_singleton.mpr .wait
  · exact List.forall_mem_cons.mpr ⟨.takeWord w, pl.stepAction⟩

theorem StepAction.forward {a : Action} (h : StepAction a) (s : State) : Forward s (a s) := by
  cases h with
  | goesOn h => exact h.forward s
  | stops h => exact h.forward s
  | takeWord w => exact forward_takeWord w s
  | wait => exact Forward.refl s

/-- An action shows the panel at most one event. -/
theorem StepAction.trace_cases {a : Action} (h : StepAction a) (s : State) :
    (a s).trace = s.trace ∨ ∃ e, (a s).trace = s.trace ++ [e] := by
  cases h with
  | goesOn h => exact (goesOn_onward h s).2
  | stops h => cases h <;> exact .inl rfl
  | takeWord w => exact .inl rfl
  | wait => exact .inl rfl

/-- With no reset on its way a step that answers a next state carries out its whole plan. -/
theorem step_eq_perform {s t : State} (hs : s.resetIn = none) (h : step s = .next t) :
    ∃ as, planStep s = .ok as ∧ t = perform as s := by
  rw [step_eq_carryOut hs] at h
  cases hp : planStep s with
  | error f => rw [hp] at h; cases h
  | ok as => rw [hp] at h; cases h; exact ⟨as, rfl, rfl⟩

/-- Every step but the reset itself carries out a beginning of its plan, which may be the whole plan. -/
theorem step_is_beginning {s t : State} (hs : s.resetIn ≠ some 0) (h : step s = .next t) :
    ∃ as n m, planStep s = .ok as ∧ t = { perform (as.take n) s with resetIn := m } := by
  cases hn : s.resetIn with
  | none =>
    obtain ⟨as, hp, rfl⟩ := step_eq_perform hn h
    refine ⟨as, as.length, none, hp, ?_⟩
    rw [List.take_length, ← perform_resetIn (planStep_blind hp), ← hn]
  | some n =>
    rcases step_reset_cases hn h with ⟨rfl, -⟩ | ⟨-, as, hp, ht⟩
    · exact absurd hn hs
    · exact ⟨as, n, _, hp, ht⟩

/-- A beginning of a step comes after its start and before its end. -/
theorem cut_forward {s : State} {as : List Action} (h : planStep s = .ok as) (n : Nat) :
    Forward s (perform (as.take n) s) ∧ Forward (perform (as.take n) s) (perform as s) := by
  have hall := fun a ha => (planStep_stepAction h a ha).forward
  refine ⟨forward_perform (fun a ha => hall a (List.mem_of_mem_take ha)) s, ?_⟩
  have hrest := forward_perform (as := as.drop n) (fun a ha => hall a (List.mem_of_mem_drop ha))
    (perform (as.take n) s)
  rwa [← perform_append, List.take_append_drop] at hrest

theorem step_forward {s t : State} (hs : s.resetIn ≠ some 0) (h : step s = .next t) : Forward s t := by
  obtain ⟨as, n, m, hp, rfl⟩ := step_is_beginning hs h
  exact { (cut_forward hp n).1 with }

/-- Settles O49: a step comes after the state it starts from. -/
theorem stickyFlagsStaySet : Obligations.StickyFlagsStaySet := by
  intro s t hs h
  have f := step_forward hs h
  exact ⟨f.longwait, f.shortframe, f.err⟩

/-- Settles O51: a step comes after the state it starts from. -/
theorem streamsMoveForwardOnly : Obligations.StreamsMoveForwardOnly := by
  intro s t hs h
  have f := step_forward hs h
  exact ⟨f.opIn, f.pixIn, f.byteIn, f.rngIn, f.busyIn, f.res, f.pixOut, f.byteOut, f.trace⟩

theorem step_of_reset_due {s : State} (hs : s.resetIn = some 0) : step s = .next (hardReset s) := by
  simp only [step, hs]

/-- Settles O53: no action writes the parameters, reset keeps them, and no move of the outside reaches them. -/
theorem parametersNeverChange : Obligations.ParametersNeverChange := by
  refine ⟨fun s t h => ?_, fun i s => by cases i <;> rfl⟩
  by_cases hs : s.resetIn = some 0
  · rw [step_of_reset_due hs] at h
    cases h
    rfl
  · exact (step_forward hs h).params

/-- No action of an operation takes a word. -/
theorem perform_opIn {as : List Action} (h : ∀ a ∈ as, GoesOn a ∨ Stops a) (s : State) :
    (perform as s).opIn = s.opIn := by
  induction as generalizing s with
  | nil => rfl
  | cons a as ih =>
    obtain ⟨ha, has⟩ := List.forall_mem_cons.mp h
    rw [perform_cons, ih has]
    rcases ha with ha | ha
    · exact (goesOn_onward ha s).1.opIn
    · cases ha <;> rfl

/-- Settles O7: a step of an operation in flight carries out actions of that operation only. -/
theorem noWordIsTakenWhileAnOperationRuns : Obligations.NoWordIsTakenWhileAnOperationRuns := by
  intro s t r hs hr h
  obtain ⟨as, n, m, hp, rfl⟩ := step_is_beginning hs h
  rw [planStep, hr] at hp
  exact perform_opIn (fun a ha => (planned_resume hp).cases_mem a (List.mem_of_mem_take ha)) s

/-- A whole plan ends the operation with one result, or leaves it waiting without one. -/
theorem Planned.ends {as : List Action} (h : Planned as) (s : State) :
    ((perform as s).running = none ∧ ∃ r, (perform as s).res = s.res ++ [r]) ∨
      ((perform as s).running ≠ none ∧ (perform as s).res = s.res) := by
  obtain ⟨before, last, rfl, hbefore, hlast⟩ := h
  have hres := (perform_onward hbefore s).res
  rw [perform_append, ← hres]
  cases hlast with
  | complete v => exact .inl ⟨rfl, _, rfl⟩
  | raise c => exact .inl ⟨rfl, _, rfl⟩
  | stand r => exact .inr ⟨Option.some_ne_none r, rfl⟩

/-- Settles O8: the step is a whole plan, with the word taken before it or not. -/
theorem oneResultExactlyWhenTheOperationEnds : Obligations.OneResultExactlyWhenTheOperationEnds := by
  intro s t hs hbusy h
  obtain ⟨as, hp, rfl⟩ := step_eq_perform hs h
  rcases planStep_cases hp with ⟨-, pl⟩ | ⟨hr, ho, -⟩ | ⟨w, _, bs, -, -, rfl, pl⟩
  · exact pl.ends s
  · exact absurd hbusy (by simp [hr, ho])
  · exact pl.ends (takeWord w s)

/-! ### Reset inside a step (R80, R251) -/

/-- A step that is cut has its operation in flight and no result. -/
theorem cut_running_res {s : State} {as : List Action} (h : planStep s = .ok as) {n : Nat} (hn : 0 < n)
    (hcut : n < as.length) : (perform (as.take n) s).running ≠ none ∧ (perform (as.take n) s).res = s.res := by
  obtain ⟨n, rfl⟩ : ∃ m, n = m + 1 := ⟨n - 1, by omega⟩
  rcases planStep_cases h with ⟨hr, pl⟩ | ⟨-, -, rfl⟩ | ⟨w, _, bs, -, -, rfl, pl⟩
  · have o := perform_onward (pl.take hcut) s
    exact ⟨o.running hr, o.res⟩
  · simp at hcut
  · have o := perform_onward (pl.take (Nat.lt_of_succ_lt_succ hcut)) (takeWord w s)
    exact ⟨o.running (Option.some_ne_none _), o.res⟩

/-- The first action of a step shows the panel nothing. -/
theorem planStep_head_silent {s : State} {as : List Action} (h : planStep s = .ok as) :
    ∃ a bs, as = a :: bs ∧ (a s).trace = s.trace := by
  unfold planStep at h
  split at h
  next r hr =>
    cases r
    case sendChunk len taken =>
      simp only [planResume, sendChunkFrom] at h
      split at h
      · cases h; exact ⟨_, _, rfl, rfl⟩
      · cases hc : sendChunk (payload len taken s.byteIn) s <;> rw [hc] at h <;> cases h
        exact ⟨_, _, rfl, rfl⟩
    case init useq k => cases h; cases useq <;> exact ⟨stand _, _, rfl, rfl⟩
    case endFrame useq k => cases h; cases useq <;> exact ⟨stand _, _, rfl, rfl⟩
    all_goals cases h; exact ⟨_, _, rfl, rfl⟩
  next =>
    split at h
    · cases h; exact ⟨_, _, rfl, rfl⟩
    · cases hp : planWord _ _ <;> rw [hp] at h <;> cases h
      exact ⟨_, _, rfl, rfl⟩

/-- Where each action shows at most one event, every beginning of the events is what some beginning of the actions
shows. -/
theorem exists_take_trace_eq {as : List Action} (h : ∀ a ∈ as, ∀ u, Forward u (a u))
    (hone : ∀ a ∈ as, ∀ u : State, (a u).trace = u.trace ∨ ∃ e, (a u).trace = u.trace ++ [e]) {shown : List Event} :
    ∀ {s : State}, s.trace <+: shown → shown <+: (perform as s).trace →
      ∃ n, (perform (as.take n) s).trace = shown := by
  induction as with
  | nil => exact fun hlow hhigh => ⟨0, hlow.eq_of_length (Nat.le_antisymm hlow.length_le hhigh.length_le)⟩
  | cons a as ih =>
    intro s hlow hhigh
    by_cases heq : s.trace = shown
    · exact ⟨0, heq⟩
    obtain ⟨-, has⟩ := List.forall_mem_cons.mp h
    obtain ⟨ha, hones⟩ := List.forall_mem_cons.mp hone
    have hstep : (a s).trace <+: shown := by
      rcases ha s with e | ⟨e, he⟩
      · rwa [e]
      · have hwhole : (a s).trace <+: (perform (a :: as) s).trace := (forward_perform has (a s)).trace
        refine List.prefix_of_prefix_length_le hwhole hhigh ?_
        have hlt : s.trace.length ≠ shown.length := fun hlen => heq (hlow.eq_of_length hlen)
        have hle := hlow.length_le
        rw [he, List.length_append, List.length_singleton]
        omega
    obtain ⟨n, hn⟩ := ih has hones hstep hhigh
    exact ⟨n + 1, hn⟩

/-- Every beginning of a step's panel events is what the step shows when it is cut after some action. -/
theorem exists_cut_trace_eq {s : State} {as : List Action} (h : planStep s = .ok as) {shown : List Event}
    (hlow : s.trace <+: shown) (hhigh : shown <+: (perform as s).trace) :
    ∃ n, 0 < n ∧ (perform (as.take n) s).trace = shown := by
  have hall := planStep_stepAction h
  obtain ⟨a, bs, rfl, hsilent⟩ := planStep_head_silent h
  have hbs := fun x hx => hall x (List.mem_cons_of_mem a hx)
  obtain ⟨n, hn⟩ := exists_take_trace_eq (fun x hx => (hbs x hx).forward) (fun x hx => (hbs x hx).trace_cases)
    (s := a s) (hsilent ▸ hlow) hhigh
  exact ⟨n + 1, Nat.succ_pos n, hn⟩

/-- Settles O56: reset writes every field but the parameters; and a step with a reset on its way carries out that many
actions of the whole step. -/
theorem resetDiscardsEverything : Obligations.ResetDiscardsEverything := by
  refine ⟨fun s => ⟨rfl, rfl, rfl, rfl, rfl, rfl, rfl, rfl, statusReg_reset⟩, fun s n => ⟨fun hs => ?_, fun m hs => ?_⟩,
    fun s => step_of_reset_due, fun s t hs h => ?_⟩
  · simp [deliver, earlierReset, hs]
  · simp [deliver, earlierReset, hs]
  obtain ⟨as, hp, rfl⟩ := step_eq_perform hs h
  refine ⟨as.length, fun n hlen hn => ?_, fun n hn hcut => ?_, fun shown hlow hhigh => ?_⟩
  · rw [step_until_reset hp hn, List.take_of_length_le hlen]
  · obtain ⟨hr, hres⟩ := cut_running_res hp hn hcut
    obtain ⟨before, after⟩ := cut_forward hp n
    exact ⟨_, step_until_reset hp hn, congrArg some (by omega), hr, hres, before.trace, after.trace, before.pixOut,
      after.pixOut, before.byteOut, after.byteOut⟩
  · obtain ⟨n, hn, htrace⟩ := exists_cut_trace_eq hp hlow hhigh
    exact ⟨n, _, hn, step_until_reset hp hn, htrace⟩

end Sys2Proof.Machine

/-! How an operation ends, when it starts and when it goes on: which failures it can report (R221, R222), with what
value (R98), and what else of the state a failure has touched (R224, R225). -/

namespace Sys2Proof.Machine

/-! ### The first cause (R222) -/

theorem exec_of_firstCause {i : Instr} {s : State} {c : ErrCode} (h : firstCause i s = some c) :
    exec i s = .next (raise c s) := by
  rw [exec_eq_carryOut]
  cases planOf_checked i s with
  | fails c' cause plan =>
    cases h.symm.trans cause
    rw [plan]; rfl
  | passes cause _ => cases h.symm.trans cause

/-- An operation that starts fails with the first cause, or is one of those that have passed their checks. -/
theorem exec_cases {i : Instr} {s t : State} (h : exec i s = .next t) :
    (∃ c, firstCause i s = some c ∧ t = raise c s) ∨
      (firstCause i s = none ∧ ∃ p, Accepted s i p ∧ carryOut p s = .next t) := by
  rw [exec_eq_carryOut] at h
  cases planOf_checked i s with
  | fails c cause plan => rw [plan] at h; cases h; exact .inl ⟨c, cause, rfl⟩
  | passes cause plan => exact .inr ⟨cause, _, plan, h⟩

theorem causeApplies_of_firstCause {i : Instr} {s : State} {c : ErrCode} (h : firstCause i s = some c) :
    causeApplies i s c = true := List.find?_some h

theorem not_causeApplies_of_firstCause {i : Instr} {s : State} (h : firstCause i s = none) {c : ErrCode}
    (hc : c ∈ checkOrder) : causeApplies i s c = false :=
  Bool.eq_false_iff.mpr (List.find?_eq_none.mp h c hc)

/-- Colours are data: they are in none of the checks. -/
theorem firstCause_ne_invalidColor {i : Instr} {s : State} : firstCause i s ≠ some .invalidColor :=
  fun h => absurd (List.mem_of_find?_eq_some h) (by decide)

/-! ### How an operation that has passed its checks ends -/

/-- From `s` to `t` an operation has not ended; or it has ended `OK` with the value `v`; or it has ended `InvalidColor`,
in the way that `spoilt` says. -/
inductive Concludes (s t : State) (v : Word) (spoilt : Prop) : Prop where
  | waits (res : t.res = s.res)
  | ok (res : t.res = s.res ++ [⟨.ok, v⟩])
  | invalidColor (how : spoilt) (res : t.res = s.res ++ [⟨.err .invalidColor, 0#32⟩])

theorem Concludes.imp {s t : State} {v : Word} {p q : Prop} (h : Concludes s t v p) (hpq : p → q) :
    Concludes s t v q := by
  cases h with
  | waits res => exact .waits res
  | ok res => exact .ok res
  | invalidColor how res => exact .invalidColor (hpq how) res

theorem result_inj {res res' : List Result} {r r' : Result} (h : res' = res ++ [r]) (h' : res' = res ++ [r']) :
    r = r' := by
  rw [h] at h'
  exact List.singleton_inj.mp (List.append_cancel_left h')

theorem no_result {res res' : List Result} {r : Result} (h : res' = res) (h' : res' = res ++ [r]) : False := by
  rw [h] at h'
  exact List.cons_ne_nil r [] (List.self_eq_append_right.mp h')

theorem Concludes.of_failure {s t : State} {v w : Word} {c : ErrCode} {p : Prop} (h : Concludes s t v p)
    (hres : t.res = s.res ++ [⟨.err c, w⟩]) : c = .invalidColor ∧ p := by
  cases h with
  | waits res => exact (no_result res hres).elim
  | ok res => cases result_inj hres res
  | invalidColor how res => cases result_inj hres res; exact ⟨rfl, how⟩

theorem Concludes.value {s t : State} {v : Word} {r : Result} {p : Prop} (h : Concludes s t v p)
    (hres : t.res = s.res ++ [r]) (hv : v = 0#32 ∨ r.status ≠ .ok) : r.value = 0#32 := by
  cases h with
  | waits res => exact (no_result res hres).elim
  | ok res => cases result_inj hres res; exact hv.resolve_right (not_not.mpr rfl)
  | invalidColor _ res => cases result_inj hres res; rfl

/-- `PACK` has found a pixel that is no Color. -/
def SpoiltPixels (n : Nat) (taken : List Pixel) (s t : State) : Prop :=
  n ≤ (payload n taken s.pixIn).length ∧
    t = raise .invalidColor { s with pixIn := s.pixIn.drop (missing n taken) }

/-- `UNPACK` has found a byte that is not valid. -/
def SpoiltBytes (m : Nat) (taken : List Byte) (s t : State) : Prop :=
  m ≤ (payload m taken s.byteIn).length ∧
    t = raise .invalidColor { s with byteIn := s.byteIn.drop (missing m taken) }

/-- `SEND_CHUNK` has found a byte that is not valid, after it has loaded the chunk into `buf`. -/
def SpoiltChunk (len : Nat) (taken : List Byte) (s t : State) : Prop :=
  len ≤ (payload len taken s.byteIn).length ∧
    t = raise .invalidColor { s with byteIn := s.byteIn.drop (missing len taken),
                                     buf := Memory.writeAll 0 (payload len taken s.byteIn) s.buf }

theorem concludes_packFrom (n : Nat) (taken : List Pixel) (s : State) :
    Concludes s (perform (packFrom n taken s) s) 0#32 (SpoiltPixels n taken s (perform (packFrom n taken s) s)) := by
  obtain ⟨p, rest, rfl, rfl, ⟨-, e⟩ | ⟨-, -, e⟩ | ⟨hn, -, e⟩⟩ := packFrom_cases n taken s <;> rw [e]
  · exact .waits rfl
  · exact .ok rfl
  · exact .invalidColor ⟨hn, rfl⟩ rfl

theorem concludes_unpackFrom (m : Nat) (taken : List Byte) (s : State) : Concludes s
    (perform (unpackFrom m taken s) s) 0#32 (SpoiltBytes m taken s (perform (unpackFrom m taken s) s)) := by
  obtain ⟨b, rest, rfl, rfl, ⟨-, e⟩ | ⟨-, -, e⟩ | ⟨hm, -, e⟩⟩ := unpackFrom_cases m taken s <;> rw [e]
  · exact .waits rfl
  · exact .ok rfl
  · exact .invalidColor ⟨hm, rfl⟩ rfl

theorem concludes_sendChunkFrom {len : Nat} {taken : List Byte} {s t : State}
    (ht : carryOut (sendChunkFrom len taken s) s = .next t) : Concludes s t 0#32 (SpoiltChunk len taken s t) := by
  obtain ⟨v, rest, rfl, rfl, ⟨-, e⟩ | ⟨-, -, -, e⟩ | ⟨hl, -, -, e⟩ | ⟨-, -, e⟩⟩ := sendChunkFrom_cases len taken s <;>
    rw [e] at ht <;> cases ht
  · exact .waits rfl
  · exact .ok rfl
  · exact .invalidColor ⟨hl, rfl⟩ rfl

theorem concludes_scatterFrom (taken : List Nat) (s : State) :
    Concludes s (perform (scatterFrom taken s) s) 0#32 False := by
  obtain ⟨d, rest, -, -, ⟨-, e⟩ | ⟨-, e⟩⟩ := scatterFrom_cases taken s <;> rw [e]
  · exact .waits rfl
  · exact .ok rfl

theorem SequencerFrame.concludes {s t : State} (h : SequencerFrame s t) : Concludes s t 0#32 False := by
  rcases h.ending with ⟨-, hres⟩ | ⟨_, -, hres⟩
  · exact .ok hres
  · exact .waits hres

/-- The ways in which the step that starts an operation can end `InvalidColor`. -/
def SpoiltStart (i : Instr) (s t : State) : Prop :=
  (∃ n, i = .pack n ∧ SpoiltPixels n [] s t) ∨ (∃ m, i = .unpack m ∧ SpoiltBytes m [] s t) ∨
    ∃ l, i = .sendChunk l ∧ SpoiltChunk l [] s t

theorem Accepted.concludes {i : Instr} {s t : State} {p : Plan} (acc : Accepted s i p)
    (ht : carryOut p s = .next t) :
    ∃ v, ((∀ r, i ≠ .rdReg r) → v = 0#32) ∧ Concludes s t v (SpoiltStart i s t) := by
  cases acc
  case nop => cases ht; exact ⟨_, fun _ => rfl, .ok rfl⟩
  case rdReg r v register => cases ht; exact ⟨v, fun h => absurd rfl (h r), .ok rfl⟩
  case pack n _ _ => cases ht; exact ⟨_, fun _ => rfl, (concludes_packFrom n [] s).imp fun h => .inl ⟨n, rfl, h⟩⟩
  case unpack m _ =>
    cases ht; exact ⟨_, fun _ => rfl, (concludes_unpackFrom m [] s).imp fun h => .inr (.inl ⟨m, rfl, h⟩)⟩
  case init =>
    cases ht; exact ⟨_, fun _ => rfl, (initI0_frame s.params s.busyIn s rfl).1.concludes.imp False.elim⟩
  case beginFrame =>
    cases ht
    rw [perform_append, perform_panelCmd]
    exact ⟨_, fun _ => rfl, .ok rfl⟩
  case sendChunk l _ _ _ =>
    exact ⟨_, fun _ => rfl, (concludes_sendChunkFrom ht).imp fun h => .inr (.inr ⟨l, rfl, h⟩)⟩
  case endFrame =>
    cases ht
    have frame := endE0_frame s.params s.busyIn (markShortFrame s) rfl
    exact ⟨_, fun _ => rfl, by rcases frame.concludes with h | h | h; exacts [.waits h, .ok h, h.elim]⟩
  case turnOff => cases ht; exact ⟨_, fun _ => rfl, .ok rfl⟩
  case genScatter => cases ht; exact ⟨_, fun _ => rfl, (concludes_scatterFrom [] s).imp False.elim⟩
  case genChunk =>
    cases ht
    rw [perform_append, perform_givePixel]
    exact ⟨_, fun _ => rfl, .ok rfl⟩
  case genSend p _ _ _ _ _ _ =>
    rcases sendGenerated_cases (packSeq p) s with ⟨-, e⟩ | ⟨-, e⟩ <;> rw [e] at ht <;> cases ht
    exact ⟨_, fun _ => rfl, .ok rfl⟩
  case noPixels => cases ht

/-- The ways in which a step that goes on with the operation `r` can end `InvalidColor`. -/
def SpoiltResume (r : Running) (s t : State) : Prop :=
  (∃ n p, r = .pack n p ∧ SpoiltPixels n p s t) ∨ (∃ m b, r = .unpack m b ∧ SpoiltBytes m b s t) ∨
    ∃ l b, r = .sendChunk l b ∧ SpoiltChunk l b s t

/-- An operation that goes on makes no checks again (log 11), so colours are all it can fail of. -/
theorem planResume_concludes {r : Running} {s t : State} (ht : carryOut (planResume r s) s = .next t) :
    Concludes s t 0#32 (SpoiltResume r s t) := by
  cases r
  case begun => cases ht; exact .waits rfl
  case pack n p => cases ht; exact (concludes_packFrom n p s).imp fun h => .inl ⟨n, p, rfl, h⟩
  case unpack m b => cases ht; exact (concludes_unpackFrom m b s).imp fun h => .inr (.inl ⟨m, b, rfl, h⟩)
  case sendChunk l b => exact (concludes_sendChunkFrom ht).imp fun h => .inr (.inr ⟨l, b, rfl, h⟩)
  case genScatter d => cases ht; exact (concludes_scatterFrom d s).imp False.elim
  case init useq k => cases ht; exact (initFrom_frame useq k s).concludes.imp False.elim
  case endFrame useq k =>
    cases ht
    by_cases hu : useq = .e0
    · subst hu
      rcases (endE0_frame s.params s.busyIn s rfl).concludes with h | h | h
      exacts [.waits h, .ok h, h.elim]
    · exact (endFrameFrom_frame k s hu).concludes.imp False.elim

/-! ### Failures (R98, R221, R222, R224, R225) -/

/-- Settles O45: with no cause present the operation is one of those that have passed their checks. -/
theorem firstCauseInOrderIsReported : Obligations.FirstCauseInOrderIsReported := by
  refine fun i s => ⟨fun c => exec_of_firstCause, fun hnone t c v h hres => ?_⟩
  rcases exec_cases h with ⟨c', hc', -⟩ | ⟨-, p, acc, ht⟩
  · cases hnone.symm.trans hc'
  · obtain ⟨_, -, ends⟩ := acc.concludes ht
    exact (ends.of_failure hres).1

/-- A cause that can be present is one that the table of rule R221 allows the operation. -/
theorem canEndWith_of_causeApplies {i : Instr} {s : State} {c : ErrCode} (h : causeApplies i s c = true) :
    canEndWith i c = true := by
  revert h
  cases i <;> cases c <;> simp [causeApplies, stateAllows, canEndWith]

theorem SpoiltStart.canEndWith {i : Instr} {s t : State} (h : SpoiltStart i s t) :
    canEndWith i .invalidColor = true := by
  obtain ⟨n, rfl, -⟩ | ⟨m, rfl, -⟩ | ⟨l, rfl, -⟩ := h <;> rfl

/-- Settles O46: a failure is a cause that was present, or the input was spoilt. -/
theorem failuresAreThoseOfTheTable : Obligations.FailuresAreThoseOfTheTable := by
  intro i s t c v h hres
  rcases exec_cases h with ⟨c', hc', rfl⟩ | ⟨-, p, acc, ht⟩
  · cases result_inj hres rfl
    exact canEndWith_of_causeApplies (causeApplies_of_firstCause hc')
  · obtain ⟨_, -, ends⟩ := acc.concludes ht
    obtain ⟨rfl, how⟩ := ends.of_failure hres
    exact how.canEndWith

/-- Settles O9: a failure puts the value 0, and so does every operation that has passed its checks but `RD_REG`. -/
theorem onlyRdRegReturnsAValue : Obligations.OnlyRdRegReturnsAValue := by
  refine ⟨fun i s t r h hres hr => ?_, fun s t q r hq h hres => ?_⟩
  · rcases exec_cases h with ⟨c, -, rfl⟩ | ⟨-, p, acc, ht⟩
    · cases result_inj hres rfl; rfl
    · obtain ⟨v, hv, ends⟩ := acc.concludes ht
      exact ends.value hres (hr.imp_left hv)
  · have hs : s.resetIn ≠ some 0 := by
      intro hs
      rw [step_of_reset_due hs] at h
      cases h
      exact List.append_ne_nil_of_right_ne_nil _ (List.cons_ne_nil r []) hres.symm
    obtain ⟨as, n, m, hp, rfl⟩ := step_is_beginning hs h
    have hplan : planResume q s = .ok as := by rw [← hp, planStep, hq]
    by_cases hn : n < as.length
    · cases n with
      | zero => exact (no_result rfl hres).elim
      | succ n => exact (no_result (cut_running_res hp (Nat.succ_pos n) hn).2 hres).elim
    · rw [List.take_of_length_le (Nat.le_of_not_lt hn)] at hres
      have ends := planResume_concludes (t := perform as s) (by rw [hplan, carryOut_ok])
      exact ends.value hres (.inl rfl)

/-- An operation that starts needs its whole count from the stream. -/
theorem le_length_of_payload_nil {α : Type} {n : Nat} {stream : List α} (h : n ≤ (payload n [] stream).length) :
    n ≤ stream.length := by
  rw [payload_nil, List.length_take] at h
  exact h.trans (Nat.min_le_right _ _)

theorem SpoiltStart.precise {i : Instr} {s t : State} (h : SpoiltStart i s t) :
    (∃ n, i = .pack n ∧ n ≤ s.pixIn.length ∧ t = raise .invalidColor { s with pixIn := s.pixIn.drop n }) ∨
    (∃ m, i = .unpack m ∧ m ≤ s.byteIn.length ∧ t = raise .invalidColor { s with byteIn := s.byteIn.drop m }) ∨
    (∃ l, i = .sendChunk l ∧ l ≤ s.byteIn.length ∧ ∃ mem : Memory,
      (∀ a, Memory.read a mem = if a < l then (s.byteIn.take l)[a]? else Memory.read a s.buf) ∧
      t = raise .invalidColor { s with byteIn := s.byteIn.drop l, buf := mem }) := by
  obtain ⟨n, rfl, hn, rfl⟩ | ⟨m, rfl, hm, rfl⟩ | ⟨l, rfl, hl, rfl⟩ := h
  · exact .inl ⟨n, rfl, le_length_of_payload_nil hn, rfl⟩
  · exact .inr (.inl ⟨m, rfl, le_length_of_payload_nil hm, rfl⟩)
  · have hl := le_length_of_payload_nil hl
    refine .inr (.inr ⟨l, rfl, hl, _, fun a => ?_, rfl⟩)
    rw [read_writeAll_zero, payload_nil, List.length_take_of_le hl]

theorem SpoiltResume.precise {r : Running} {s t : State} (h : SpoiltResume r s t) :
    (∃ n p, r = .pack n p ∧ t = raise .invalidColor { s with pixIn := s.pixIn.drop (n - p.length) }) ∨
    (∃ m b, r = .unpack m b ∧ t = raise .invalidColor { s with byteIn := s.byteIn.drop (m - b.length) }) ∨
    (∃ l b, r = .sendChunk l b ∧ ∃ mem : Memory,
      (b.length ≤ l → ∀ a, Memory.read a mem =
        if a < l then (b ++ s.byteIn.take (l - b.length))[a]? else Memory.read a s.buf) ∧
      t = raise .invalidColor { s with byteIn := s.byteIn.drop (l - b.length), buf := mem }) := by
  obtain ⟨n, p, rfl, -, rfl⟩ | ⟨m, b, rfl, -, rfl⟩ | ⟨l, b, rfl, hl, rfl⟩ := h
  · exact .inl ⟨n, p, rfl, rfl⟩
  · exact .inr (.inl ⟨m, b, rfl, rfl⟩)
  · refine .inr (.inr ⟨l, b, rfl, _, fun hb a => ?_, rfl⟩)
    rw [read_writeAll_zero, Nat.le_antisymm (payload_length_le s.byteIn hb) hl]
    rfl

/-- Settles O47: a cause that is checked leaves `raise` of the state before; spoilt input leaves what the lemmas above
say. -/
theorem failuresArePrecise : Obligations.FailuresArePrecise := by
  refine ⟨fun i s t c v h hres => ?_, fun s t r c v hs hr h hres => ?_⟩
  · rcases exec_cases h with ⟨c', hc', rfl⟩ | ⟨-, p, acc, ht⟩
    · cases result_inj hres rfl
      exact ⟨fun _ => rfl, fun hc => absurd (hc ▸ hc') firstCause_ne_invalidColor⟩
    · obtain ⟨_, -, ends⟩ := acc.concludes ht
      obtain ⟨rfl, how⟩ := ends.of_failure hres
      exact ⟨fun hc => absurd rfl hc, fun _ => how.precise⟩
  · rw [step_running hs hr] at h
    obtain ⟨rfl, how⟩ := (planResume_concludes h).of_failure hres
    exact ⟨rfl, how.precise⟩

/-- Settles O44: the flag of the code `k` is the bit `k - 1`. -/
theorem raiseDoesExactlyThis : Obligations.RaiseDoesExactlyThis := by
  have hbit : ∀ c, errBit c = 1#9 <<< (errNumber c - 1) := by intro c; cases c <;> rfl
  have hcode : ∀ c, (statusCode (.err c)).toNat = errNumber c := by intro c; cases c <;> rfl
  refine ⟨fun c s => ⟨?_, hcode c⟩, rfl, rfl, rfl, rfl, rfl, rfl, rfl, rfl, rfl, rfl⟩
  rw [raise, setErr, hbit]

end Sys2Proof.Machine

/-! What the operations of one unit leave alone (R20, R33, R35), the state machine of the sequencer (R140), and the
`STATUS` register (R39). -/

namespace Sys2Proof.Machine

/-! ### Frames by unit -/

/-- The sequencer's state, the panel port and `buf` are as they were. -/
structure KeepsSequencer (s t : State) : Prop where
  seqState   : t.seqState = s.seqState
  pwrEn      : t.pwrEn = s.pwrEn
  rst        : t.rst = s.rst
  bytesSent  : t.bytesSent = s.bytesSent
  bufLive    : t.bufLive = s.bufLive
  longwait   : t.longwait = s.longwait
  shortframe : t.shortframe = s.shortframe
  trace      : t.trace = s.trace
  busyIn     : t.busyIn = s.busyIn
  buf        : t.buf = s.buf

/-- The generator's state and its draws are as they were. -/
structure KeepsGenerator (s t : State) : Prop where
  nodes      : t.nodes = s.nodes
  nodesValid : t.nodesValid = s.nodesValid
  genCursor  : t.genCursor = s.genCursor
  rngIn      : t.rngIn = s.rngIn

/-- The pixel and byte streams and `buf` are as they were. -/
structure KeepsStreams (s t : State) : Prop where
  pixIn   : t.pixIn = s.pixIn
  byteIn  : t.byteIn = s.byteIn
  pixOut  : t.pixOut = s.pixOut
  byteOut : t.byteOut = s.byteOut
  buf     : t.buf = s.buf

theorem raise_keeps (c : ErrCode) (s : State) :
    KeepsSequencer s (raise c s) ∧ KeepsGenerator s (raise c s) ∧ KeepsStreams s (raise c s) :=
  ⟨⟨rfl, rfl, rfl, rfl, rfl, rfl, rfl, rfl, rfl, rfl⟩, ⟨rfl, rfl, rfl, rfl⟩, ⟨rfl, rfl, rfl, rfl, rfl⟩⟩

theorem complete_keeps (v : Word) (s : State) :
    KeepsSequencer s (complete v s) ∧ KeepsGenerator s (complete v s) ∧ KeepsStreams s (complete v s) :=
  ⟨⟨rfl, rfl, rfl, rfl, rfl, rfl, rfl, rfl, rfl, rfl⟩, ⟨rfl, rfl, rfl, rfl⟩, ⟨rfl, rfl, rfl, rfl, rfl⟩⟩

theorem packFrom_keeps (n : Nat) (taken : List Pixel) (s : State) :
    KeepsSequencer s (perform (packFrom n taken s) s) ∧ KeepsGenerator s (perform (packFrom n taken s) s) := by
  obtain ⟨p, rest, -, -, ⟨-, e⟩ | ⟨-, -, e⟩ | ⟨-, -, e⟩⟩ := packFrom_cases n taken s <;> rw [e] <;>
    exact ⟨⟨rfl, rfl, rfl, rfl, rfl, rfl, rfl, rfl, rfl, rfl⟩, ⟨rfl, rfl, rfl, rfl⟩⟩

theorem unpackFrom_keeps (m : Nat) (taken : List Byte) (s : State) :
    KeepsSequencer s (perform (unpackFrom m taken s) s) ∧ KeepsGenerator s (perform (unpackFrom m taken s) s) := by
  obtain ⟨b, rest, -, -, ⟨-, e⟩ | ⟨-, -, e⟩ | ⟨-, -, e⟩⟩ := unpackFrom_cases m taken s <;> rw [e] <;>
    exact ⟨⟨rfl, rfl, rfl, rfl, rfl, rfl, rfl, rfl, rfl, rfl⟩, ⟨rfl, rfl, rfl, rfl⟩⟩

theorem scatterFrom_keeps (taken : List Nat) (s : State) : KeepsSequencer s (perform (scatterFrom taken s) s) := by
  obtain ⟨d, rest, -, -, ⟨-, e⟩ | ⟨-, e⟩⟩ := scatterFrom_cases taken s <;> rw [e] <;>
    exact ⟨rfl, rfl, rfl, rfl, rfl, rfl, rfl, rfl, rfl, rfl⟩

theorem sendChunkFrom_keeps {len : Nat} {taken : List Byte} {s t : State}
    (ht : carryOut (sendChunkFrom len taken s) s = .next t) :
    KeepsGenerator s t ∧ t.seqState = s.seqState ∧ t.pwrEn = s.pwrEn := by
  obtain ⟨v, rest, -, -, ⟨-, e⟩ | ⟨-, -, -, e⟩ | ⟨-, -, -, e⟩ | ⟨-, -, e⟩⟩ := sendChunkFrom_cases len taken s <;>
    rw [e] at ht <;> cases ht <;> exact ⟨⟨rfl, rfl, rfl, rfl⟩, rfl, rfl⟩

theorem SequencerFrame.keeps {s t : State} (h : SequencerFrame s t) : KeepsGenerator s t ∧ KeepsStreams s t :=
  ⟨⟨h.nodes, h.nodesValid, h.genCursor, h.rngIn⟩, ⟨h.pixIn, h.byteIn, h.pixOut, h.byteOut, h.buf⟩⟩

theorem initFrom_keeps (useq : InitStep) (k : Nat) (s : State) :
    KeepsGenerator s (perform (initFrom useq k s) s) ∧ KeepsStreams s (perform (initFrom useq k s) s) :=
  (initFrom_frame useq k s).keeps

theorem endE0_keeps (s : State) : KeepsGenerator s (perform (endE0 s.params s.busyIn) s) ∧
    KeepsStreams s (perform (endE0 s.params s.busyIn) s) := by
  obtain ⟨g, k⟩ := (endE0_frame s.params s.busyIn s rfl).keeps
  exact ⟨{ g with }, { k with }⟩

theorem endFrameFrom_keeps (useq : EndStep) (k : Nat) (s : State) :
    KeepsGenerator s (perform (endFrameFrom useq k s) s) ∧ KeepsStreams s (perform (endFrameFrom useq k s) s) := by
  by_cases hu : useq = .e0
  · subst hu; exact endE0_keeps s
  · exact (endFrameFrom_frame k s hu).keeps

/-- The operations that touch neither the panel port nor `buf`. -/
def sparesSequencer : Instr → Bool
  | .nop _ | .rdReg _ | .pack _ | .unpack _ | .genScatter _ | .genChunk _ => true
  | _ => false

/-- The operations that do not touch the generator. -/
def sparesGenerator : Instr → Bool
  | .genScatter _ | .genChunk _ | .genSend _ => false
  | _ => true

/-- The operations of the sequencer that carry no data. -/
def sparesStreams : Instr → Bool
  | .init _ | .beginFrame _ | .endFrame _ | .turnOff _ => true
  | _ => false

theorem exec_keepsSequencer {i : Instr} {s t : State} (hi : sparesSequencer i = true) (h : exec i s = .next t) :
    KeepsSequencer s t := by
  rcases exec_cases h with ⟨c, -, rfl⟩ | ⟨-, p, acc, ht⟩
  · exact (raise_keeps c s).1
  cases acc
  case nop => cases ht; exact (complete_keeps _ s).1
  case rdReg => cases ht; exact (complete_keeps _ s).1
  case pack => cases ht; exact (packFrom_keeps _ _ s).1
  case unpack => cases ht; exact (unpackFrom_keeps _ _ s).1
  case genScatter => cases ht; exact scatterFrom_keeps _ s
  case genChunk =>
    cases ht
    rw [perform_append, perform_givePixel]
    exact ⟨rfl, rfl, rfl, rfl, rfl, rfl, rfl, rfl, rfl, rfl⟩
  case noPixels => cases ht
  case init | beginFrame | sendChunk | endFrame | turnOff | genSend => cases hi

theorem exec_keepsGenerator {i : Instr} {s t : State} (hi : sparesGenerator i = true) (h : exec i s = .next t) :
    KeepsGenerator s t := by
  rcases exec_cases h with ⟨c, -, rfl⟩ | ⟨-, p, acc, ht⟩
  · exact (raise_keeps c s).2.1
  cases acc
  case nop => cases ht; exact (complete_keeps _ s).2.1
  case rdReg => cases ht; exact (complete_keeps _ s).2.1
  case pack => cases ht; exact (packFrom_keeps _ _ s).2
  case unpack => cases ht; exact (unpackFrom_keeps _ _ s).2
  case init => cases ht; exact (initFrom_keeps .i0 0 s).1
  case beginFrame => cases ht; rw [perform_append, perform_panelCmd]; exact ⟨rfl, rfl, rfl, rfl⟩
  case sendChunk => exact (sendChunkFrom_keeps ht).1
  case endFrame => cases ht; exact { (endE0_keeps (markShortFrame s)).1 with }
  case turnOff => cases ht; exact ⟨rfl, rfl, rfl, rfl⟩
  case noPixels => cases ht
  case genScatter | genChunk | genSend => cases hi

theorem exec_keepsStreams {i : Instr} {s t : State} (hi : sparesStreams i = true) (h : exec i s = .next t) :
    KeepsStreams s t := by
  rcases exec_cases h with ⟨c, -, rfl⟩ | ⟨-, p, acc, ht⟩
  · exact (raise_keeps c s).2.2
  cases acc
  case init => cases ht; exact (initFrom_keeps .i0 0 s).2
  case beginFrame => cases ht; rw [perform_append, perform_panelCmd]; exact ⟨rfl, rfl, rfl, rfl, rfl⟩
  case endFrame => cases ht; exact { (endE0_keeps (markShortFrame s)).2 with }
  case turnOff => cases ht; exact ⟨rfl, rfl, rfl, rfl, rfl⟩
  case noPixels => cases ht
  case nop | rdReg | pack | unpack | sendChunk | genScatter | genChunk | genSend => cases hi

theorem KeepsSequencer.fields {s t : State} (h : KeepsSequencer s t) :
    t.seqState = s.seqState ∧ t.pwrEn = s.pwrEn ∧ t.rst = s.rst ∧ t.bytesSent = s.bytesSent ∧
    t.bufLive = s.bufLive ∧ t.longwait = s.longwait ∧ t.shortframe = s.shortframe ∧
    t.trace = s.trace ∧ t.busyIn = s.busyIn ∧ ∀ a, Memory.read a t.buf = Memory.read a s.buf :=
  ⟨h.seqState, h.pwrEn, h.rst, h.bytesSent, h.bufLive, h.longwait, h.shortframe, h.trace, h.busyIn,
    fun a => congrArg (Memory.read a) h.buf⟩

theorem KeepsGenerator.fields {s t : State} (h : KeepsGenerator s t) :
    t.nodes = s.nodes ∧ t.nodesValid = s.nodesValid ∧ t.genCursor = s.genCursor ∧ t.rngIn = s.rngIn :=
  ⟨h.nodes, h.nodesValid, h.genCursor, h.rngIn⟩

theorem KeepsStreams.fields {s t : State} (h : KeepsStreams s t) :
    t.pixIn = s.pixIn ∧ t.byteIn = s.byteIn ∧ t.pixOut = s.pixOut ∧ t.byteOut = s.byteOut ∧
    ∀ a, Memory.read a t.buf = Memory.read a s.buf :=
  ⟨h.pixIn, h.byteIn, h.pixOut, h.byteOut, fun a => congrArg (Memory.read a) h.buf⟩

/-- What a step that goes on with the operation `r` carries out. -/
theorem planResume_of_step {s t : State} {r : Running} (hs : s.resetIn = none) (hr : s.running = some r)
    (h : step s = .next t) : carryOut (planResume r s) s = .next t := by
  rwa [step_running hs hr] at h

/-- Settles O50: the frames above, operation by operation. -/
theorem unitsKeepTheirStateToThemselves : Obligations.UnitsKeepTheirStateToThemselves := by
  refine ⟨fun s t h => KeepsSequencer.fields ?_, fun s t h => KeepsGenerator.fields ?_,
    fun s t h => KeepsStreams.fields ?_⟩
  · rcases h with ⟨i, h, c, r, n, m, hi⟩ | ⟨hs, h, n, p, m, b, d, hr⟩
    · refine exec_keepsSequencer ?_ h
      simp only [List.mem_cons, List.not_mem_nil, or_false] at hi
      rcases hi with rfl | rfl | rfl | rfl | rfl | rfl <;> rfl
    · simp only [List.mem_cons, List.not_mem_nil, or_false] at hr
      rcases hr with hr | hr | hr <;> cases planResume_of_step hs hr h
      · exact (packFrom_keeps n p s).1
      · exact (unpackFrom_keeps m b s).1
      · exact scatterFrom_keeps d s
  · rcases h with ⟨i, h, c, r, n, m, l, hi⟩ | ⟨hs, h, n, p, m, b, l, v, u, k, u', k', hr⟩
    · refine exec_keepsGenerator ?_ h
      simp only [List.mem_cons, List.not_mem_nil, or_false] at hi
      rcases hi with rfl | rfl | rfl | rfl | rfl | rfl | rfl | rfl | rfl <;> rfl
    · simp only [List.mem_cons, List.not_mem_nil, or_false] at hr
      rcases hr with hr | hr | hr | hr | hr <;> have ht := planResume_of_step hs hr h
      · cases ht; exact (packFrom_keeps n p s).2
      · cases ht; exact (unpackFrom_keeps m b s).2
      · exact (sendChunkFrom_keeps ht).1
      · cases ht; exact (initFrom_keeps u k s).1
      · cases ht; exact (endFrameFrom_keeps u' k' s).1
  · rcases h with ⟨i, h, c, hi⟩ | ⟨hs, h, u, k, u', k', hr⟩
    · refine exec_keepsStreams ?_ h
      simp only [List.mem_cons, List.not_mem_nil, or_false] at hi
      rcases hi with rfl | rfl | rfl | rfl <;> rfl
    · simp only [List.mem_cons, List.not_mem_nil, or_false] at hr
      rcases hr with hr | hr <;> cases planResume_of_step hs hr h
      · exact (initFrom_keeps u k s).2
      · exact (endFrameFrom_keeps u' k' s).2

/-! ### The state machine of the sequencer (R140) -/

/-- The operations that the state machine has transitions for. -/
def movesSequencer : Instr → Bool
  | .init _ | .beginFrame _ | .endFrame _ | .turnOff _ => true
  | _ => false

/-- Every other operation that has passed its checks stays in its state. -/
theorem Accepted.stays {i : Instr} {s t : State} {p : Plan} (acc : Accepted s i p) (hi : movesSequencer i = false)
    (ht : carryOut p s = .next t) : t.seqState = s.seqState ∧ t.pwrEn = s.pwrEn := by
  have of_keeps {u : State} (h : KeepsSequencer s u) : u.seqState = s.seqState ∧ u.pwrEn = s.pwrEn :=
    ⟨h.seqState, h.pwrEn⟩
  cases acc
  case nop => cases ht; exact ⟨rfl, rfl⟩
  case rdReg => cases ht; exact ⟨rfl, rfl⟩
  case pack => cases ht; exact of_keeps (packFrom_keeps _ _ s).1
  case unpack => cases ht; exact of_keeps (unpackFrom_keeps _ _ s).1
  case sendChunk => exact (sendChunkFrom_keeps ht).2
  case genScatter => cases ht; exact of_keeps (scatterFrom_keeps _ s)
  case genChunk => cases ht; rw [perform_append, perform_givePixel]; exact ⟨rfl, rfl⟩
  case genSend p _ _ _ _ _ _ =>
    rcases sendGenerated_cases (packSeq p) s with ⟨-, e⟩ | ⟨-, e⟩ <;> rw [e] at ht <;> cases ht
    exact ⟨rfl, rfl⟩
  case noPixels => cases ht
  case init | beginFrame | endFrame | turnOff => cases hi

theorem seqAfterOk_of_stays {i : Instr} (s : State) (hi : movesSequencer i = false) :
    seqAfterOk i s = s.seqState := by
  cases i <;> simp_all [movesSequencer, seqAfterOk]

theorem pwrAfterOk_of_stays {i : Instr} (s : State) (hi : movesSequencer i = false) : pwrAfterOk i s = s.pwrEn := by
  cases i <;> simp_all [movesSequencer, pwrAfterOk]

/-- A stretch of `INIT` that has put a result has ended `OK` in `Configured`. -/
theorem InitFrame.of_result {s t : State} {r : Result} (h : InitFrame s t) (hres : t.res = s.res ++ [r]) :
    r.status = .ok ∧ t.seqState = .configured := by
  rcases h.ending with ⟨hr, hok⟩ | ⟨_, hr, hnone⟩
  · rcases h.stands with ⟨-, hq⟩ | ⟨⟨k, hr'⟩, -⟩
    · exact ⟨by cases result_inj hres hok; rfl, hq⟩
    · cases hr.symm.trans hr'
  · exact (no_result hnone hres).elim

/-- A stretch of `END_FRAME` that has put a result has ended `OK` in `PoweredOff`. -/
theorem EndFrameFrame.of_result {s t : State} {r : Result} (h : EndFrameFrame s t) (hres : t.res = s.res ++ [r]) :
    r.status = .ok ∧ t.seqState = .poweredOff := by
  rcases h.ending with ⟨hr, hok⟩ | ⟨_, hr, hnone⟩
  · rcases h.stands with ⟨-, hq, -⟩ | ⟨⟨_, _, hr', -⟩, -⟩
    · exact ⟨by cases result_inj hres hok; rfl, hq⟩
    · cases hr.symm.trans hr'
  · exact (no_result hnone hres).elim

/-- What an `END_FRAME` that has passed its checks does. -/
theorem endFrame_frame {s t : State}
    (ht : carryOut (.ok (markShortFrame :: endE0 s.params s.busyIn)) s = .next t) :
    EndFrameFrame { markShortFrame s with seqState := .frameClosed } t := by
  cases ht
  exact endE0_frame s.params s.busyIn (markShortFrame s) rfl

/-- With no cause of failure present an operation is legal in its state, and `BEGIN_FRAME` has the panel powered. -/
theorem allowed_of_firstCause {i : Instr} {s : State} (h : firstCause i s = none) :
    stateAllows i s = true ∧ ((∃ c, i = .beginFrame c) → s.pwrEn = true) := by
  have state := not_causeApplies_of_firstCause h (c := .illegalState) (by decide)
  have power := not_causeApplies_of_firstCause h (c := .panelUnpowered) (by decide)
  refine ⟨?_, ?_⟩
  · cases i <;> simpa [causeApplies] using state
  · rintro ⟨c, rfl⟩
    simpa [causeApplies] using power

/-- An operation that has passed its checks and put a result: a transition of rule R140, or none. -/
theorem Accepted.transition {i : Instr} {s t : State} {p : Plan} {r : Result} (acc : Accepted s i p)
    (ht : carryOut p s = .next t) (hres : t.res = s.res ++ [r]) :
    (r.status = .ok ∧ t.seqState = seqAfterOk i s ∧ t.pwrEn = pwrAfterOk i s) ∨
      (r.status ≠ .ok ∧ t.seqState = s.seqState ∧ t.pwrEn = s.pwrEn) := by
  cases hi : movesSequencer i with
  | false =>
    have stays := acc.stays hi ht
    by_cases hok : r.status = .ok
    · rw [seqAfterOk_of_stays s hi, pwrAfterOk_of_stays s hi]
      exact .inl ⟨hok, stays⟩
    · exact .inr ⟨hok, stays⟩
  | true =>
    left
    cases acc
    case noPixels => cases ht
    case nop | rdReg | pack | unpack | sendChunk | genScatter | genChunk | genSend => cases hi
    case init =>
      cases ht
      obtain ⟨frame, hp, -⟩ := initI0_frame s.params s.busyIn s rfl
      obtain ⟨hok, hq⟩ := frame.of_result hres
      exact ⟨hok, hq, hp⟩
    case beginFrame =>
      cases ht
      rw [perform_append, perform_panelCmd] at hres ⊢
      cases result_inj hres rfl
      exact ⟨rfl, rfl, rfl⟩
    case endFrame =>
      have frame := endFrame_frame ht
      obtain ⟨hok, hq⟩ := frame.of_result hres
      exact ⟨hok, hq, frame.pwrEn⟩
    case turnOff =>
      cases ht
      cases result_inj hres rfl
      exact ⟨rfl, rfl, rfl⟩

/-- An operation that has passed its checks and waits: where that leaves the state machine. -/
theorem Accepted.waiting {i : Instr} {s t : State} {p : Plan} (acc : Accepted s i p)
    (ht : carryOut p s = .next t) (hr : t.running ≠ none) :
    ((∃ c, i = .endFrame c) ∧ s.seqState = .frameOpen ∧ t.seqState = .frameClosed ∧ t.pwrEn = s.pwrEn) ∨
    ((∃ c, i = .init c) ∧ s.seqState ≠ .frameOpen ∧ t.seqState = s.seqState ∧ t.pwrEn = true) ∨
    ((∀ c, i ≠ .endFrame c ∧ i ≠ .init c) ∧ t.seqState = s.seqState ∧ t.pwrEn = s.pwrEn) := by
  cases hi : movesSequencer i with
  | false =>
    refine .inr (.inr ⟨fun c => ⟨?_, ?_⟩, acc.stays hi ht⟩) <;> rintro rfl <;> cases hi
  | true =>
    cases acc
    case noPixels => cases ht
    case nop | rdReg | pack | unpack | sendChunk | genScatter | genChunk | genSend => cases hi
    case init state =>
      cases ht
      obtain ⟨frame, hp, -⟩ := initI0_frame s.params s.busyIn s rfl
      rcases frame.stands with ⟨hr', -⟩ | ⟨-, hq⟩
      · exact absurd hr' hr
      · exact .inr (.inl ⟨⟨0, rfl⟩, state, hq, hp⟩)
    case beginFrame =>
      cases ht
      rw [perform_append] at hr
      exact absurd rfl hr
    case endFrame state =>
      have frame := endFrame_frame ht
      rcases frame.stands with ⟨hr', -⟩ | ⟨-, hq, -⟩
      · exact absurd hr' hr
      · exact .inl ⟨⟨0, rfl⟩, state, hq, frame.pwrEn⟩
    case turnOff => cases ht; exact absurd rfl hr

theorem planResume_stays {r : Running} {s t : State} (hinit : ∀ useq k, r ≠ .init useq k)
    (hend : ∀ useq k, r ≠ .endFrame useq k) (ht : carryOut (planResume r s) s = .next t) :
    t.seqState = s.seqState ∧ t.pwrEn = s.pwrEn := by
  cases r
  case begun => cases ht; exact ⟨rfl, rfl⟩
  case pack n p => cases ht; exact ⟨(packFrom_keeps n p s).1.seqState, (packFrom_keeps n p s).1.pwrEn⟩
  case unpack m b => cases ht; exact ⟨(unpackFrom_keeps m b s).1.seqState, (unpackFrom_keeps m b s).1.pwrEn⟩
  case sendChunk => exact (sendChunkFrom_keeps ht).2
  case genScatter d => cases ht; exact ⟨(scatterFrom_keeps d s).seqState, (scatterFrom_keeps d s).pwrEn⟩
  case init useq k => exact absurd rfl (hinit useq k)
  case endFrame useq k => exact absurd rfl (hend useq k)

/-- Settles O29: a failure leaves state and level alone; the other operations by the lemmas above. -/
theorem sequencerTransitions : Obligations.SequencerTransitions := by
  refine ⟨fun i s t r h hres => ?_, fun i s t h hr => ?_, fun s t r hs hr h => ?_⟩
  · rcases exec_cases h with ⟨c, -, rfl⟩ | ⟨hnone, p, acc, ht⟩
    · cases result_inj hres rfl
      exact ⟨(fun hok => nomatch hok), fun _ => ⟨rfl, rfl⟩⟩
    · obtain ⟨allowed, powered⟩ := allowed_of_firstCause hnone
      rcases acc.transition ht hres with ⟨hok, hq, hp⟩ | ⟨hfail, stays⟩
      · exact ⟨fun _ => ⟨allowed, hq, hp, powered⟩, fun hfail => absurd hok hfail⟩
      · exact ⟨fun hok => absurd hok hfail, fun _ => stays⟩
  · rcases exec_cases h with ⟨c, -, rfl⟩ | ⟨-, p, acc, ht⟩
    · exact absurd rfl hr
    · exact acc.waiting ht hr
  · have ht := planResume_of_step hs hr h
    refine ⟨fun k hk => ?_, fun useq k hk hu => ?_, fun hinit hend => planResume_stays hinit hend ht⟩
    · subst hk
      cases ht
      obtain ⟨frame, hp, -⟩ := initI4_frame s.params k s.busyIn s rfl
      exact ⟨hp, frame.stands⟩
    · subst hk
      cases ht
      have frame := endFrameFrom_frame k s hu
      refine ⟨frame.pwrEn, ?_⟩
      rcases frame.stands with ⟨hr, hq, -⟩ | ⟨⟨useq', k', hr, -⟩, hq, -⟩
      · exact .inl ⟨hr, hq⟩
      · exact .inr ⟨⟨useq', k', hr⟩, hq⟩

/-! ### The `STATUS` register (R24, R39) -/

/-- The ten parts of the register, from bit 0 up. -/
theorem getLsbD_statusReg (s : State) (k : Nat) : (statusReg s).getLsbD k =
    if k < 3 then (seqCode s.seqState).getLsbD k
    else if k = 3 then s.pwrEn else if k = 4 then s.bufLive else if k = 5 then s.nodesValid
    else if k = 6 then s.longwait else if k = 7 then s.shortframe else if k = 8 then s.rst
    else if k < 17 then false else if k < 26 then s.err.getLsbD (k - 17) else false := by
  show (0#6 ++ (s.err ++ (0#8 ++ (bit s.rst ++ (bit s.shortframe ++ (bit s.longwait ++
    (bit s.nodesValid ++ (bit s.bufLive ++ (bit s.pwrEn ++ seqCode s.seqState)))))))) :
    BitVec (6 + (9 + (8 + (1 + (1 + (1 + (1 + (1 + (1 + 3)))))))))).getLsbD k = _
  simp only [BitVec.getLsbD_append, bit, BitVec.getLsbD_ofBool]
  simp only [BitVec.getLsbD_zero, Nat.reduceAdd]
  by_cases hk : k < 9
  · interval_cases k <;> rfl
  · grind

/-- The low three bits are the code of the state. -/
theorem extractLsb'_statusReg (s : State) : (statusReg s).extractLsb' 0 3 = seqCode s.seqState := by
  ext k hk
  rw [BitVec.getElem_extractLsb', Nat.zero_add, getLsbD_statusReg, if_pos hk, BitVec.getLsbD_eq_getElem hk]

/-- Settles O12: the table of the bits, field by field; and between two operations no state is `FrameClosed`. -/
theorem statusRegisterLayout : Obligations.StatusRegisterLayout := by
  intro s
  have code := extractLsb'_statusReg s
  have bits := getLsbD_statusReg s
  refine ⟨fun h => by rw [code, h]; rfl, fun h => by rw [code, h]; rfl, fun h => by rw [code, h]; rfl,
    fun h => by rw [code, h]; rfl, fun h => by rw [code, h]; rfl, bits 3, bits 4, bits 5, bits 6, bits 7, bits 8,
    fun k hk hk' => ?_, fun k hk hk' => ?_, fun k hk hk' => ?_, fun hinv hs hr hcode => ?_⟩
  · rw [bits]; grind
  · rw [bits, show k - 1 = 16 + k - 17 by omega]; grind
  · rw [bits]; grind
  · refine (hinv.idle hs hr).notClosed ?_
    rw [code] at hcode
    cases hq : s.seqState <;> rw [hq] at hcode <;> simp [seqCode] at hcode

end Sys2Proof.Machine

/-! The transaction buffer (R61), the packing functions undone (R92, R122, R124), and items that come in parts (R66,
R232). -/

namespace Sys2Proof.Machine

/-! ### The transaction buffer (R61) -/

/-- Settles O54: inside the buffer what `memWrite_cases` says, outside it both accesses stop at the same address. -/
theorem bufferReadsWhatWasWritten : Obligations.BufferReadsWhatWasWritten := by
  refine fun a v s => ⟨fun hfit => ?_, fun hout => ⟨.bufNoSuchByte (max a s.params.chunkMax), ?_, ?_⟩⟩
  · have hwrite : memWrite a v s = .ok (storeBuf a v s) := if_pos hfit
    exact ⟨_, hwrite, memRead_after_memWrite hwrite, fun b hb => read_writeAll_outside v a s.buf hb, rfl,
      fun h => writeAll_keeps_wf v a h⟩
  · exact if_neg (Nat.not_le.mpr hout)
  · exact if_neg (Nat.not_le.mpr hout)

/-- Settles O52: each move is one assignment; the pin is compared with `BUSY_ACTIVE_LEVEL`. -/
theorem inputsOnlyJoinTheirStream : Obligations.InputsOnlyJoinTheirStream := by
  refine fun s => ⟨fun _ => rfl, fun _ => rfl, fun _ => rfl, fun _ => rfl, fun level => ?_⟩
  have hpin : busyOfPin s.params level = decide (level = s.params.busyActiveLevel) := rfl
  rw [deliver, hpin]

/-! ### The nibbles of a byte (R92) -/

theorem toNat_eq_nibbles (v : Byte) : v.toNat = (highNibble v).toNat * 16 + (lowNibble v).toNat := by
  rw [← toNat_packPair, packPair_nibbles]

/-- Settles O13: the two nibbles are the quotient and the remainder by 16. -/
theorem validPackedBytes : Obligations.ValidPackedBytes := by
  refine fun v => ⟨?_, toNat_eq_nibbles v⟩
  have hv := toNat_eq_nibbles v
  have hlow : (lowNibble v).toNat < 16 := (lowNibble v).isLt
  rw [validPacked, Bool.and_eq_true, validColor_iff, validColor_iff]
  constructor
  · rintro ⟨ha, hb⟩
    exact ⟨_, _, ha, hb, hv⟩
  · rintro ⟨a, b, ha, hb, hab⟩
    omega

/-! ### Packing and unpacking (R120, R122, R124) -/

theorem unpackSeq_packSeq : ∀ {p : List Pixel}, p.length % 2 = 0 → unpackSeq (packSeq p) = p
  | [], _ => rfl
  | [_], h => absurd h (by decide : ¬1 % 2 = 0)
  | a :: b :: rest, h => by
    have hrest : rest.length % 2 = 0 := by
      rw [List.length_cons, List.length_cons] at h
      omega
    rw [packSeq, unpackSeq, highNibble_packPair, lowNibble_packPair, unpackSeq_packSeq hrest]

theorem packSeq_unpackSeq (b : List Byte) : packSeq (unpackSeq b) = b := by
  induction b with
  | nil => rfl
  | cons v b ih => rw [unpackSeq, packSeq, packPair_nibbles, ih]

theorem packSeq_append : ∀ {p : List Pixel} (q : List Pixel), p.length % 2 = 0 →
    packSeq (p ++ q) = packSeq p ++ packSeq q
  | [], _, _ => rfl
  | [_], _, h => absurd h (by decide : ¬1 % 2 = 0)
  | a :: b :: rest, q, h => by
    have hrest : rest.length % 2 = 0 := by
      rw [List.length_cons, List.length_cons] at h
      omega
    show packPair a b :: packSeq (rest ++ q) = _
    rw [packSeq_append q hrest]
    rfl

/-- A pair of Colors packs into a valid byte. -/
theorem validPacked_packPair (a b : Pixel) : validPacked (packPair a b) = (validColor a && validColor b) := by
  rw [validPacked, highNibble_packPair, lowNibble_packPair]

theorem all_validPacked_packSeq : ∀ {p : List Pixel}, p.all validColor = true → (packSeq p).all validPacked = true
  | [], _ => rfl
  | [_], _ => rfl
  | a :: b :: rest, h => by
    rw [List.all_cons, List.all_cons, ← Bool.and_assoc, Bool.and_eq_true] at h
    rw [packSeq, List.all_cons, validPacked_packPair, h.1, all_validPacked_packSeq h.2]
    rfl

theorem all_validColor_unpackSeq {b : List Byte} (h : b.all validPacked = true) :
    (unpackSeq b).all validColor = true := by
  induction b with
  | nil => rfl
  | cons v b ih =>
    rw [List.all_cons, Bool.and_eq_true, validPacked] at h
    rw [unpackSeq, List.all_cons, List.all_cons, ← Bool.and_assoc, h.1, ih h.2]
    rfl

/-! ### A `PACK` or `UNPACK` that has ended `OK` (R121, R123) -/

/-- What a `PACK` that has ended `OK` must have found. -/
theorem pack_of_ok {n : Nat} {s t : State} {v : Word} (h : exec (.pack n) s = .next t)
    (hres : t.res = s.res ++ [⟨.ok, v⟩]) :
    n ≤ 2 * s.params.chunkMax ∧ n % 2 = 0 ∧ n ≤ s.pixIn.length ∧ (s.pixIn.take n).all validColor = true ∧
      t = put ⟨.ok, 0#32⟩
        { s with pixIn := s.pixIn.drop n, byteOut := s.byteOut ++ packSeq (s.pixIn.take n) } := by
  rcases exec_cases h with ⟨c, -, rfl⟩ | ⟨-, p, acc, ht⟩
  · cases result_inj hres rfl
  cases acc
  case noPixels => cases ht
  case pack fits even =>
    cases ht
    obtain ⟨p, rest, rfl, rfl, ⟨-, e⟩ | ⟨hn, hvalid, e⟩ | ⟨-, -, e⟩⟩ := packFrom_cases n [] s <;> rw [e] at hres ⊢
    · exact (no_result rfl hres).elim
    · rw [payload_nil] at hvalid ⊢
      rw [missing_nil]
      exact ⟨fits, even, le_length_of_payload_nil hn, hvalid, rfl⟩
    · cases result_inj hres rfl

/-- What an `UNPACK` that has ended `OK` must have found. -/
theorem unpack_of_ok {m : Nat} {s t : State} {v : Word} (h : exec (.unpack m) s = .next t)
    (hres : t.res = s.res ++ [⟨.ok, v⟩]) :
    m ≤ s.params.chunkMax ∧ m ≤ s.byteIn.length ∧ (s.byteIn.take m).all validPacked = true ∧
      t = put ⟨.ok, 0#32⟩
        { s with byteIn := s.byteIn.drop m, pixOut := s.pixOut ++ unpackSeq (s.byteIn.take m) } := by
  rcases exec_cases h with ⟨c, -, rfl⟩ | ⟨-, p, acc, ht⟩
  · cases result_inj hres rfl
  cases acc
  case noPixels => cases ht
  case unpack fits =>
    cases ht
    obtain ⟨b, rest, rfl, rfl, ⟨-, e⟩ | ⟨hm, hvalid, e⟩ | ⟨-, -, e⟩⟩ := unpackFrom_cases m [] s <;> rw [e] at hres ⊢
    · exact (no_result rfl hres).elim
    · rw [payload_nil] at hvalid ⊢
      rw [missing_nil]
      exact ⟨fits, le_length_of_payload_nil hm, hvalid, rfl⟩
    · cases result_inj hres rfl

/-- A `PACK` that finds Colors at the front of its stream. -/
theorem exec_pack_ok {n : Nat} {s : State} {p rest : List Pixel} (hs : s.pixIn = p ++ rest) (hp : p.length = n)
    (hn : n ≤ 2 * s.params.chunkMax) (heven : n % 2 = 0) (hvalid : p.all validColor = true) :
    exec (.pack n) s = .next (put ⟨.ok, 0#32⟩ { s with pixIn := rest, byteOut := s.byteOut ++ packSeq p }) := by
  subst hp
  have hlen : p.length ≤ s.pixIn.length := by rw [hs, List.length_append]; omega
  rw [exec_pack_accepted hn heven, perform_packFrom_nil hlen, hs, List.take_left, List.drop_left, if_pos hvalid]

/-- An `UNPACK` that finds valid bytes at the front of its stream. -/
theorem exec_unpack_ok {m : Nat} {s : State} {b rest : List Byte} (hs : s.byteIn = b ++ rest) (hb : b.length = m)
    (hm : m ≤ s.params.chunkMax) (hvalid : b.all validPacked = true) :
    exec (.unpack m) s = .next (put ⟨.ok, 0#32⟩ { s with byteIn := rest, pixOut := s.pixOut ++ unpackSeq b }) := by
  subst hb
  have hlen : b.length ≤ s.byteIn.length := by rw [hs, List.length_append]; omega
  rw [exec_unpack_accepted hm, perform_unpackFrom_nil hlen, hs, List.take_left, List.drop_left, if_pos hvalid]

/-- What has been given in addition is what the other stream begins with. -/
theorem stream_eq_of_given {α : Type} {old given stream rest : List α} (h : old ++ stream = (old ++ given) ++ rest) :
    stream = given ++ rest := by
  rw [List.append_assoc] at h
  exact List.append_cancel_left h

/-- Settles O17: as functions by induction; as operations, what one has given is a payload that the other accepts. -/
theorem packAndUnpackUndoEachOther : Obligations.PackAndUnpackUndoEachOther := by
  refine ⟨fun p => unpackSeq_packSeq, packSeq_unpackSeq, fun n s t u r h hres hparams hstream => ?_,
    fun m s t u r h hres hparams hstream => ?_⟩
  · obtain ⟨hn, heven, hlen, hvalid, rfl⟩ := pack_of_ok h hres
    have htake : (s.pixIn.take n).length = n := List.length_take_of_le hlen
    have hbytes : (packSeq (s.pixIn.take n)).length = n / 2 := by rw [packSeq_length, htake]
    have hunpack := exec_unpack_ok (stream_eq_of_given hstream) hbytes (by rw [hparams]; omega)
      (all_validPacked_packSeq hvalid)
    rwa [unpackSeq_packSeq (by rwa [htake])] at hunpack
  · obtain ⟨hm, hlen, hvalid, rfl⟩ := unpack_of_ok h hres
    have hpixels : (unpackSeq (s.byteIn.take m)).length = 2 * m := by
      rw [unpackSeq_length, List.length_take_of_le hlen]
    have hpack := exec_pack_ok (stream_eq_of_given hstream) hpixels (by rw [hparams]; omega) (by omega)
      (all_validColor_unpackSeq hvalid)
    rwa [packSeq_unpackSeq] at hpack

/-- Settles O18: the payload of the whole operation is the payload of the first and then that of the second. -/
theorem packMayBeCutAtEvenIndices : Obligations.PackMayBeCutAtEvenIndices := by
  refine ⟨fun p _ hp => ⟨packSeq_length p, ?_⟩, fun n m s t hn hm h hres => ?_⟩
  · exact List.all_eq_true.mp (all_validPacked_packSeq (all_validColor_iff.mpr hp))
  · obtain ⟨hfit, -, hlen, hvalid, rfl⟩ := pack_of_ok h hres
    rw [List.take_add, List.all_append, Bool.and_eq_true] at hvalid
    obtain ⟨hvalid, hvalid'⟩ := hvalid
    have hfirst : (s.pixIn.take n).length = n := List.length_take_of_le (by omega)
    have hsecond : ((s.pixIn.drop n).take m).length = m :=
      List.length_take_of_le (by rw [List.length_drop]; omega)
    have hu := exec_pack_ok (List.take_append_drop n s.pixIn).symm hfirst (by omega) hn hvalid
    have hv {u : State} (hin : u.pixIn = s.pixIn.drop n) (hparams : u.params = s.params) :=
      exec_pack_ok (s := u) (hin.trans (List.take_append_drop m _).symm) hsecond (by rw [hparams]; omega) hm hvalid'
    refine ⟨_, _, hu, hv rfl rfl, ?_, List.drop_drop⟩
    show (s.byteOut ++ packSeq (s.pixIn.take n)) ++ packSeq ((s.pixIn.drop n).take m) =
      s.byteOut ++ packSeq (s.pixIn.take (n + m))
    rw [List.take_add, packSeq_append _ (by rwa [hfirst]), List.append_assoc]

/-! ### Items that are missing (R66, R232) -/

theorem payload_of_short {α : Type} {n : Nat} {stream : List α} (h : stream.length < n) :
    payload n [] stream = stream ∧ stream.drop (missing n ([] : List α)) = [] := by
  rw [payload_nil, missing_nil]
  exact ⟨List.take_of_length_le (Nat.le_of_lt h), List.drop_of_length_le (Nat.le_of_lt h)⟩

theorem exec_genScatter_accepted (s : State) : exec (.genScatter 0) s = .next (perform (scatterFrom [] s) s) := rfl

theorem exec_pack_short {n : Nat} {s : State} (hn : n ≤ 2 * s.params.chunkMax) (heven : n % 2 = 0)
    (hshort : s.pixIn.length < n) :
    exec (.pack n) s = .next (stand (.pack n s.pixIn) { s with pixIn := [] }) := by
  obtain ⟨hall, hnone⟩ := payload_of_short hshort
  rw [exec_pack_accepted hn heven, packFrom]
  simp only [hall, hshort, if_true, perform_cons, perform_nil, takePixels, hnone]

theorem exec_unpack_short {m : Nat} {s : State} (hm : m ≤ s.params.chunkMax) (hshort : s.byteIn.length < m) :
    exec (.unpack m) s = .next (stand (.unpack m s.byteIn) { s with byteIn := [] }) := by
  obtain ⟨hall, hnone⟩ := payload_of_short hshort
  rw [exec_unpack_accepted hm, unpackFrom]
  simp only [hall, hshort, if_true, perform_cons, perform_nil, takeBytes, hnone]

theorem exec_sendChunk_short {l : Nat} {s : State} (hl : l ≤ s.params.chunkMax) (hq : s.seqState = .frameOpen)
    (hroom : s.bytesSent.toNat + l ≤ 192000) (hshort : s.byteIn.length < l) :
    exec (.sendChunk l) s = .next (stand (.sendChunk l s.byteIn) { s with byteIn := [] }) := by
  obtain ⟨hall, hnone⟩ := payload_of_short hshort
  rw [exec_sendChunk_accepted hl hq hroom, sendChunkFrom]
  simp only [hall, hshort, if_true, carryOut_ok, perform_cons, perform_nil, takeBytes, hnone]

theorem exec_genScatter_short {s : State} (hshort : s.rngIn.length < 200) :
    exec (.genScatter 0) s = .next (stand (.genScatter s.rngIn) { s with rngIn := [] }) := by
  obtain ⟨hall, hnone⟩ := payload_of_short hshort
  rw [exec_genScatter_accepted, scatterFrom]
  simp only [Config.nNodes, Nat.reduceMul, hall, hshort, if_true, perform_cons, perform_nil, takeDraws, hnone]

/-- Settles O19: the four lemmas above. -/
theorem missingItemsHoldTheOperation : Obligations.MissingItemsHoldTheOperation :=
  fun _ => ⟨fun _ => exec_pack_short, fun _ => exec_unpack_short, fun _ => exec_sendChunk_short,
    exec_genScatter_short⟩

end Sys2Proof.Machine

/-! Items and answers that arrive late (R66, R72, R143): the step that goes on with them is what the operation would
have done had they been there from the start (logs 2 and 3). -/

namespace Sys2Proof.Machine

/-! ### Going on with an operation that stands in flight -/

theorem planResume_running (r : Running) (s : State) (q : Option Running) :
    planResume r { s with running := q } = planResume r s := by
  cases r
  case sendChunk => simp only [planResume, sendChunkFrom, sendChunk, throughBuf_eq]
  case init useq k => cases useq <;> rfl
  case endFrame useq k => cases useq <;> rfl
  all_goals rfl

/-- Where an operation stands in flight, the next step carries out what is left of it. -/
theorem step_stand {r : Running} {s : State} (hs : s.resetIn = none) :
    step (stand r s) = carryOut (planResume r s) s := by
  rw [step_running (s := stand r s) hs rfl, resume, stand, planResume_running]
  cases h : planResume r s with
  | error f => rfl
  | ok as => rw [carryOut_ok, carryOut_ok, (planned_resume h).running]

/-! ### Items that arrive late (R66) -/

theorem perform_packFrom_late {n : Nat} {s : State} (late : List Pixel) (h : s.pixIn.length < n) :
    perform (packFrom n s.pixIn { s with pixIn := late }) { s with pixIn := late } =
      perform (packFrom n [] { s with pixIn := s.pixIn ++ late }) { s with pixIn := s.pixIn ++ late } := by
  obtain ⟨hpayload, hdrop⟩ := payload_late late h
  simp only [packFrom, perform_cons, takePixels, hpayload, hdrop]

theorem perform_unpackFrom_late {m : Nat} {s : State} (late : List Byte) (h : s.byteIn.length < m) :
    perform (unpackFrom m s.byteIn { s with byteIn := late }) { s with byteIn := late } =
      perform (unpackFrom m [] { s with byteIn := s.byteIn ++ late }) { s with byteIn := s.byteIn ++ late } := by
  obtain ⟨hpayload, hdrop⟩ := payload_late late h
  simp only [unpackFrom, perform_cons, takeBytes, hpayload, hdrop]

theorem perform_scatterFrom_late {s : State} (late : List Nat) (h : s.rngIn.length < 5 * Config.nNodes) :
    perform (scatterFrom s.rngIn { s with rngIn := late }) { s with rngIn := late } =
      perform (scatterFrom [] { s with rngIn := s.rngIn ++ late }) { s with rngIn := s.rngIn ++ late } := by
  obtain ⟨hpayload, hdrop⟩ := payload_late late h
  simp only [scatterFrom, perform_cons, takeDraws, hpayload, hdrop]

theorem carryOut_sendChunkFrom_late {l : Nat} {s : State} (late : List Byte) (hl : l ≤ s.params.chunkMax)
    (h : s.byteIn.length < l) :
    carryOut (sendChunkFrom l s.byteIn { s with byteIn := late }) { s with byteIn := late } =
      carryOut (sendChunkFrom l [] { s with byteIn := s.byteIn ++ late }) { s with byteIn := s.byteIn ++ late } := by
  obtain ⟨hpayload, hdrop⟩ := payload_late late h
  rw [sendChunkFrom_eq (s := { s with byteIn := late }) (Nat.le_of_lt h) hl,
    sendChunkFrom_eq (s := { s with byteIn := s.byteIn ++ late }) (Nat.zero_le l) hl]
  simp only [carryOut_ok, perform_cons, takeBytes, hpayload, hdrop]

/-- A `PACK` that waits has passed its checks and taken all there was. -/
theorem pack_of_waiting {n : Nat} {s t : State} (h : exec (.pack n) s = .next t) (hr : t.running ≠ none) :
    n ≤ 2 * s.params.chunkMax ∧ n % 2 = 0 ∧ s.pixIn.length < n := by
  rcases exec_cases h with ⟨c, -, rfl⟩ | ⟨-, p, acc, ht⟩
  · exact absurd rfl hr
  cases acc
  case noPixels => cases ht
  case pack fits even =>
    refine ⟨fits, even, Nat.lt_of_not_le fun hlen => hr ?_⟩
    cases ht
    rw [perform_packFrom_nil hlen]
    split <;> rfl

theorem unpack_of_waiting {m : Nat} {s t : State} (h : exec (.unpack m) s = .next t) (hr : t.running ≠ none) :
    m ≤ s.params.chunkMax ∧ s.byteIn.length < m := by
  rcases exec_cases h with ⟨c, -, rfl⟩ | ⟨-, p, acc, ht⟩
  · exact absurd rfl hr
  cases acc
  case noPixels => cases ht
  case unpack fits =>
    refine ⟨fits, Nat.lt_of_not_le fun hlen => hr ?_⟩
    cases ht
    rw [perform_unpackFrom_nil hlen]
    split <;> rfl

theorem sendChunk_of_waiting {l : Nat} {s t : State} (h : exec (.sendChunk l) s = .next t) (hr : t.running ≠ none) :
    l ≤ s.params.chunkMax ∧ s.seqState = .frameOpen ∧ s.bytesSent.toNat + l ≤ 192000 ∧ s.byteIn.length < l := by
  rcases exec_cases h with ⟨c, -, rfl⟩ | ⟨-, p, acc, ht⟩
  · exact absurd rfl hr
  cases acc
  case noPixels => cases ht
  case sendChunk state fits room =>
    refine ⟨fits, state, room, Nat.lt_of_not_le fun hlen => hr ?_⟩
    rw [carryOut_sendChunkFrom_nil fits hlen] at ht
    cases ht
    split <;> rfl

theorem genScatter_of_waiting {c : Nat} {s t : State} (h : exec (.genScatter c) s = .next t)
    (hr : t.running ≠ none) : c = 0 ∧ s.rngIn.length < 200 := by
  rcases exec_cases h with ⟨c, -, rfl⟩ | ⟨-, p, acc, ht⟩
  · exact absurd rfl hr
  cases acc
  case noPixels => cases ht
  case genScatter =>
    cases ht
    obtain ⟨d, rest, rfl, -, ⟨hd, -⟩ | ⟨-, e⟩⟩ := scatterFrom_cases [] s
    · rw [payload_nil, List.length_take] at hd
      exact ⟨rfl, (min_lt_iff.mp hd).resolve_left (Nat.lt_irrefl _)⟩
    · rw [e] at hr
      exact absurd rfl hr

/-! ### Answers that arrive late (R72, R143) -/

/-- A stretch of actions over the panel's answers, for the parameters `p`: where it waits, the step that goes on with
later answers does what the stretch would have done with all of them. -/
def TakesLate (p : Params) (stretch : List Bool → List Action) : Prop :=
  ∀ (answers late : List Bool) (s : State), s.params = p → s.resetIn = none → s.busyIn = answers →
    (perform (stretch answers) s).running ≠ none →
    step { perform (stretch answers) s with busyIn := late } =
      .next (perform (stretch (answers ++ late)) { s with busyIn := answers ++ late })

/-- A stretch that ends does not wait. -/
theorem takesLate_of_ends {p : Params} {as : List Action} (h : ∀ s, (perform as s).running = none) :
    TakesLate p fun _ => as :=
  fun _ _ s _ _ _ hr => absurd (h s) hr

/-- An action that neither reads nor takes an answer. -/
def IgnoresAnswers (a : Action) : Prop := ∀ s, (a s).params = s.params ∧ (a s).resetIn = s.resetIn ∧
  (a s).busyIn = s.busyIn ∧ ∀ l, a { s with busyIn := l } = { a s with busyIn := l }

theorem ignoresAnswers_stand (r : Running) : IgnoresAnswers (stand r) := fun _ => ⟨rfl, rfl, rfl, fun _ => rfl⟩
theorem ignoresAnswers_emit (e : Event) : IgnoresAnswers (emit e) := fun _ => ⟨rfl, rfl, rfl, fun _ => rfl⟩
theorem ignoresAnswers_driveRst (b : Bool) : IgnoresAnswers (driveRst b) := fun _ => ⟨rfl, rfl, rfl, fun _ => rfl⟩
theorem ignoresAnswers_drivePwr (b : Bool) : IgnoresAnswers (drivePwr b) := fun _ => ⟨rfl, rfl, rfl, fun _ => rfl⟩
theorem ignoresAnswers_enter (q : SeqState) : IgnoresAnswers (enter q) := fun _ => ⟨rfl, rfl, rfl, fun _ => rfl⟩

theorem TakesLate.cons {p : Params} {stretch : List Bool → List Action} (h : TakesLate p stretch) {a : Action}
    (ha : IgnoresAnswers a) : TakesLate p fun answers => a :: stretch answers := by
  intro answers late s hp hs hb hr
  obtain ⟨hparams, hreset, hbusy, hlate⟩ := ha s
  show step { perform (stretch answers) (a s) with busyIn := late } =
    .next (perform (stretch (answers ++ late)) (a { s with busyIn := answers ++ late }))
  rw [hlate (answers ++ late)]
  exact h answers late (a s) (hparams.trans hp) (hreset.trans hs) (hbusy.trans hb) hr

theorem TakesLate.panelCmd {p : Params} {stretch : List Bool → List Action} (h : TakesLate p stretch)
    (c : PanelCommand) : TakesLate p fun answers => panelCmd c ++ stretch answers := by
  intro answers late s hp hs hb hr
  rw [perform_append, perform_panelCmd] at hr ⊢
  rw [perform_append, perform_panelCmd]
  exact h answers late { s with trace := s.trace ++ cmdEvents c } hp hs hb hr

/-- What one busy reading does to the state `s`. -/
def afterBusyReading (standing : Nat → Running) (interval k : Nat) (s : State) : State :=
  perform (poll true :: stand (standing (k + 1)) :: ((if k + 1 = 2 then [logLongwait] else []) ++ [delay interval])) s

/-- It takes its answer from the front, whichever answers come after, and it counts. -/
theorem afterBusyReading_busyIn (standing : Nat → Running) (interval k : Nat) (s : State) (l : List Bool) :
    afterBusyReading standing interval k { s with busyIn := l } =
      { afterBusyReading standing interval k s with busyIn := l.drop 1 } := by
  unfold afterBusyReading
  split <;> rfl

theorem afterBusyReading_fields (standing : Nat → Running) (interval k : Nat) (s : State) :
    (afterBusyReading standing interval k s).params = s.params ∧
      (afterBusyReading standing interval k s).resetIn = s.resetIn ∧
      (afterBusyReading standing interval k s).busyIn = s.busyIn.drop 1 ∧
      (afterBusyReading standing interval k s).running = some (standing (k + 1)) := by
  unfold afterBusyReading
  split <;> exact ⟨rfl, rfl, rfl, rfl⟩

theorem perform_busyWait_busy (standing : Nat → Running) (interval : Nat) (after : List Bool → List Action) (k : Nat)
    (answers : List Bool) (s : State) : perform (busyWait standing interval after k (true :: answers)) s =
      perform (busyWait standing interval after (k + 1) answers) (afterBusyReading standing interval k s) := by
  simp [busyWait, afterBusyReading]

section
variable {standing : Nat → Running} {p : Params} {after : List Bool → List Action}

/-- A wait that takes later answers, from any count of busy readings on. -/
theorem step_busyWait_late
    (hplan : ∀ k (s : State), s.params = p → planResume (standing k) s =
      .ok (stand (standing k) :: busyWait standing p.pollInterval after k s.busyIn))
    (hafter : TakesLate p after) (answers late : List Bool) : ∀ (k : Nat) (s : State), s.params = p →
      s.resetIn = none → s.busyIn = answers → s.running = some (standing k) →
      (perform (busyWait standing p.pollInterval after k answers) s).running ≠ none →
      step { perform (busyWait standing p.pollInterval after k answers) s with busyIn := late } =
        .next (perform (busyWait standing p.pollInterval after k (answers ++ late))
          { s with busyIn := answers ++ late }) := by
  induction answers with
  | nil =>
    intro k s hp hs hb hrun hr
    have hstand : stand (standing k) { s with busyIn := late } = { s with busyIn := late } := by
      rw [stand, ← hrun]
    calc step (stand (standing k) { s with busyIn := late })
      _ = carryOut (planResume (standing k) { s with busyIn := late }) { s with busyIn := late } := step_stand hs
      _ = .next (perform (busyWait standing p.pollInterval after k late) { s with busyIn := late }) := by
        rw [hplan k { s with busyIn := late } hp, carryOut_ok, perform_cons, hstand]
  | cons b answers ih =>
    intro k s hp hs hb hrun hr
    cases b with
    | false =>
      have hpoll : ∀ l, poll false { s with busyIn := false :: l } = { poll false s with busyIn := l } := fun _ => rfl
      have hleft : (poll false s).busyIn = answers := by rw [poll, hb]; rfl
      rw [List.cons_append, busyWait, busyWait, perform_cons, perform_cons, hpoll]
      exact hafter answers late (poll false s) hp hs hleft hr
    | true =>
      obtain ⟨hparams, hreset, hleft, hcount⟩ := afterBusyReading_fields standing p.pollInterval k s
      rw [hb] at hleft
      rw [perform_busyWait_busy] at hr ⊢
      rw [List.cons_append, perform_busyWait_busy,
        afterBusyReading_busyIn _ _ _ s (true :: (answers ++ late))]
      exact ih (k + 1) _ (hparams.trans hp) (hreset.trans hs) hleft hcount hr

/-- A step that begins with a wait. -/
theorem takesLate_busyWait
    (hplan : ∀ k (s : State), s.params = p → planResume (standing k) s =
      .ok (stand (standing k) :: busyWait standing p.pollInterval after k s.busyIn))
    (hafter : TakesLate p after) :
    TakesLate p fun answers => stand (standing 0) :: busyWait standing p.pollInterval after 0 answers :=
  fun answers late s hp hs hb hr =>
    step_busyWait_late hplan hafter answers late 0 (stand (standing 0) s) hp hs hb rfl hr

end

theorem takesLate_initI0 (p : Params) : TakesLate p (initI0 p) := by
  have h5 : TakesLate p fun _ => initI5 p := takesLate_of_ends fun s => by rw [perform_initI5]; rfl
  have h4 : TakesLate p (initI4 p 0) := takesLate_busyWait (fun k s hp => by subst hp; rfl) h5
  have pulse {f : List Bool → List Action} (h : TakesLate p f) (r : Running) (b : Bool) (ms : Nat) :
      TakesLate p fun l => stand r :: driveRst b :: delay ms :: f l :=
    ((h.cons (ignoresAnswers_emit (.delay ms))).cons (ignoresAnswers_driveRst b)).cons (ignoresAnswers_stand r)
  have h1 := pulse (pulse (pulse h4 (.init .i3 0) p.rstOuter p.tRst2) (.init .i2 0) p.rstInner p.tRst1)
    (.init .i1 0) p.rstOuter p.tRst0
  exact (h1.cons (ignoresAnswers_drivePwr true)).cons (ignoresAnswers_stand (.init .i0 0))

theorem takesLate_endE0 (p : Params) : TakesLate p (endE0 p) := by
  have h7 : TakesLate p fun _ => endE7 := takesLate_of_ends fun _ => rfl
  have cmd {f : List Bool → List Action} (h : TakesLate p f) (r : Running) (c : PanelCommand) :
      TakesLate p fun l => stand r :: (panelCmd c ++ f l) :=
    (h.panelCmd c).cons (ignoresAnswers_stand r)
  have h6 : TakesLate p (endE6 p 0) := takesLate_busyWait (fun k s hp => by subst hp; rfl) h7
  have h4 : TakesLate p (endE4 p 0) :=
    takesLate_busyWait (fun k s hp => by subst hp; rfl) (cmd h6 (.endFrame .e5 0) p.cmdPowerOff)
  have h2 : TakesLate p (endE2 p 0) :=
    takesLate_busyWait (fun k s hp => by subst hp; rfl) (cmd h4 (.endFrame .e3 0) p.cmdRefresh)
  have h1 := cmd h2 (.endFrame .e1 0) p.cmdPowerOn
  exact (h1.cons (ignoresAnswers_enter .frameClosed)).cons (ignoresAnswers_stand (.endFrame .e0 0))

theorem init_late {c : Nat} {s t : State} (late : List Bool) (hs : s.resetIn = none)
    (h : exec (.init c) s = .next t) (hr : t.running ≠ none) :
    step { t with busyIn := late } = exec (.init c) { s with busyIn := s.busyIn ++ late } := by
  rcases exec_cases h with ⟨c, -, rfl⟩ | ⟨-, p, acc, ht⟩
  · exact absurd rfl hr
  cases acc
  case noPixels => cases ht
  case init state =>
    cases ht
    rw [exec_init_accepted (s := { s with busyIn := s.busyIn ++ late }) state]
    exact takesLate_initI0 s.params s.busyIn late s rfl hs rfl hr

theorem endFrame_late {c : Nat} {s t : State} (late : List Bool) (hs : s.resetIn = none)
    (h : exec (.endFrame c) s = .next t) (hr : t.running ≠ none) :
    step { t with busyIn := late } = exec (.endFrame c) { s with busyIn := s.busyIn ++ late } := by
  rcases exec_cases h with ⟨c, -, rfl⟩ | ⟨-, p, acc, ht⟩
  · exact absurd rfl hr
  cases acc
  case noPixels => cases ht
  case endFrame state =>
    cases ht
    rw [exec_endFrame_accepted (s := { s with busyIn := s.busyIn ++ late }) state]
    exact takesLate_endE0 s.params s.busyIn late (markShortFrame s) rfl hs rfl hr

/-- Settles O20: a waiting operation stands in flight with what it has taken, so the step that goes on carries out what
is left of it. -/
theorem itemsMayArriveLate : Obligations.ItemsMayArriveLate := by
  refine fun s t hs hr => ⟨fun n late h => ?_, fun m late h => ?_, fun l late h => ?_, fun c late h => ?_,
    fun c late h => init_late late hs h hr, fun c late h => endFrame_late late hs h hr⟩
  · obtain ⟨hn, heven, hshort⟩ := pack_of_waiting h hr
    cases (exec_pack_short hn heven hshort).symm.trans h
    rw [exec_pack_accepted (s := { s with pixIn := s.pixIn ++ late }) hn heven, ← perform_packFrom_late late hshort]
    exact step_stand (s := { s with pixIn := late }) hs
  · obtain ⟨hm, hshort⟩ := unpack_of_waiting h hr
    cases (exec_unpack_short hm hshort).symm.trans h
    rw [exec_unpack_accepted (s := { s with byteIn := s.byteIn ++ late }) hm, ← perform_unpackFrom_late late hshort]
    exact step_stand (s := { s with byteIn := late }) hs
  · obtain ⟨hl, hq, hroom, hshort⟩ := sendChunk_of_waiting h hr
    cases (exec_sendChunk_short hl hq hroom hshort).symm.trans h
    rw [exec_sendChunk_accepted (s := { s with byteIn := s.byteIn ++ late }) hl hq hroom,
      ← carryOut_sendChunkFrom_late late hl hshort]
    exact step_stand (s := { s with byteIn := late }) hs
  · obtain ⟨rfl, hshort⟩ := genScatter_of_waiting h hr
    cases (exec_genScatter_short hshort).symm.trans h
    rw [exec_genScatter_accepted, ← perform_scatterFrom_late late hshort]
    exact step_stand (s := { s with rngIn := late }) hs

end Sys2Proof.Machine

/-! A panel that only answers busy (R233), and whole runs of the sequencer: a frame in any chunks (R71, R149), and a
whole live frame (R154). -/

namespace Sys2Proof.Machine

/-! ### A dead panel (R143, R233) -/

/-- One busy reading, with more to come. -/
theorem afterBusyReading_dead (standing : Nat → Running) (interval k j : Nat) {s : State}
    (hb : s.busyIn = List.replicate (j + 1) true) : ∃ lw es,
      es.count (.poll true) = 1 ∧ es.count (.poll false) = 0 ∧
      afterBusyReading standing interval k s = { s with
        running := some (standing (k + 1)), busyIn := List.replicate j true, longwait := lw,
        trace := s.trace ++ es } := by
  by_cases hk : k + 1 = 2
  · exact ⟨true, [.poll true, .logLongwait, .delay interval], by simp, by simp,
      by simp [afterBusyReading, hk, poll, stand, logLongwait, delay, emit, hb, List.replicate_succ]⟩
  · exact ⟨s.longwait, [.poll true, .delay interval], by simp, by simp,
      by simp [afterBusyReading, hk, poll, stand, delay, emit, hb, List.replicate_succ]⟩

/-- A wait that only reads busy, from any count of readings on: it takes every answer and shows nothing but those
readings. -/
theorem perform_busyWait_dead (standing : Nat → Running) (interval : Nat) (after : List Bool → List Action) (j : Nat) :
    ∀ (k : Nat) (s : State), s.busyIn = List.replicate j true → ∃ lw es,
      es.count (.poll true) = j ∧ es.count (.poll false) = 0 ∧
      perform (busyWait standing interval after k (List.replicate j true)) s =
        { s with running := some (standing (k + j)), busyIn := [], longwait := lw, trace := s.trace ++ es } := by
  induction j with
  | zero =>
    intro k s hb
    refine ⟨s.longwait, [], rfl, rfl, ?_⟩
    rw [List.append_nil, ← show s.busyIn = [] from hb]
    rfl
  | succ j ih =>
    intro k s hb
    obtain ⟨lw, es, htrue, hfalse, hread⟩ := afterBusyReading_dead standing interval k j hb
    obtain ⟨lw', es', htrue', hfalse', hrest⟩ := ih (k + 1) (afterBusyReading standing interval k s) (by rw [hread])
    refine ⟨lw', es ++ es', ?_, ?_, ?_⟩
    · rw [List.count_append, htrue, htrue', Nat.add_comm]
    · rw [List.count_append, hfalse, hfalse']
    · rw [List.replicate_succ, perform_busyWait_busy, hrest, hread]
      simp [Nat.add_assoc, Nat.add_comm 1]

/-- A step that goes on with a wait and only reads busy. -/
theorem step_busyWait_dead {standing : Nat → Running} {interval : Nat} {after : List Bool → List Action} {k j : Nat}
    {s : State} (hs : s.resetIn = none) (hr : s.running = some (standing k)) (hb : s.busyIn = List.replicate j true)
    (hplan : planResume (standing k) s = .ok (stand (standing k) :: busyWait standing interval after k s.busyIn)) :
    ∃ t r', step s = .next t ∧ t.running = some r' ∧ t.res = s.res ∧ t.seqState = s.seqState ∧
      t.bufLive = s.bufLive ∧ t.pwrEn = s.pwrEn ∧ t.rst = s.rst ∧
      ∃ es, t.trace = s.trace ++ es ∧ es.count (.poll true) = j ∧ es.count (.poll false) = 0 := by
  obtain ⟨lw, es, htrue, hfalse, hdead⟩ :=
    perform_busyWait_dead standing interval after j k (stand (standing k) s) hb
  rw [step_running hs hr, resume, hplan, hb, carryOut_ok, perform_cons, hdead]
  exact ⟨_, _, rfl, rfl, rfl, rfl, rfl, rfl, rfl, es, rfl, htrue, hfalse⟩

/-- E1 and E2 of an `END_FRAME`, for a panel that has only read busy. -/
theorem perform_endE1_dead {p : Params} {j : Nat} {s : State} (hb : s.busyIn = List.replicate j true) :
    perform (endE1 p (List.replicate j true)) s = afterBusy (.endFrame .e2) p.pollInterval j []
      { s with running := some (.endFrame .e2 0), trace := s.trace ++ cmdEvents p.cmdPowerOn } := by
  rw [endE1, endE2, perform_cons, perform_append, perform_panelCmd, perform_cons]
  exact perform_busyWait_all_busy rfl hb

/-- I4 of an `INIT`, for a panel that has only read busy. -/
theorem perform_initI4_dead {p : Params} {j : Nat} {s : State} (hb : s.busyIn = List.replicate j true) :
    perform (initI4 p 0 (List.replicate j true)) s =
      afterBusy (.init .i4) p.pollInterval j [] { s with running := some (.init .i4 0) } := by
  rw [initI4, perform_cons]
  exact perform_busyWait_all_busy rfl hb

/-- Settles O27: the wait stands with its count, whether the operation starts or goes on. -/
theorem deadPanelHangsTheSequencer : Obligations.DeadPanelHangsTheSequencer := by
  refine ⟨fun s j hq hb => ?_, fun s j hq hb => ?_, ?_⟩
  · refine ⟨_, exec_endFrame_accepted hq, ?_⟩
    rw [hb, perform_endE0, perform_endE1_dead (p := s.params)]
    · exact ⟨rfl, rfl, rfl, rfl, rfl, rfl⟩
    · exact hb
  · refine ⟨_, exec_init_accepted hq, ?_⟩
    rw [hb, perform_initI0, perform_initI4_dead (p := s.params)]
    · exact ⟨rfl, rfl, rfl, rfl, rfl, rfl⟩
    · exact hb
  · rintro s r j ⟨k, rfl | rfl | rfl | rfl⟩ hs hr hb
    · exact step_busyWait_dead (standing := .init .i4) hs hr hb rfl
    · exact step_busyWait_dead (standing := .endFrame .e2) hs hr hb rfl
    · exact step_busyWait_dead (standing := .endFrame .e4) hs hr hb rfl
    · exact step_busyWait_dead (standing := .endFrame .e6) hs hr hb rfl

/-! ### A frame in any chunks (R71, R149) -/

theorem chunkMax_lt (p : Params) : p.chunkMax < 1048576 :=
  Nat.lt_of_le_of_lt (Nat.succ_le_of_lt p.chunkMaxPred.isLt) (by decide)

/-- A step of an idle block that takes an encoded operation. -/
theorem step_encoded {s : State} {i : Instr} {rest : List Word} (hs : s.resetIn = none) (hr : s.running = none)
    (ho : s.opIn = encode i :: rest) (hi : i.count < 1048576) : step s = exec i { s with opIn := rest } :=
  step_eq_exec hs hr ho (decode_encode (wellFormed_iff.mpr hi))

theorem toNat_bytesSent_add {n m : Nat} (h : n + m ≤ 192000) : (BitVec.ofNat 18 (n + m)).toNat = n + m := by
  rw [BitVec.toNat_ofNat]
  exact Nat.mod_eq_of_lt (Nat.lt_of_le_of_lt h (by decide))

theorem dataEvents_cons (c : List Byte) (cs : List (List Byte)) :
    dataEvents (c :: cs) = (if c.length = 0 then [] else [.data c]) ++ dataEvents cs := by
  by_cases hc : c = [] <;> simp [dataEvents, hc]

/-- The state after a step that takes a `SEND_CHUNK` of the valid bytes `c` and leaves `ops` and `bytes`. -/
def chunkSent (c : List Byte) (ops : List Word) (bytes : List Byte) (s : State) : State :=
  put ⟨.ok, 0#32⟩
    { s with opIn := ops, byteIn := bytes, buf := Memory.writeAll 0 c s.buf,
             bytesSent := BitVec.ofNat 18 (s.bytesSent.toNat + c.length),
             trace := s.trace ++ (if c.length = 0 then [] else [.data c]) }

/-- A step that takes a `SEND_CHUNK` and finds its valid bytes at the front of the stream. -/
theorem step_sendChunk_ok {s : State} {c bytes : List Byte} {ops : List Word} (hs : s.resetIn = none)
    (hr : s.running = none) (ho : s.opIn = encode (.sendChunk c.length) :: ops) (hb : s.byteIn = c ++ bytes)
    (hfit : c.length ≤ s.params.chunkMax) (hq : s.seqState = .frameOpen)
    (hroom : s.bytesSent.toNat + c.length ≤ 192000) (hvalid : ∀ b ∈ c, validPacked b = true) :
    step s = .next (chunkSent c ops bytes s) := by
  have hlen : c.length ≤ s.byteIn.length := by rw [hb, List.length_append]; omega
  rw [step_encoded hs hr ho (Nat.lt_of_le_of_lt hfit (chunkMax_lt _)),
    exec_sendChunk_accepted (s := { s with opIn := ops }) hfit hq hroom,
    carryOut_sendChunkFrom_nil (s := { s with opIn := ops }) hfit hlen, hb, List.take_left, List.drop_left,
    if_pos (List.all_eq_true.mpr hvalid)]
  rfl

/-- Settles O30: one step for each chunk, by induction over the chunks. -/
theorem anyChunkingSendsTheSameBytes : Obligations.AnyChunkingSendsTheSameBytes := by
  intro cs
  induction cs with
  | nil =>
    intro s ops bytes hs hr hq _ _ ho hb
    refine ⟨s.buf, ?_⟩
    have ho : s.opIn = ops := ho
    have hb : s.byteIn = bytes := hb
    subst ho hb
    simp [Host.Core.run, dataEvents]
  | cons c cs ih =>
    intro s ops bytes hs hr hq hcs hroom ho hb
    obtain ⟨⟨hfit, hvalid⟩, hcs⟩ := List.forall_mem_cons.mp hcs
    rw [List.flatten_cons, List.length_append] at hroom
    rw [List.flatten_cons, List.append_assoc] at hb
    rw [List.map_cons, List.cons_append] at ho
    have hsent := toNat_bytesSent_add (n := s.bytesSent.toNat) (m := c.length) (by omega)
    have hstep := step_sendChunk_ok hs hr ho hb hfit hq (by omega) hvalid
    obtain ⟨m, hrun⟩ := ih (chunkSent c _ _ s) ops bytes hs rfl hq hcs
      (show (BitVec.ofNat 18 _).toNat + _ ≤ _ by omega) rfl rfl
    refine ⟨m, ?_⟩
    rw [List.length_cons, run_succ Sys2Proof.core _ hstep, hrun]
    simp [chunkSent, put, hsent, hr, dataEvents_cons, Nat.add_assoc, List.replicate_succ]

/-! ### A whole live frame (R154) -/

theorem step_init_ok {s : State} {ops : List Word} {j : Nat} {rest : List Bool} (hs : s.resetIn = none)
    (hr : s.running = none) (ho : s.opIn = encode (.init 0) :: ops) (hq : s.seqState ≠ .frameOpen)
    (hb : s.busyIn = busyTimes j rest) :
    step s = .next (put ⟨.ok, 0#32⟩
      { s with opIn := ops, pwrEn := true, rst := s.params.rstOuter, seqState := .configured, busyIn := rest,
               longwait := s.longwait || decide (2 ≤ j), trace := s.trace ++ initEvents s.params j }) := by
  obtain ⟨_, _, hinit⟩ := initFollowsItsRule { s with opIn := ops }
  rw [step_encoded hs hr ho (by decide : 0 < 1048576), hinit j rest hq hb]

theorem step_beginFrame_ok {s : State} {ops : List Word} (hs : s.resetIn = none) (hr : s.running = none)
    (ho : s.opIn = encode (.beginFrame 0) :: ops) (hq : s.seqState = .configured) (hp : s.pwrEn = true) :
    step s = .next (put ⟨.ok, 0#32⟩
      { s with opIn := ops, bufLive := true, bytesSent := 0#18, seqState := .frameOpen,
               trace := s.trace ++ cmdEvents s.params.cmdDataStart }) := by
  rw [step_encoded hs hr ho (by decide : 0 < 1048576), exec_beginFrame_of_state (s := { s with opIn := ops }) (.inl hq),
    if_neg (by rw [hp]; decide)]

theorem step_endFrame_ok {s : State} {ops : List Word} {j1 j2 j3 : Nat} {rest : List Bool} (hs : s.resetIn = none)
    (hr : s.running = none) (ho : s.opIn = encode (.endFrame 0) :: ops) (hq : s.seqState = .frameOpen)
    (hb : s.busyIn = busyTimes j1 (busyTimes j2 (busyTimes j3 rest))) :
    step s = .next (put ⟨.ok, 0#32⟩
      { s with opIn := ops, seqState := .poweredOff, bufLive := false, busyIn := rest,
               shortframe := s.shortframe || decide (s.bytesSent.toNat ≠ 192000),
               longwait := s.longwait || decide (2 ≤ j1) || decide (2 ≤ j2) || decide (2 ≤ j3),
               trace := s.trace ++ endEvents s.params j1 j2 j3 }) := by
  obtain ⟨_, _, hend⟩ := endFrameFollowsItsRule { s with opIn := ops }
  rw [step_encoded hs hr ho (by decide : 0 < 1048576), hend j1 j2 j3 rest hq hb]

theorem step_turnOff_ok {s : State} {ops : List Word} (hs : s.resetIn = none) (hr : s.running = none)
    (ho : s.opIn = encode (.turnOff 0) :: ops) : step s = .next (put ⟨.ok, 0#32⟩
      { s with opIn := ops, pwrEn := false, bufLive := false, seqState := .poweredOff,
               trace := s.trace ++ [.pwr false] }) := by
  rw [step_encoded hs hr ho (by decide : 0 < 1048576), exec_turnOff_accepted]

/-- The state after an `INIT` and a `BEGIN_FRAME` whose wait was busy `j` times. -/
def frameOpened (ops : List Word) (j : Nat) (rest : List Bool) (s : State) : State :=
  { s with opIn := ops, running := none, pwrEn := true, rst := s.params.rstOuter, bufLive := true, bytesSent := 0#18,
           seqState := .frameOpen, busyIn := rest, longwait := s.longwait || decide (2 ≤ j),
           res := s.res ++ [⟨.ok, 0#32⟩] ++ [⟨.ok, 0#32⟩],
           trace := s.trace ++ initEvents s.params j ++ cmdEvents s.params.cmdDataStart }

theorem run_init_beginFrame {s : State} {ops : List Word} {j : Nat} {rest : List Bool} (hs : s.resetIn = none)
    (hr : s.running = none) (ho : s.opIn = encode (.init 0) :: encode (.beginFrame 0) :: ops)
    (hq : s.seqState ≠ .frameOpen) (hb : s.busyIn = busyTimes j rest) :
    Host.Core.run Sys2Proof.core 2 s = .next (frameOpened ops j rest s) := by
  refine (run_succ Sys2Proof.core 1 (step_init_ok hs hr ho hq hb)).trans ?_
  exact run_succ Sys2Proof.core 0 (step_beginFrame_ok (ops := ops) hs rfl rfl rfl rfl)

theorem run_endFrame_turnOff {s : State} {ops : List Word} {j1 j2 j3 : Nat} {rest : List Bool} (hs : s.resetIn = none)
    (hr : s.running = none) (ho : s.opIn = encode (.endFrame 0) :: encode (.turnOff 0) :: ops)
    (hq : s.seqState = .frameOpen) (hb : s.busyIn = busyTimes j1 (busyTimes j2 (busyTimes j3 rest))) :
    Host.Core.run Sys2Proof.core 2 s = .next
      { s with opIn := ops, running := none, pwrEn := false, bufLive := false, seqState := .poweredOff, busyIn := rest,
               shortframe := s.shortframe || decide (s.bytesSent.toNat ≠ 192000),
               longwait := s.longwait || decide (2 ≤ j1) || decide (2 ≤ j2) || decide (2 ≤ j3),
               res := s.res ++ [⟨.ok, 0#32⟩] ++ [⟨.ok, 0#32⟩],
               trace := s.trace ++ endEvents s.params j1 j2 j3 ++ [.pwr false] } := by
  refine (run_succ Sys2Proof.core 1 (step_endFrame_ok hs hr ho hq hb)).trans ?_
  exact run_succ Sys2Proof.core 0 (step_turnOff_ok (ops := ops) hs rfl rfl)

/-- Settles O31: two steps open the frame, O30 sends the chunks, two steps close it. -/
theorem wholeLiveFrameReachesThePanel : Obligations.WholeLiveFrameReachesThePanel := by
  intro cs s ops bytes j0 j1 j2 j3 rest hs hr hq hcs hlen ho hbytes hbusy
  have hopen := run_init_beginFrame hs hr ho hq hbusy
  obtain ⟨m, hchunks⟩ := anyChunkingSendsTheSameBytes cs (frameOpened _ _ _ s) _ bytes hs rfl rfl hcs
    (show 0 + cs.flatten.length ≤ 192000 by omega) rfl hbytes
  have hsent : (BitVec.ofNat 18 (0 + cs.flatten.length)).toNat = 192000 := by
    rw [hlen]; rfl
  rw [show cs.length + 4 = 2 + (cs.length + 2) by omega, run_add Sys2Proof.core _ _ hopen,
    run_add Sys2Proof.core _ _ hchunks]
  refine ⟨_, run_endFrame_turnOff (by exact hs) rfl rfl rfl rfl, ?_, rfl, ?_, hsent, rfl, rfl, rfl, rfl, rfl, rfl, rfl⟩
  · show s.res ++ [_] ++ [_] ++ List.replicate cs.length _ ++ [_] ++ [_] = _
    simp only [← List.replicate_one, List.append_assoc, List.replicate_append_replicate]
    congr 2
  · show (s.shortframe || decide ((BitVec.ofNat 18 (0 + cs.flatten.length)).toNat ≠ 192000)) = _
    rw [hsent]
    simp

end Sys2Proof.Machine

/-! The rules of the generator: the node table (R182), the colours (R189) and the numbers' ranges (R190). -/

namespace Sys2Proof.Machine

/-! ### `GEN_SCATTER` (R182) -/

theorem exec_genScatter_badCount {c : Nat} (s : State) (hc : c ≠ 0) :
    exec (.genScatter c) s = .next (raise .badCount s) := by
  simp [exec_eq_carryOut, planOf, planGenScatter, hc]

/-- The node of the draws at `5 * i` on, as R182 writes it. -/
def drawnNode (d : List Nat) (i : Nat) : Node :=
  { x := BitVec.ofNat 10 (d.getD (5 * i) 0 % 800)
    y := BitVec.ofNat 9 (d.getD (5 * i + 1) 0 % 480)
    primary := BitVec.ofNat 4 (d.getD (5 * i + 2) 0 % 6 + 1)
    alt := if d.getD (5 * i + 3) 0 % 2 = 1 then BitVec.ofNat 4 (d.getD (5 * i + 4) 0 % 6 + 1)
           else BitVec.ofNat 4 (d.getD (5 * i + 2) 0 % 6 + 1) }

theorem getElem?_scatteredNodes {d : List Nat} {i : Nat} (hi : 5 * i + 4 < d.length) :
    ((drawTuples d).map nodeOfDraws)[i]? = some (drawnNode d i) := by
  rw [List.getElem?_map, drawTuples_get d i hi]
  rfl

theorem scatteredNodes_eq {n : Nat} {d : List Nat} (hd : d.length = 5 * n) :
    (drawTuples d).map nodeOfDraws = (List.range n).map (drawnNode d) := by
  have hlen : (drawTuples d).length = n := drawTuples_length n d hd
  refine List.ext_getElem (by simp [hlen]) fun i hi _ => ?_
  rw [List.length_map, hlen] at hi
  rw [List.getElem_eq_iff, getElem?_scatteredNodes (by omega), List.getElem_map, List.getElem_range]

/-- The nodes read only the draws that are taken for them. -/
theorem drawnNode_take {d : List Nat} {n i : Nat} (hi : i < n) : drawnNode (d.take (5 * n)) i = drawnNode d i := by
  have hget : ∀ j, j < 5 * n → (d.take (5 * n)).getD j 0 = d.getD j 0 := fun j hj => by
    rw [List.getD_eq_getElem?_getD, List.getElem?_take_of_lt hj, ← List.getD_eq_getElem?_getD]
  simp (disch := omega) only [drawnNode, hget]

/-- Settles O32: with its 200 draws there `GEN_SCATTER` ends, and its nodes are those of the draws. -/
theorem genScatterFollowsItsRule : Obligations.GenScatterFollowsItsRule := by
  refine fun s => ⟨fun _ => exec_genScatter_badCount s, fun hdraws => ?_⟩
  obtain ⟨d, rest, hd, hrest, hcases⟩ := scatterFrom_cases [] s
  have htaken : d = s.rngIn.take (5 * 40) := hd
  have hlen : d.length = 5 * 40 := by rw [htaken, List.length_take]; omega
  have hnodes : (drawTuples d).map nodeOfDraws = (List.range 40).map (drawnNode s.rngIn) := by
    rw [scatteredNodes_eq hlen]
    refine List.map_congr_left fun i hi => ?_
    rw [htaken, drawnNode_take (List.mem_range.mp hi)]
  rcases hcases with ⟨hshort, _⟩ | ⟨_, hscatter⟩
  · exact absurd hlen (Nat.ne_of_lt hshort)
  · rw [exec_genScatter_accepted, hscatter, hnodes, hrest]
    rfl

/-! ### The colours (R189) -/

theorem nodeInRange_iff {nd : Node} : nodeInRange nd = true ↔ nd.x.toNat < 800 ∧ nd.y.toNat < 480 ∧
    1 ≤ nd.primary.toNat ∧ nd.primary.toNat ≤ 6 ∧ 1 ≤ nd.alt.toNat ∧ nd.alt.toNat ≤ 6 := by
  simp [nodeInRange, Config.width, Config.height, and_assoc]

theorem fillColor_range (x y : Nat) {nd : Node} (h : nodeInRange nd = true) :
    1 ≤ (fillColor x y nd).toNat ∧ (fillColor x y nd).toNat ≤ 6 := by
  obtain ⟨-, -, hprimary, hprimary', halt, halt'⟩ := nodeInRange_iff.mp h
  unfold fillColor
  split
  · exact ⟨hprimary, hprimary'⟩
  · exact ⟨halt, halt'⟩

theorem IsNearest.inRange {x y : Nat} {nodes : List Node} {P : Nat → Prop} {n : Near} (h : IsNearest x y nodes P n)
    (hall : nodes.all nodeInRange = true) : nodeInRange n.node = true :=
  List.all_eq_true.mp hall _ (List.mem_of_getElem? h.node)

/-- Settles O38: black on the border, and off it one of the two colours of a node, neither of them black. -/
theorem everyPixelIsAColour : Obligations.EveryPixelIsAColour := by
  intro nodes x y hall htwo
  obtain ⟨n1, n2, hnear⟩ := twoNearest_isSome x y htwo
  obtain ⟨first, -⟩ := isNearest_of_twoNearest hnear
  obtain ⟨hlow, hhigh⟩ := fillColor_range x y (first.inRange hall)
  refine ⟨_, n1, n2, vorPixel_of_twoNearest hnear, hnear, ?_⟩
  by_cases hborder : isBorder n1 n2 = true
  · simp [hborder]
  · have hcolour : fillColor x y n1.node ≠ 0#4 := fun h0 => by rw [h0] at hlow; exact absurd hlow (by decide)
    simp [hborder, hhigh, hcolour]

/-! ### The numbers (R190) -/

theorem square_nonneg (a : Int) : 0 ≤ square a := mul_self_nonneg a

/-- A difference of two coordinates of an axis of `b + 1` points has a square of at most `b * b`. -/
theorem square_sub_le {a c b : Nat} (ha : a ≤ b) (hc : c ≤ b) : square ((a : Int) - c) ≤ b * b :=
  abs_le_iff_mul_self_le.mp (by rw [Nat.abs_cast, abs_le]; omega)

theorem dist2_nonneg (x y : Nat) (nd : Node) : 0 ≤ dist2 x y nd :=
  Int.add_nonneg (square_nonneg _) (square_nonneg _)

theorem dist2_le {x y : Nat} {nd : Node} (hx : x < 800) (hy : y < 480) (h : nodeInRange nd = true) :
    dist2 x y nd ≤ 867842 := by
  obtain ⟨hnx, hny, -⟩ := nodeInRange_iff.mp h
  exact Int.add_le_add (square_sub_le (b := 799) (by omega) (by omega)) (square_sub_le (b := 479) (by omega) (by omega))

/-- The distance of two nodes is that of the second's point from the first. -/
theorem nodeDist2_eq_dist2 (a b : Node) : nodeDist2 a b = dist2 b.x.toNat b.y.toNat a := rfl

/-- Settles O39: the bounds of a squared distance, for the two candidates and for the two nodes. -/
theorem generatorNumbersStayInRange : Obligations.GeneratorNumbersStayInRange := by
  intro nodes x y n1 n2 hx hy hall hnear
  obtain ⟨first, second⟩ := isNearest_of_twoNearest hnear
  have hpos : 0 ≤ n1.dist := by rw [first.dist]; exact dist2_nonneg ..
  have hle : n1.dist ≤ n2.dist := by
    rw [second.dist]
    exact (first.least _ _ second.node trivial).1
  have hmax : n2.dist ≤ 867842 := by rw [second.dist]; exact dist2_le hx hy (second.inRange hall)
  have hsquare : square (n2.dist - n1.dist) ≤ 867842 * 867842 :=
    mul_self_le_mul_self (by omega) (by omega)
  obtain ⟨hx2, hy2, -⟩ := nodeInRange_iff.mp (second.inRange hall)
  have hnodes : nodeDist2 n1.node n2.node ≤ 867842 := by
    rw [nodeDist2_eq_dist2]; exact dist2_le hx2 hy2 (first.inRange hall)
  have hnodes_nonneg : 0 ≤ nodeDist2 n1.node n2.node := by rw [nodeDist2_eq_dist2]; exact dist2_nonneg ..
  exact ⟨hpos, hle, hmax, hsquare, by omega, by omega⟩

end Sys2Proof.Machine

/-! A run of pattern pixels may be cut anywhere (R194). -/

namespace Sys2Proof.Machine

/-! ### Runs cut in two -/

theorem genPixels_append {nodes : List Node} {m : Nat} : ∀ {n k : Nat} {p : List Pixel},
    genPixels nodes k (n + m) = some p →
    ∃ p1 p2, genPixels nodes k n = some p1 ∧ genPixels nodes (k + n) m = some p2 ∧ p = p1 ++ p2
  | 0, k, p, h => ⟨[], p, rfl, by rwa [Nat.zero_add] at h, rfl⟩
  | n + 1, k, p, h => by
    rw [Nat.add_right_comm, genPixels] at h
    split at h
    next q qs hq hqs =>
      cases h
      obtain ⟨p1, p2, h1, h2, rfl⟩ := genPixels_append hqs
      refine ⟨q :: p1, p2, ?_, ?_, rfl⟩
      · rw [genPixels, hq, h1]
      · rwa [Nat.add_assoc, Nat.add_comm 1] at h2
    next => cases h

theorem unpackSeq_append (b c : List Byte) : unpackSeq (b ++ c) = unpackSeq b ++ unpackSeq c := by
  induction b with
  | nil => rfl
  | cons v b ih => simp [unpackSeq, ih]

theorem toNat_genCursor_add {k n : Nat} (h : k + n ≤ 384000) : (BitVec.ofNat 19 (k + n)).toNat = k + n := by
  rw [BitVec.toNat_ofNat]
  exact Nat.mod_eq_of_lt (Nat.lt_of_le_of_lt h (by decide))

/-! ### A `GEN_CHUNK` or `GEN_SEND` that has ended `OK` (R192, R193) -/

/-- What a `GEN_CHUNK` that has ended `OK` must have found. -/
theorem genChunk_of_ok {n : Nat} {s t : State} {v : Word} (h : exec (.genChunk n) s = .next t)
    (hres : t.res = s.res ++ [⟨.ok, v⟩]) :
    n ≤ 2 * s.params.chunkMax ∧ s.nodesValid = true ∧ s.genCursor.toNat + n ≤ 384000 ∧
      ∃ p, genPixels s.nodes s.genCursor.toNat n = some p ∧ t = put ⟨.ok, 0#32⟩
        { s with pixOut := s.pixOut ++ p, genCursor := BitVec.ofNat 19 (s.genCursor.toNat + n) } := by
  rcases exec_cases h with ⟨c, -, rfl⟩ | ⟨-, q, acc, ht⟩
  · cases result_inj hres rfl
  cases acc
  case noPixels => cases ht
  case genChunk p seeded fits even run pixels =>
    rw [exec_genChunk_accepted fits even seeded run pixels] at h
    cases h
    exact ⟨fits, seeded, run, _, pixels, rfl⟩

/-- What a `GEN_SEND` that has ended `OK` must have found. -/
theorem genSend_of_ok {l : Nat} {s t : State} {v : Word} (h : exec (.genSend l) s = .next t)
    (hres : t.res = s.res ++ [⟨.ok, v⟩]) :
    l ≤ s.params.chunkMax ∧ s.nodesValid = true ∧ s.genCursor.toNat + 2 * l ≤ 384000 ∧
      ∃ p, genPixels s.nodes s.genCursor.toNat (2 * l) = some p ∧ t = put ⟨.ok, 0#32⟩
        { s with buf := Memory.writeAll 0 (packSeq p) s.buf,
                 genCursor := BitVec.ofNat 19 (s.genCursor.toNat + 2 * l),
                 bytesSent := BitVec.ofNat 18 (s.bytesSent.toNat + l),
                 trace := s.trace ++ (if l = 0 then [] else [.data (packSeq p)]) } := by
  rcases exec_cases h with ⟨c, -, rfl⟩ | ⟨-, q, acc, ht⟩
  · cases result_inj hres rfl
  cases acc
  case noPixels => cases ht
  case genSend p state seeded fits run room pixels =>
    rw [carryOut_sendGenerated (length_packSeq_genPixels pixels) fits] at ht
    cases ht
    exact ⟨fits, seeded, run, _, pixels, rfl⟩

theorem unpackSeq_packSeq_genPixels {nodes : List Node} {k l : Nat} {p : List Pixel}
    (hp : genPixels nodes k (2 * l) = some p) : unpackSeq (packSeq p) = p :=
  unpackSeq_packSeq (by rw [genPixels_length _ _ hp]; omega)

/-- Settles O41: the two runs of a cut meet at the cursor the first one leaves, and a `GEN_SEND` packs the run that a
`GEN_CHUNK` gives. -/
theorem chunkingDoesNotChangeThePattern : Obligations.ChunkingDoesNotChangeThePattern := by
  refine ⟨fun n m s t hn hm h hres => ?_, fun l s t hl h hres => ?_⟩
  · obtain ⟨fits, seeded, run, p, pixels, rfl⟩ := genChunk_of_ok h hres
    obtain ⟨p1, p2, h1, h2, rfl⟩ := genPixels_append pixels
    have hcursor := toNat_genCursor_add (k := s.genCursor.toNat) (n := n) (by omega)
    refine ⟨_, _, exec_genChunk_accepted (by omega) hn seeded (by omega) h1,
      exec_genChunk_accepted (p := p2) (by show m ≤ 2 * s.params.chunkMax; omega) hm seeded ?_ ?_, ?_, ?_⟩
    · show (BitVec.ofNat 19 (s.genCursor.toNat + n)).toNat + m ≤ 384000
      omega
    · show genPixels s.nodes (BitVec.ofNat 19 (s.genCursor.toNat + n)).toNat m = some p2
      rw [hcursor, h2]
    · exact List.append_assoc ..
    · show BitVec.ofNat 19 ((BitVec.ofNat 19 (s.genCursor.toNat + n)).toNat + m) = _
      rw [hcursor, Nat.add_assoc]
      rfl
  · obtain ⟨fits, seeded, run, p, pixels, rfl⟩ := genSend_of_ok h hres
    refine ⟨_, packSeq p, exec_genChunk_accepted (by omega) (by omega) seeded run pixels, ?_, ?_, rfl⟩
    · exact congrArg (s.trace ++ ·) (if_neg hl)
    · rw [unpackSeq_packSeq_genPixels pixels]
      rfl

/-! ### Any sequence of `GEN_SEND` -/

/-- The state after a step that takes a `GEN_SEND` of the packed bytes `b` and leaves `ops`. -/
def patternSent (b : List Byte) (ops : List Word) (s : State) : State :=
  put ⟨.ok, 0#32⟩
    { s with opIn := ops, buf := Memory.writeAll 0 b s.buf,
             genCursor := BitVec.ofNat 19 (s.genCursor.toNat + 2 * b.length),
             bytesSent := BitVec.ofNat 18 (s.bytesSent.toNat + b.length),
             trace := s.trace ++ (if b.length = 0 then [] else [.data b]) }

theorem step_genSend_ok {s : State} {l : Nat} {p : List Pixel} {ops : List Word} (hs : s.resetIn = none)
    (hr : s.running = none) (ho : s.opIn = encode (.genSend l) :: ops) (hl : l ≤ s.params.chunkMax)
    (hq : s.seqState = .frameOpen) (hv : s.nodesValid = true) (hc : s.genCursor.toNat + 2 * l ≤ 384000)
    (hb : s.bytesSent.toNat + l ≤ 192000) (hp : genPixels s.nodes s.genCursor.toNat (2 * l) = some p) :
    step s = .next (patternSent (packSeq p) ops s) := by
  have hlen := length_packSeq_genPixels hp
  rw [step_encoded hs hr ho (Nat.lt_of_le_of_lt hl (chunkMax_lt _)),
    exec_genSend_accepted (s := { s with opIn := ops }) hl hq hv hc hb hp,
    carryOut_sendGenerated (s := { s with opIn := ops }) hlen hl, patternSent, hlen]

/-- A run of pattern pixels and the bytes of the rest of the pattern are the pattern. -/
theorem getElem?_unpackSeq_pattern {nodes : List Node} {k l r : Nat} {p : List Pixel} {b : List Byte}
    (hp : genPixels nodes k (2 * l) = some p)
    (hb : ∀ i, i < 2 * r → (unpackSeq b)[i]? = framePixel nodes (k + 2 * l + i)) :
    ∀ i, i < 2 * (l + r) → (unpackSeq (packSeq p ++ b))[i]? = framePixel nodes (k + i) := by
  intro i hi
  have hlen : p.length = 2 * l := genPixels_length _ _ hp
  rw [unpackSeq_append, unpackSeq_packSeq_genPixels hp]
  by_cases hfirst : i < 2 * l
  · rw [List.getElem?_append_left (by omega), getElem?_genPixels _ hp hfirst]
  · rw [List.getElem?_append_right (by omega), hlen, hb _ (by omega)]
    congr 1
    omega

/-- Settles O42: one step for each length, by induction over the lengths. -/
theorem anyGeneratorChunkingSendsThePattern : Obligations.AnyGeneratorChunkingSendsThePattern := by
  intro ls
  induction ls with
  | nil =>
    intro s ops hs hr hq _ _ _ _ _ ho
    have ho : s.opIn = ops := ho
    subst ho
    exact ⟨[], s.buf, rfl, fun i hi => absurd hi (Nat.not_lt_zero i), by simp [Host.Core.run, dataEvents]⟩
  | cons l ls ih =>
    intro s ops hs hr hq hv htwo hls hcursor hroom ho
    obtain ⟨hl, hls⟩ := List.forall_mem_cons.mp hls
    rw [List.sum_cons] at hcursor hroom
    rw [List.map_cons, List.cons_append] at ho
    obtain ⟨p, hp⟩ := genPixels_isSome htwo (2 * l) s.genCursor.toNat
    have hlen := length_packSeq_genPixels hp
    have hstep := step_genSend_ok hs hr ho hl hq hv (by omega) (by omega) hp
    have hcursor' : (patternSent (packSeq p) (ls.map (fun l => encode (.genSend l)) ++ ops) s).genCursor.toNat =
        s.genCursor.toNat + 2 * l := by
      rw [← hlen]
      exact toNat_genCursor_add (by omega)
    have hsent' : (patternSent (packSeq p) (ls.map (fun l => encode (.genSend l)) ++ ops) s).bytesSent.toNat =
        s.bytesSent.toNat + l := by
      rw [← hlen]
      exact toNat_bytesSent_add (by omega)
    obtain ⟨ds, m, hds, hpattern, hrun⟩ := ih (patternSent (packSeq p) _ s) ops hs rfl hq hv htwo hls
      (by omega) (by omega) rfl
    rw [hcursor'] at hpattern hrun
    rw [hsent'] at hrun
    refine ⟨packSeq p :: ds, m, by rw [List.map_cons, hlen, hds], ?_, ?_⟩
    · rw [List.sum_cons, List.flatten_cons]
      exact getElem?_unpackSeq_pattern hp hpattern
    · rw [List.length_cons, run_succ Sys2Proof.core _ hstep, hrun]
      simp [patternSent, put, hr, dataEvents_cons, Nat.add_assoc, Nat.mul_add, List.replicate_succ]

end Sys2Proof.Machine
